-- ==== Sys2Proof/Word.lean ====
section
/-! DEFINITION. The values the rules compute with: bytes, the 24-bit words, line levels and level latches (00_scope.md R9, R11). -/

namespace Sys2Proof

/-- A byte (R9). -/
abbrev Byte := BitVec 8

/-- A 24-bit word: an `OPW24` operation word, a `SIG24` signature, the accumulator `ACC` (R19, R50). -/
abbrev Word24 := BitVec 24

/-- A line level: `false` is 0 (low), `true` is 1 (high) (R11). -/
abbrev Level := Bool

/-- What a level latch holds: a level, or `none` for the spec's own value ⊥, "no value" (R11, R15). -/
abbrev Latch := Option Level

end Sys2Proof
end

