-- ==== Sys2Proof/Machine/Lines.lean ====
section
/-! DEFINITION. The 18 lines, their directions, the named delays, and the events of the trace `TR` (00_scope.md R8, R12; 10_state.md R14, R28). -/

namespace Sys2Proof.Machine

/-- The 16 protocol lines `PL` (R12). -/
inductive PLine
  | d (i : Fin 8)
  | wr
  | oe
  | bs1
  | bs0
  | ms1
  | ms0
  | clk
  | rdy
  deriving DecidableEq, Repr, Fintype

/-- All 18 lines `L`: the protocol lines and the two power-enable lines, which have no direction state (R12, R16). -/
inductive Line
  | protocol (l : PLine)
  | vccEn
  | vppEn
  deriving DecidableEq, Repr

/-- `DIR[l]` (R14). `unset` is a direction not set since reset: neither `In` nor `Out`, so that no access
that needs a direction is allowed on it (93 U1, U3). DESIGN CHOICE: log 1. -/
inductive Dir
  | unset
  | input
  | output
  deriving DecidableEq, Repr

/-- The time parameters a `DLY` names (R8, R152). -/
inductive TimeParam
  | enter1
  | enter2
  | enter3
  | clkHi
  | clkLo
  | oeSettle
  | wrSettle
  | preWrite
  deriving DecidableEq, Repr

/-- The events of the trace (R28). -/
inductive Event
  | drv (l : PLine) (v : Level)
  | set (l : Line) (v : Level)
  | rel (l : PLine)
  | smp (l : PLine) (v : Level)
  | dly (p : TimeParam)
  | tmArm (n : BitVec 16)
  | tmDisarm
  | tmFire
  deriving DecidableEq, Repr

/-- The micro-steps of the sequencer that sample nothing: `DRV`, `SET`, `REL`, `DLY` and the monitor's two
(R10, R60 to R64, R90, R91). A straight-line part of an operation is a list of these. -/
inductive MicroStep
  | drv (l : PLine) (v : Level)
  | set (l : Line) (v : Level)
  | rel (l : PLine)
  | dly (p : TimeParam)
  | tmArm (n : BitVec 16)
  | tmDisarm
  deriving DecidableEq, Repr

/-- The one event a micro-step appends to the trace (R10). -/
def MicroStep.event : MicroStep → Event
  | .drv l v => .drv l v
  | .set l v => .set l v
  | .rel l => .rel l
  | .dly p => .dly p
  | .tmArm n => .tmArm n
  | .tmDisarm => .tmDisarm

/-- The place of a protocol line in the direction file. -/
def PLine.slot : PLine → Fin 16
  | .d i => ⟨i.val, by omega⟩
  | .wr => 8
  | .oe => 9
  | .bs1 => 10
  | .bs0 => 11
  | .ms1 => 12
  | .ms0 => 13
  | .clk => 14
  | .rdy => 15

/-- The place of a line in the level file. -/
def Line.slot : Line → Fin 18
  | .protocol l => ⟨l.slot.val, by omega⟩
  | .vccEn => 16
  | .vppEn => 17

/-- The eight data lines, `D[0]` first. -/
def dataLines : List PLine := [.d 0, .d 1, .d 2, .d 3, .d 4, .d 5, .d 6, .d 7]

/-- The eight control and handshake protocol lines (R12). -/
def controlLines : List PLine := [.wr, .oe, .bs1, .bs0, .ms1, .ms0, .clk, .rdy]

/-- `PL`: the 16 protocol lines (R12). -/
def protocolLines : List PLine := dataLines ++ controlLines

/-- `L`: all 18 lines (R12). -/
def allLines : List Line := protocolLines.map .protocol ++ [.vccEn, .vppEn]

end Sys2Proof.Machine
end

