-- ==== Sys2Proof/Config.lean ====
section
/-! DEFINITION. The configuration record `Cfg` (00_scope.md R8), the device registry's records (R118), and the free values:
constants without a body, so that no proof can see what they are. -/

namespace Sys2Proof

open Machine

namespace Config

/-- `N_DATA` (R8). -/
def nData : Nat := 8

/-- `N_LINES` (R8). -/
def nLines : Nat := 18

/-- `TM_GUARD_DEADLINE_MS`, milliseconds (R8, R93). -/
def guardDeadlineMs : BitVec 16 := 200#16

/-- `ATTEMPT_MAX`: "1 initial + 3 retries" (R8, R20). -/
def attemptMax : Nat := 4

/-- `T_WR_SETTLE` in microseconds (R8, R93). -/
def wrSettleUs : Nat := 1

/-- The three fuse bytes of a default set, in the order low, high, extended (R118). -/
structure FuseSet where
  low : Byte
  high : Byte
  extended : Byte
  deriving DecidableEq, Repr, Inhabited

/-- A DeviceDescriptor of the registry (R118). -/
structure DeviceDescriptor where
  name : String
  signature : Word24
  eepromSize : BitVec 16
  defaultFuse : FuseSet
  bootloaderFuse : FuseSet
  deriving DecidableEq, Repr, Inhabited

/-- The open members of `Cfg` (R8). `lineBinding` and the times are read by no rule of the untimed model. R8 types the
times `time`, with bounds in microseconds and no resolution; that each is a whole number of microseconds is the model's.
DESIGN CHOICE, unsafe for a finer wait: log 30. -/
structure Params where
  lineBinding : Line → Nat
  clkHiUs : Nat
  clkLoUs : Nat
  enter1Us : Nat
  enter2Us : Nat
  enter3Us : Nat
  oeSettleUs : Nat
  preWriteUs : Nat
  rdyReadyLevel : Level
  cmdReadSignature : Byte
  cmdReadFuse : Byte
  cmdWriteFuse : Byte
  cmdWriteLock : Byte
  cmdChipErase : Byte
  registry : List DeviceDescriptor
  deriving Inhabited

/-- The five command bytes (R54). -/
def Params.commands (p : Params) : List Byte :=
  [p.cmdReadSignature, p.cmdReadFuse, p.cmdWriteFuse, p.cmdWriteLock, p.cmdChipErase]

/-- What R8 and R118 require of the parameters: an injective line binding, the classes of the delays,
pairwise distinct command bytes, pairwise distinct signatures. -/
abbrev Params.Valid (p : Params) : Prop :=
  (allLines.map p.lineBinding).Nodup ∧
  1 ≤ p.clkHiUs ∧ 1 ≤ p.clkLoUs ∧
  10 ≤ p.enter1Us ∧ p.enter1Us < 100 ∧ p.enter1Us ≤ p.enter2Us ∧
  p.enter2Us ≤ p.enter3Us ∧ 100 ≤ p.enter3Us ∧ p.enter3Us < 1000 ∧
  p.commands.Nodup ∧ (p.registry.map DeviceDescriptor.signature).Nodup

/-- The length in microseconds of the wait a `DLY` names (R8, R152). -/
def Params.timeUs (p : Params) : TimeParam → Nat
  | .enter1 => p.enter1Us
  | .enter2 => p.enter2Us
  | .enter3 => p.enter3Us
  | .clkHi => p.clkHiUs
  | .clkLo => p.clkLoUs
  | .oeSettle => p.oeSettleUs
  | .wrSettle => wrSettleUs
  | .preWrite => p.preWriteUs

/-- The one registry entry the source gives (R118). -/
def atmega328p : DeviceDescriptor where
  name := "ATmega328P"
  signature := 0x1E950F#24
  eepromSize := 1024#16
  defaultFuse := { low := 0x62#8, high := 0xD9#8, extended := 0xFF#8 }
  bootloaderFuse := { low := 0xFF#8, high := 0xDE#8, extended := 0x05#8 }

/-- The defaults of R8. They are the spec's own choices and general knowledge; nothing is proved from
them but that valid parameters exist. -/
def Params.specDefaults : Params where
  lineBinding := fun l => l.slot.val
  clkHiUs := 1
  clkLoUs := 1
  enter1Us := 50
  enter2Us := 50
  enter3Us := 300
  oeSettleUs := 1
  preWriteUs := 1000
  rdyReadyLevel := true
  cmdReadSignature := 0x08#8
  cmdReadFuse := 0x04#8
  cmdWriteFuse := 0x40#8
  cmdWriteLock := 0x20#8
  cmdChipErase := 0x80#8
  registry := [atmega328p]

/-- The parameters of this programmer, as the configuration gives them; not known here. -/
opaque givenParams : Params

/-- `Cfg`: the given parameters where they meet R8's requirements; any valid record is possible, and all that
a proof can use is `Params.Valid`. DESIGN CHOICE, safe: log 14. -/
def params : Params := if givenParams.Valid then givenParams else Params.specDefaults

/-- `Env(TR, l)` of R63: the level a sample of protocol line `l` reads after the history `TR`. Free: log 5. -/
opaque sampleAnswer : List Event → PLine → Level

/-- How many points at which the countdown may fire pass before it does, for the `TM_ARM` that ends the
history `TR` (R94, R96: any finite number, none pre-empted for ever). Free: log 6. -/
opaque fireDelay : List Event → Nat

end Config

/-- What the step relation takes beside the state (10_state.md R29): the parameters, the environment's answers,
the moments of firing. The operations take it as an argument, so that a test can supply a target of its own. -/
structure World where
  params : Config.Params
  answer : List Event → PLine → Level
  fireDelay : List Event → Nat

/-- The world the machine runs in: valid parameters, free answers, free firing. -/
def Config.world : World where
  params := Config.params
  answer := Config.sampleAnswer
  fireDelay := Config.fireDelay

end Sys2Proof
end

