-- ==== Sys2Proof/Syntax.lean ====
section
/-! DEFINITION. The operations and the line-level encodings of the opcode table (30_encoding.md R50 to R56), one constructor a row,
and the words they are issued as. -/

namespace Sys2Proof

/-- FuseLocation, "closed enumeration {Low, High, Extended, Lock}" (20_memory.md R40). -/
inductive FuseLocation
  | low
  | high
  | extended
  | lock
  deriving DecidableEq, Repr

/-- One constructor per row of `spec/opcode_table.json`. The first 22 are the operations of `OPW24` (R56). The
other 16 are the line-level encodings of `FRAME11`, `BSEL2` and `CMD8` (R51 to R54), each standing for the
line activity that puts it on the wires (log 18). -/
inductive Instr
  -- SignalController
  | quiesce
  | arm
  -- ProgrammingSequencer
  | enterProg
  | exitProg
  | loadCommand (c : Byte)
  | loadAddressLow (a : Byte)
  | loadData (d : Byte)
  | transmitByte (v : Byte)
  | receiveByte
  | bselSet (p1 p0 : Level)
  | bselClear
  | bs1High
  -- TimeoutMonitor and guard
  | tmArm (n : BitVec 16)
  | tmDisarm
  | tmTimedOut
  | wrGuard
  -- FuseEngine
  | identify
  | readFuse (loc : FuseLocation)
  | writeFuse (loc : FuseLocation) (value : Byte)
  | writeLock (value : Byte)
  | writeFuseDefaults (useBootloaderSet : Bool)
  | eraseDevice
  -- FRAME11
  | frameCommand (d : Byte)
  | frameAddressLow (d : Byte)
  | frameData (d : Byte)
  -- BSEL2, read table
  | bselRdLow
  | bselRdHigh
  | bselRdExtended
  | bselRdLock
  -- BSEL2, write table
  | bselWrLow
  | bselWrHigh
  | bselWrExtended
  | bselWrLock (u : Level)
  -- CMD8
  | cmdChipErase
  | cmdWriteFuse
  | cmdWriteLock
  | cmdReadSignature
  | cmdReadFuse
  deriving DecidableEq, Repr

/-- A word as it is issued: its format (R50) and its bits. `BSEL2` has one table for reads and one for writes, and
the lock selection stands apart from the fuse write table (R52, R53); the two bits alone do not say which
table is meant, so the format does (log 17). -/
inductive CodeWord
  | opw24 (w : Word24)
  | frame11 (w : BitVec 11)
  | bselRead (w : BitVec 2)
  | bselWriteFuse (w : BitVec 2)
  | bselWriteLock (w : BitVec 2)
  | cmd8 (w : Byte)
  deriving DecidableEq, Repr

end Sys2Proof
end

