-- ==== Sys2Proof/WellFormed.lean ====
section
/-! DEFINITION. Which terms of the syntax are instructions: the write table has no Lock row (30_encoding.md R53, R58, 90_conflicts.md C7). -/

namespace Sys2Proof

/-- The locations `WRITE_FUSE` accepts: those of the write table (R53, R58). -/
def FuseLocation.writable : FuseLocation → Bool
  | .low => true
  | .high => true
  | .extended => true
  | .lock => false

/-- Every term is an instruction but `WRITE_FUSE` with the location Lock (R58, C7). All other operands are
typed at the width the encoding gives them. -/
def Instr.wellFormed : Instr → Bool
  | .writeFuse loc _ => loc.writable
  | .quiesce => true
  | .arm => true
  | .enterProg => true
  | .exitProg => true
  | .loadCommand _ => true
  | .loadAddressLow _ => true
  | .loadData _ => true
  | .transmitByte _ => true
  | .receiveByte => true
  | .bselSet _ _ => true
  | .bselClear => true
  | .bs1High => true
  | .tmArm _ => true
  | .tmDisarm => true
  | .tmTimedOut => true
  | .wrGuard => true
  | .identify => true
  | .readFuse _ => true
  | .writeLock _ => true
  | .writeFuseDefaults _ => true
  | .eraseDevice => true
  | .frameCommand _ => true
  | .frameAddressLow _ => true
  | .frameData _ => true
  | .bselRdLow => true
  | .bselRdHigh => true
  | .bselRdExtended => true
  | .bselRdLock => true
  | .bselWrLow => true
  | .bselWrHigh => true
  | .bselWrExtended => true
  | .bselWrLock _ => true
  | .cmdChipErase => true
  | .cmdWriteFuse => true
  | .cmdWriteLock => true
  | .cmdReadSignature => true
  | .cmdReadFuse => true

end Sys2Proof
end

