-- ==== Sys2Proof/Decode.lean ====
section
/-! DEFINITION. The decoder, total on every issued word and rejecting by name (30_encoding.md R50 to R58), the encoder written
from the same tables, and the opcode table's numbering. -/

namespace Sys2Proof

/-- Why a word is no instruction. The first five are the illegal `OPW24` words of R58 (c). The last three, words of the
other formats outside their tables, are the model's: the spec says no treatment of them is needed (93 U10). DESIGN
CHOICE, safe: log 28. -/
inductive DecodeError
  | noSuchOperation
  | unusedOperandNotZero
  | reservedBitsNotZero
  | noSuchLocation
  | lockNotInWriteTable
  /-- A `FRAME11` tuple of R58 (a). DESIGN CHOICE: log 28. -/
  | noSuchFrame
  /-- A `BSEL2` pair of R58 (b), or a lock selection with `BS[1]` low. DESIGN CHOICE: log 28. -/
  | noSuchPair
  /-- A byte that is none of the five configured commands. DESIGN CHOICE: log 28. -/
  | noSuchCommand
  deriving DecidableEq, Repr

/-- Location codes: `Low` = 0, `High` = 1, `Extended` = 2, `Lock` = 3 (R55). -/
def FuseLocation.code : FuseLocation → Byte
  | .low => 0#8
  | .high => 1#8
  | .extended => 2#8
  | .lock => 3#8

/-- The location a code names, if any (R55, R58). -/
def FuseLocation.ofCode (a : Byte) : Option FuseLocation :=
  if a = 0#8 then some .low
  else if a = 1#8 then some .high
  else if a = 2#8 then some .extended
  else if a = 3#8 then some .lock
  else none

/-- `op[23:16] ++ a[15:8] ++ b[7:0]` (R50, R56). -/
def packOpw24 (op a b : Byte) : Word24 := (op ++ a ++ b : BitVec 24)

/-- `op`, bits 23 to 16 (R56). -/
def opField (w : Word24) : Byte := w.extractLsb' 16 8

/-- `a`, bits 15 to 8 (R56). -/
def aField (w : Word24) : Byte := w.extractLsb' 8 8

/-- `b`, bits 7 to 0 (R56). -/
def bField (w : Word24) : Byte := w.extractLsb' 0 8

/-- An operation that uses no operand: both must be zero (R56, R58). -/
def withoutOperand (i : Instr) (a b : Byte) : Except DecodeError Instr :=
  if a = 0#8 ∧ b = 0#8 then .ok i else .error .unusedOperandNotZero

/-- An operation whose operand is the byte `b`: `a` must be zero (R56, R58). -/
def withByte (f : Byte → Instr) (a b : Byte) : Except DecodeError Instr :=
  if a = 0#8 then .ok (f b) else .error .unusedOperandNotZero

/-- `BSEL_SET`: `b[1]` and `b[0]` are the levels, `b[7:2]` must be zero (R56, R58). -/
def withPair (a b : Byte) : Except DecodeError Instr :=
  if a ≠ 0#8 then .error .unusedOperandNotZero
  else if b.extractLsb' 2 6 ≠ 0#6 then .error .reservedBitsNotZero
  else .ok (.bselSet (b.getLsbD 1) (b.getLsbD 0))

/-- `WRITE_FUSE_DEFAULTS`: `b[0]` selects the set, `b[7:1]` must be zero (R56, R58). -/
def withSetBit (a b : Byte) : Except DecodeError Instr :=
  if a ≠ 0#8 then .error .unusedOperandNotZero
  else if b.extractLsb' 1 7 ≠ 0#7 then .error .reservedBitsNotZero
  else .ok (.writeFuseDefaults (b.getLsbD 0))

/-- `READ_FUSE`: `a` is a location code 0 to 3, `b` must be zero (R56, R58). -/
def withReadLocation (a b : Byte) : Except DecodeError Instr :=
  match FuseLocation.ofCode a with
  | none => .error .noSuchLocation
  | some loc => if b = 0#8 then .ok (.readFuse loc) else .error .unusedOperandNotZero

/-- `WRITE_FUSE`: `a` is a location code 0 to 2; 3 (`Lock`) is illegal (R56, R58, 90_conflicts.md C7). -/
def withWriteLocation (a b : Byte) : Except DecodeError Instr :=
  match FuseLocation.ofCode a with
  | none => .error .noSuchLocation
  | some loc => if loc.writable then .ok (.writeFuse loc b) else .error .lockNotInWriteTable

/-- The map of `OPW24` words (R56). -/
def decodeOpw24 (w : Word24) : Except DecodeError Instr :=
  let a := aField w
  let b := bField w
  match (opField w).toNat with
  | 0x01 => withoutOperand .quiesce a b
  | 0x02 => withoutOperand .arm a b
  | 0x10 => withoutOperand .enterProg a b
  | 0x11 => withoutOperand .exitProg a b
  | 0x12 => withByte .loadCommand a b
  | 0x13 => withByte .loadAddressLow a b
  | 0x14 => withByte .loadData a b
  | 0x15 => withByte .transmitByte a b
  | 0x16 => withoutOperand .receiveByte a b
  | 0x17 => withPair a b
  | 0x18 => withoutOperand .bselClear a b
  | 0x19 => withoutOperand .bs1High a b
  | 0x20 => .ok (.tmArm (a ++ b))
  | 0x21 => withoutOperand .tmDisarm a b
  | 0x22 => withoutOperand .tmTimedOut a b
  | 0x28 => withoutOperand .wrGuard a b
  | 0x30 => withoutOperand .identify a b
  | 0x31 => withReadLocation a b
  | 0x32 => withWriteLocation a b
  | 0x33 => withByte .writeLock a b
  | 0x34 => withSetBit a b
  | 0x35 => withoutOperand .eraseDevice a b
  | _ => .error .noSuchOperation

/-- `FRAME11`: `MS[1] MS[0] BS[1] D[7] ... D[0]` (R51); the other tuples are produced by no operation (R58 (a)) and are
refused here (log 28). -/
def decodeFrame11 (w : BitVec 11) : Except DecodeError Instr :=
  let d : Byte := w.extractLsb' 0 8
  match (w.extractLsb' 8 3).toNat with
  | 0b100 => .ok (.frameCommand d)
  | 0b000 => .ok (.frameAddressLow d)
  | 0b010 => .ok (.frameData d)
  | _ => .error .noSuchFrame

/-- `BSEL2`, read table, as (`BS[1]`, `BS[0]`) (R52). -/
def decodeBselRead (w : BitVec 2) : Except DecodeError Instr :=
  match w.toNat with
  | 0b00 => .ok .bselRdLow
  | 0b11 => .ok .bselRdHigh
  | 0b01 => .ok .bselRdExtended
  | 0b10 => .ok .bselRdLock
  | _ => .error .noSuchPair

/-- `BSEL2`, write table; the pair (1,1) is not in it (R53, R58 (b)) and is refused here (log 28). -/
def decodeBselWriteFuse (w : BitVec 2) : Except DecodeError Instr :=
  match w.toNat with
  | 0b00 => .ok .bselWrLow
  | 0b10 => .ok .bselWrHigh
  | 0b01 => .ok .bselWrExtended
  | _ => .error .noSuchPair

/-- The lock selection `1u`: `BS[1]` high, `BS[0]` unchanged (R53). -/
def decodeBselWriteLock (w : BitVec 2) : Except DecodeError Instr :=
  if w.getLsbD 1 then .ok (.bselWrLock (w.getLsbD 0)) else .error .noSuchPair

/-- `CMD8`: the command whose configured byte it is; the five are pairwise distinct (R8, R54). Any other byte is
refused here (log 28). -/
def decodeCmd8 (w : Byte) : Except DecodeError Instr :=
  if w = Config.params.cmdChipErase then .ok .cmdChipErase
  else if w = Config.params.cmdWriteFuse then .ok .cmdWriteFuse
  else if w = Config.params.cmdWriteLock then .ok .cmdWriteLock
  else if w = Config.params.cmdReadSignature then .ok .cmdReadSignature
  else if w = Config.params.cmdReadFuse then .ok .cmdReadFuse
  else .error .noSuchCommand

/-- The decoder: every format has a fixed length and no mode bit changes decoding (R50). -/
def decode : CodeWord → Except DecodeError Instr
  | .opw24 w => decodeOpw24 w
  | .frame11 w => decodeFrame11 w
  | .bselRead w => decodeBselRead w
  | .bselWriteFuse w => decodeBselWriteFuse w
  | .bselWriteLock w => decodeBselWriteLock w
  | .cmd8 w => decodeCmd8 w

/-- Two levels in the low bits of a byte, the first in bit 1 (R56, `BSEL_SET`). -/
def pairByte (p1 p0 : Level) : Byte := (0#6 ++ BitVec.ofBool p1 ++ BitVec.ofBool p0 : BitVec 8)

/-- The encoder, from the same tables (R51 to R56). -/
def encode : Instr → CodeWord
  | .quiesce => .opw24 (packOpw24 0x01#8 0#8 0#8)
  | .arm => .opw24 (packOpw24 0x02#8 0#8 0#8)
  | .enterProg => .opw24 (packOpw24 0x10#8 0#8 0#8)
  | .exitProg => .opw24 (packOpw24 0x11#8 0#8 0#8)
  | .loadCommand c => .opw24 (packOpw24 0x12#8 0#8 c)
  | .loadAddressLow a => .opw24 (packOpw24 0x13#8 0#8 a)
  | .loadData d => .opw24 (packOpw24 0x14#8 0#8 d)
  | .transmitByte v => .opw24 (packOpw24 0x15#8 0#8 v)
  | .receiveByte => .opw24 (packOpw24 0x16#8 0#8 0#8)
  | .bselSet p1 p0 => .opw24 (packOpw24 0x17#8 0#8 (pairByte p1 p0))
  | .bselClear => .opw24 (packOpw24 0x18#8 0#8 0#8)
  | .bs1High => .opw24 (packOpw24 0x19#8 0#8 0#8)
  | .tmArm n => .opw24 (packOpw24 0x20#8 (n.extractLsb' 8 8) (n.extractLsb' 0 8))
  | .tmDisarm => .opw24 (packOpw24 0x21#8 0#8 0#8)
  | .tmTimedOut => .opw24 (packOpw24 0x22#8 0#8 0#8)
  | .wrGuard => .opw24 (packOpw24 0x28#8 0#8 0#8)
  | .identify => .opw24 (packOpw24 0x30#8 0#8 0#8)
  | .readFuse loc => .opw24 (packOpw24 0x31#8 loc.code 0#8)
  | .writeFuse loc value => .opw24 (packOpw24 0x32#8 loc.code value)
  | .writeLock value => .opw24 (packOpw24 0x33#8 0#8 value)
  | .writeFuseDefaults u => .opw24 (packOpw24 0x34#8 0#8 (pairByte false u))
  | .eraseDevice => .opw24 (packOpw24 0x35#8 0#8 0#8)
  | .frameCommand d => .frame11 (0b100#3 ++ d : BitVec 11)
  | .frameAddressLow d => .frame11 (0b000#3 ++ d : BitVec 11)
  | .frameData d => .frame11 (0b010#3 ++ d : BitVec 11)
  | .bselRdLow => .bselRead 0b00#2
  | .bselRdHigh => .bselRead 0b11#2
  | .bselRdExtended => .bselRead 0b01#2
  | .bselRdLock => .bselRead 0b10#2
  | .bselWrLow => .bselWriteFuse 0b00#2
  | .bselWrHigh => .bselWriteFuse 0b10#2
  | .bselWrExtended => .bselWriteFuse 0b01#2
  | .bselWrLock u => .bselWriteLock (1#1 ++ BitVec.ofBool u : BitVec 2)
  | .cmdChipErase => .cmd8 Config.params.cmdChipErase
  | .cmdWriteFuse => .cmd8 Config.params.cmdWriteFuse
  | .cmdWriteLock => .cmd8 Config.params.cmdWriteLock
  | .cmdReadSignature => .cmd8 Config.params.cmdReadSignature
  | .cmdReadFuse => .cmd8 Config.params.cmdReadFuse

/-- A row of the `OPW24` part of the opcode table: a word belongs to it when `w &&& mask = bits`. -/
structure OpRow where
  mnemonic : String
  bits : Word24
  mask : Word24
  deriving DecidableEq, Repr

/-- Whether a word matches a row's pattern. -/
def OpRow.covers (r : OpRow) (w : Word24) : Bool := w &&& r.mask == r.bits

/-- The 22 operation rows of `spec/opcode_table.json`, `match` and `mask` as it writes them. -/
def opw24Rows : List OpRow := [
  ⟨"QUIESCE", 0x010000#24, 0xFFFFFF#24⟩,
  ⟨"ARM", 0x020000#24, 0xFFFFFF#24⟩,
  ⟨"ENTER_PROG", 0x100000#24, 0xFFFFFF#24⟩,
  ⟨"EXIT_PROG", 0x110000#24, 0xFFFFFF#24⟩,
  ⟨"LOAD_COMMAND", 0x120000#24, 0xFFFF00#24⟩,
  ⟨"LOAD_ADDRESS_LOW", 0x130000#24, 0xFFFF00#24⟩,
  ⟨"LOAD_DATA", 0x140000#24, 0xFFFF00#24⟩,
  ⟨"TRANSMIT_BYTE", 0x150000#24, 0xFFFF00#24⟩,
  ⟨"RECEIVE_BYTE", 0x160000#24, 0xFFFFFF#24⟩,
  ⟨"BSEL_SET", 0x170000#24, 0xFFFFFC#24⟩,
  ⟨"BSEL_CLEAR", 0x180000#24, 0xFFFFFF#24⟩,
  ⟨"BS1_HIGH", 0x190000#24, 0xFFFFFF#24⟩,
  ⟨"TM_ARM", 0x200000#24, 0xFF0000#24⟩,
  ⟨"TM_DISARM", 0x210000#24, 0xFFFFFF#24⟩,
  ⟨"TM_TIMED_OUT", 0x220000#24, 0xFFFFFF#24⟩,
  ⟨"WR_GUARD", 0x280000#24, 0xFFFFFF#24⟩,
  ⟨"IDENTIFY", 0x300000#24, 0xFFFFFF#24⟩,
  ⟨"READ_FUSE", 0x310000#24, 0xFFFCFF#24⟩,
  ⟨"WRITE_FUSE", 0x320000#24, 0xFFFC00#24⟩,
  ⟨"WRITE_LOCK", 0x330000#24, 0xFFFF00#24⟩,
  ⟨"WRITE_FUSE_DEFAULTS", 0x340000#24, 0xFFFFFE#24⟩,
  ⟨"ERASE_DEVICE", 0x350000#24, 0xFFFFFF#24⟩]

/-- The `CMD8` row whose number the opcode table prints so. The numbers are the defaults of R54; here they only name
rows, and nothing is said of the byte a row has in this programmer's configuration (log 19). -/
def printedCommand (nbits w : Nat) : Option Instr :=
  if nbits = 8 then
    match w with
    | 0x80 => some .cmdChipErase
    | 0x40 => some .cmdWriteFuse
    | 0x20 => some .cmdWriteLock
    | 0x08 => some .cmdReadSignature
    | 0x04 => some .cmdReadFuse
    | _ => none
  else none

/-- The issued word a number stands for when the opcode table gives its row `nbits` bits in whole bytes: 24 for
`OPW24`, 16 for `FRAME11`'s 11, 8 for `BSEL2`'s 2 and for `CMD8`. Of the 8-bit numbers the five the table prints for
`CMD8` stand for the configured byte of their row, and those below 4 for `BSEL2` pairs of the read table (log 17, 19). -/
def tableWord (nbits w : Nat) : Option CodeWord :=
  match printedCommand nbits w with
  | some i => some (encode i)
  | none =>
    if nbits = 24 then
      if w < 2 ^ 24 then some (.opw24 (BitVec.ofNat 24 w)) else none
    else if nbits = 16 ∨ nbits = 11 then
      if w < 2 ^ 11 then some (.frame11 (BitVec.ofNat 11 w)) else none
    else if nbits = 8 ∨ nbits = 2 then
      if w < 4 then some (.bselRead (BitVec.ofNat 2 w)) else none
    else none

/-- The instruction the decoder reads from a word numbered as the opcode table numbers it. A printed command is
answered by its row, which needs no configured byte; `decodeTableWord_eq` shows that it is the decoder's answer too. -/
def decodeTableWord (nbits w : Nat) : Option Instr :=
  match printedCommand nbits w with
  | some i => some i
  | none =>
    match tableWord nbits w with
    | none => none
    | some c => (decode c).toOption

end Sys2Proof
end

