-- ==== Sys2Proof/Machine/State.lean ====
section
/-! DEFINITION. The state of the machine, its value at reset, and the reasons a step can stop (10_state.md; 60_exceptions.md R120;
70_reset_and_hazards.md R140). -/

namespace Sys2Proof.Machine

open Config (DeviceDescriptor)

/-- `ENG.STATE` (R26, R130). `idle` is named by the source and entered by no transition (93 U15). -/
inductive EngState
  | idle
  | awaitingDeviceId
  | deviceKnown
  | deviceUnknown
  deriving DecidableEq, Repr

/-- What `WR_GUARD` returns (R93). -/
inductive GuardResult
  | ready
  | timedOut
  deriving DecidableEq, Repr

/-- Why an operation is refused; a result the host reads, after which the machine goes on (R121, R58; log 10). -/
inductive RefusalReason
  | unknownDevice
  | illegalOperation
  deriving DecidableEq, Repr

/-- What `WRITE_FUSE_DEFAULTS` returns (R115). -/
inductive DefaultsStatus
  | ok
  | writeTimeout (loc : FuseLocation)
  | verifyMismatch (loc : FuseLocation) (readBack : Byte)
  deriving DecidableEq, Repr

/-- What the last operation returned to the host (R10, R59). The model's own register: log 25. -/
inductive OpResult
  | nothingYet
  | done
  | byte (b : Byte)
  | flag (b : Bool)
  | guard (g : GuardResult)
  | identified (signature : Word24) (entry : Option DeviceDescriptor)
  | defaults (st : DefaultsStatus)
  | refused (e : RefusalReason)
  deriving DecidableEq, Repr

/-- A position of the sequencer: the operation being performed and the index of its next micro-step (R27). -/
structure SeqPos where
  op : Instr
  index : Nat
  deriving DecidableEq, Repr

/-- Where the startup program stands (R142). -/
inductive Startup
  | sampleModeInput
  | quiesce
  | identify
  | ended
  deriving DecidableEq, Repr

/-- Everything the spec gives the machine (10_state.md), and the model's own fields, which say so. -/
structure State where
  /-- `DIR[l]`, by `PLine.slot` (R14). -/
  dir : Vector Dir 16
  /-- `LVL[l]`, by `Line.slot` (R15, R16). -/
  lvl : Vector Latch 18
  /-- `RX` (R18). -/
  rx : Byte
  /-- `ACC` (R19). -/
  acc : Word24
  /-- `ATT` (R20). -/
  att : Nat
  /-- `RB` (R21). -/
  rb : Byte
  /-- `TM.FLAG` (R22). -/
  tmFlag : Bool
  /-- `TM.RUN` (R23). -/
  tmRun : Bool
  /-- `TM.DEADLINE`, milliseconds (R24). -/
  tmDeadline : BitVec 16
  /-- The model's own: how many points at which the countdown may fire pass before it does (R94, R96; log 6). -/
  fireIn : Nat
  /-- `SESSION` (R25). -/
  session : Bool
  /-- `ENG.STATE` (R26). -/
  engState : EngState
  /-- `SEL`: `none` is `unknown`, otherwise the registry entry (R26; log 12). -/
  sel : Option DeviceDescriptor
  /-- `SEQ` (R27; log 4). -/
  seq : Option SeqPos
  /-- `TR`, oldest event first (R28). -/
  tr : List Event
  /-- The external mode-select input: true selects this engine (R132, R141; log 15). -/
  modeInput : Bool
  /-- The position in the startup program (R142; log 16). -/
  startup : Startup
  /-- The model's own: the words the host has issued and the sequencer has not begun, first first (R13(4); log 16). -/
  issue : List CodeWord
  /-- The model's own: what the last operation returned (log 25). -/
  result : OpResult
  deriving DecidableEq, Repr

/-- Immediately after reset, before the startup program (R31, R140). The values of `dir`, `lvl` (log 1), `rx`, `acc`,
`att`, `rb`, `tmDeadline` (log 2) and of the model's own fields (log 3) are DESIGN CHOICES; `modeInput` is the
premise of the whole spec (R8; log 15). -/
def State.reset : State where
  dir := Vector.replicate 16 .unset
  lvl := Vector.replicate 18 none
  rx := 0#8
  acc := 0#24
  att := 0
  rb := 0#8
  tmFlag := false
  tmRun := false
  tmDeadline := 0#16
  fireIn := 0
  session := false
  engState := .awaitingDeviceId
  sel := none
  seq := none
  tr := []
  modeInput := true
  startup := .sampleModeInput
  issue := []
  result := .nothingYet

/-- The model faults (R120, R124): the run ends at the faulting micro-step. Each carries the state it leaves, whose
`TR` and `SEQ` say how far the operation came (log 11). -/
inductive Fault
  /-- Code 16. Raised by `SET` on a protocol line that is not an output and by `SMP` on a protocol line that is
  not an input (R61, R63). Safe: the real programmer goes on, undefined. -/
  | lineDirection (l : Line) (left : State)
  /-- Code 17. Raised by `ENTER_PROG` while `SESSION` is true (R70). Safe: the real programmer does not check. -/
  | sessionActive (left : State)
  /-- Raised by `step` in the state a fault left: a fault "is never cleared" (R124). Safe: no run continues there. -/
  | halted (left : State)
  deriving DecidableEq, Repr

/-- Why there is no step at all. -/
inductive Refusal
  /-- Raised by no arm of this model: every constructor has its meaning. Safe. -/
  | notModelled (mnemonic : String)
  /-- Raised by `step` when the startup program samples a mode input that selects the in-system-programming
  protocol: the spec's model is stuck before `STARTUP` (R141, 93 U16; log 15). Safe. -/
  | otherModeSelected
  deriving DecidableEq, Repr

end Sys2Proof.Machine
end

