-- ==== Sys2Proof/Machine/Flags.lean ====
section
/-! DEFINITION. The TimeoutMonitor's bits, the countdown's step, and the statuses and failure codes read from the flag
(42_timeout_guard.md R90 to R95; 43_engine_operations.md R113; 60_exceptions.md R120). -/

namespace Sys2Proof.Machine

/-- `TM_FIRE`: the flag becomes true, the countdown stops, one event; nothing else is touched (R94). -/
def State.tmFire (s : State) : State :=
  { s with tmFlag := true, tmRun := false, tr := s.tr ++ [.tmFire] }

/-- Whether the countdown fires at this point: it is running and its free delay has passed (R94, R96; log 6). -/
def State.fires (s : State) : Bool := s.tmRun && s.fireIn == 0

/-- A point between two micro-steps, where the countdown may fire (R94, log 7). It is `tmFire` when `fires`
holds and otherwise only counts the free delay down; written field by field, so that the fields it leaves
alone are seen to be left alone. -/
def State.countdown (s : State) : State :=
  { s with
    tmFlag := s.tmFlag || s.fires
    tmRun := s.tmRun && !s.fires
    fireIn := if s.tmRun then s.fireIn - 1 else s.fireIn
    tr := if s.fires then s.tr ++ [.tmFire] else s.tr }

/-- The bits of `TM_ARM(n)`: the flag cleared, the deadline taken, the one countdown started afresh (R90). -/
def State.armTimer (W : World) (n : BitVec 16) (s : State) : State :=
  { s with tmFlag := false, tmDeadline := n, tmRun := true, fireIn := W.fireDelay s.tr }

/-- The bit of `TM_DISARM`: the countdown stops, the flag keeps its value (R91). -/
def State.disarmTimer (s : State) : State := { s with tmRun := false }

/-- The result of a guard from the flag read in its last poll (R95). -/
def guardResult (flag : Bool) : GuardResult := if flag then .timedOut else .ready

/-- The status of a write (R113). -/
inductive WriteStatus
  | ok
  | writeTimeout
  | verifyMismatch (readBack : Byte)
  deriving DecidableEq, Repr

/-- The caller's status of `WRITE_FUSE` and `WRITE_LOCK`: the timeout first, then the mismatch (R113, R127 (c)). -/
def writeStatus (value readBack : Byte) (flag : Bool) : WriteStatus :=
  if flag then .writeTimeout
  else if readBack ≠ value then .verifyMismatch readBack
  else .ok

/-- The failures of R120. `invalidInput` is the console's and never raised here (R125). -/
inductive Failure
  | unknownDevice
  | writeTimeout
  | verifyMismatch
  | invalidInput
  | illegalOperation
  | lineDirectionFault
  | sessionFault
  deriving DecidableEq, Repr

/-- The codes of R120. -/
def Failure.code : Failure → Nat
  | .unknownDevice => 1
  | .writeTimeout => 2
  | .verifyMismatch => 3
  | .invalidInput => 4
  | .illegalOperation => 5
  | .lineDirectionFault => 16
  | .sessionFault => 17

/-- The failure of a refusal (R120). -/
def RefusalReason.failure : RefusalReason → Failure
  | .unknownDevice => .unknownDevice
  | .illegalOperation => .illegalOperation

/-- The failure of a write's status (R120). -/
def WriteStatus.failure : WriteStatus → Option Failure
  | .ok => none
  | .writeTimeout => some .writeTimeout
  | .verifyMismatch _ => some .verifyMismatch

/-- The failure of `WRITE_FUSE_DEFAULTS`' status (R120). -/
def DefaultsStatus.failure : DefaultsStatus → Option Failure
  | .ok => none
  | .writeTimeout _ => some .writeTimeout
  | .verifyMismatch _ _ => some .verifyMismatch

/-- The model fault's entry in R120, with its code; `halted` repeats the fault that stopped the run. -/
def Fault.failure : Fault → Option Failure
  | .lineDirection _ _ => some .lineDirectionFault
  | .sessionActive _ => some .sessionFault
  | .halted _ => none

/-- The failure the host reads after an operation, from the result and, for a write, the flag (R113, R120, R122,
R123). A `TimedOut` guard is a `WriteTimeout` of `ERASE_DEVICE`, and of the write it belongs to. -/
def reportedFailure (i : Instr) (s : State) : Option Failure :=
  match s.result with
  | .refused e => some e.failure
  | .defaults st => st.failure
  | .guard .timedOut => if i = .eraseDevice then some .writeTimeout else none
  | .byte b =>
    match i with
    | .writeFuse _ value => (writeStatus value b s.tmFlag).failure
    | .writeLock value => (writeStatus value b s.tmFlag).failure
    | _ => none
  | _ => none

end Sys2Proof.Machine
end

