-- ==== Sys2Proof/Machine/Operands.lean ====
section
/-! DEFINITION. Operand forms: the bits of a byte on the data lines, the mode tuples, the byte-select tables, the signature fold, the
registry lookup (30_encoding.md R51 to R57, 43_engine_operations.md R110). -/

namespace Sys2Proof.Machine

open Config (DeviceDescriptor FuseSet)

/-- `x[i]`: the level bit `i` of a byte puts on `D[i]` (R9, R43, R57 (b)). -/
def bitLevel (x : Byte) (i : Fin 8) : Level := x.getLsbD i.val

/-- `x` with bit `i` made `v`, the assembly of a received byte (R57 (d), R76). -/
def writeBit (x : Byte) (i : Fin 8) (v : Level) : Byte :=
  if v then x ||| (1#8 <<< i.val) else x &&& ~~~(1#8 <<< i.val)

/-- `TupleSel(m1, m0, b1)`: three `SET`s in that order (R10, R72). -/
def tupleSel (m1 m0 b1 : Level) : List MicroStep :=
  [.set (.protocol .ms1) m1, .set (.protocol .ms0) m0, .set (.protocol .bs1) b1]

/-- The byte-select pair (`BS[1]`, `BS[0]`) of the read table (R52). -/
def readPair : FuseLocation → Level × Level
  | .low => (false, false)
  | .high => (true, true)
  | .extended => (false, true)
  | .lock => (true, false)

/-- The byte-select pair (`BS[1]`, `BS[0]`) of the write table, which has no Lock row (R53). -/
def writePair : FuseLocation → Option (Level × Level)
  | .low => some (false, false)
  | .high => some (true, false)
  | .extended => some (false, true)
  | .lock => none

/-- `ACC <- ((ACC << 8) | zext_24(b)) mod 2^24` (R19, R110). -/
def foldSignature (acc : Word24) (b : Byte) : Word24 := (acc <<< 8) ||| b.zeroExtend 24

/-- `Lookup(sig)`: the first registry entry whose signature equals `sig` (R10, R110). -/
def lookup (registry : List DeviceDescriptor) (signature : Word24) : Option DeviceDescriptor :=
  registry.find? (fun d => d.signature == signature)

/-- The set `WRITE_FUSE_DEFAULTS` writes (R115). -/
def defaultSet (d : DeviceDescriptor) (useBootloaderSet : Bool) : FuseSet :=
  if useBootloaderSet then d.bootloaderFuse else d.defaultFuse

/-- The fixed order Low, High, Extended with the byte of each (R115). -/
def defaultWrites (t : FuseSet) : List (FuseLocation × Byte) :=
  [(.low, t.low), (.high, t.high), (.extended, t.extended)]

end Sys2Proof.Machine
end

