-- ==== Sys2Proof/Machine/Ops.lean ====
section
/-! DEFINITION. The named operations over the lines and the trace: the five line primitives, straight-line programs, sampling,
beginning and ending an operation, refusing (40_signal_controller.md R60 to R64; 60_exceptions.md R121, R124, R128). -/

namespace Sys2Proof.Machine

/-! ### Reading the lines -/

/-- `DIR[l]` (R14). -/
def State.dirOf (s : State) (l : PLine) : Dir := s.dir[l.slot]

/-- `LVL[l]` (R15). -/
def State.lvlOf (s : State) (l : Line) : Latch := s.lvl[l.slot]

/-- `wire(l)`: the level the block puts on a line, or `none` where it drives nothing and the environment
decides (R17; log 22). -/
def State.wire (s : State) : Line → Latch
  | .protocol l => if s.dirOf l = .output then s.lvlOf (.protocol l) else none
  | .vccEn => s.lvlOf .vccEn
  | .vppEn => s.lvlOf .vppEn

/-- Whether `SET` may be applied: a power-enable line, or a protocol line that is an output (R61). -/
def State.canSet (s : State) : Line → Bool
  | .protocol l => s.dirOf l == .output
  | .vccEn => true
  | .vppEn => true

/-- The byte the block drives on `D[7..0]`, bit `i` from line `i`, when all eight are driven (R43). -/
def State.drivenByte (s : State) : Option Byte := do
  let d0 ← s.wire (.protocol (.d 0))
  let d1 ← s.wire (.protocol (.d 1))
  let d2 ← s.wire (.protocol (.d 2))
  let d3 ← s.wire (.protocol (.d 3))
  let d4 ← s.wire (.protocol (.d 4))
  let d5 ← s.wire (.protocol (.d 5))
  let d6 ← s.wire (.protocol (.d 6))
  let d7 ← s.wire (.protocol (.d 7))
  pure (BitVec.ofBool d7 ++ BitVec.ofBool d6 ++ BitVec.ofBool d5 ++ BitVec.ofBool d4 ++
    BitVec.ofBool d3 ++ BitVec.ofBool d2 ++ BitVec.ofBool d1 ++ BitVec.ofBool d0 : BitVec 8)

/-- `FRAME11` as it stands on the wires: `MS[1] MS[0] BS[1] D[7] ... D[0]`, when all eleven are driven (R51). -/
def State.frame (s : State) : Option (BitVec 11) := do
  let m1 ← s.wire (.protocol .ms1)
  let m0 ← s.wire (.protocol .ms0)
  let b1 ← s.wire (.protocol .bs1)
  let d ← s.drivenByte
  pure (BitVec.ofBool m1 ++ BitVec.ofBool m0 ++ BitVec.ofBool b1 ++ d : BitVec 11)

/-- `BSEL2` as it stands on the wires: `BS[1] BS[0]` (R50). -/
def State.byteSelect (s : State) : Option (BitVec 2) := do
  let b1 ← s.wire (.protocol .bs1)
  let b0 ← s.wire (.protocol .bs0)
  pure (BitVec.ofBool b1 ++ BitVec.ofBool b0 : BitVec 2)

/-! ### Writing the lines -/

/-- `LVL[l] <- v` (R61). -/
def State.level (l : Line) (v : Latch) (s : State) : State :=
  { s with lvl := s.lvl.set l.slot.val v l.slot.isLt }

/-- `DIR[l] <- Out; LVL[l] <- v`: the effect of `DRV`, of which only the final level is recorded (R60; log 9). -/
def State.drive (l : PLine) (v : Level) (s : State) : State :=
  { s with
    dir := s.dir.set l.slot.val .output l.slot.isLt
    lvl := s.lvl.set (Line.protocol l).slot.val (some v) (Line.protocol l).slot.isLt }

/-- `DIR[l] <- In; LVL[l] <- ⊥`: the effect of `REL` (R62). -/
def State.release (l : PLine) (s : State) : State :=
  { s with
    dir := s.dir.set l.slot.val .input l.slot.isLt
    lvl := s.lvl.set (Line.protocol l).slot.val none (Line.protocol l).slot.isLt }

/-- A micro-step done: its one event joins the trace and the sequencer moves to the next (R10, R27, R28). -/
def State.did (e : Event) (s : State) : State :=
  { s with tr := s.tr ++ [e], seq := s.seq.map (fun p => { p with index := p.index + 1 }) }

/-! ### Micro-steps -/

/-- One micro-step of the sequencer, after a point at which the countdown may fire (R47, R94): `DRV`, `SET` with its
precondition, `REL`, `DLY`, `TM_ARM`, `TM_DISARM` (R60 to R64, R90, R91). -/
def microStep (W : World) (m : MicroStep) (s : State) : Except Fault State :=
  let c := s.countdown
  match m with
  | .drv l v => .ok ((c.drive l v).did (.drv l v))
  | .set l v => if c.canSet l then .ok ((c.level l (some v)).did (.set l v)) else .error (.lineDirection l c)
  | .rel l => .ok ((c.release l).did (.rel l))
  | .dly p => .ok (c.did (.dly p))
  | .tmArm n => .ok ((c.did (.tmArm n)).armTimer W n)
  | .tmDisarm => .ok (c.disarmTimer.did .tmDisarm)

/-- Micro-steps one after another, to the first fault (R27, R47). -/
def runSteps (W : World) : List MicroStep → State → Except Fault State
  | [], s => .ok s
  | m :: ms, s => do
    let s ← microStep W m s
    runSteps W ms s

/-- `SMP(l)`: on a line that is an input, the environment's answer to the history (R63). -/
def sample (W : World) (l : PLine) (s : State) : Except Fault (Level × State) :=
  let c := s.countdown
  if c.dirOf l = .input then
    let v := W.answer c.tr l
    .ok (v, c.did (.smp l v))
  else .error (.lineDirection (.protocol l) c)

/-! ### Operations -/

/-- An operation begins: the sequencer stands before its first micro-step (R27). -/
def State.begin (i : Instr) (s : State) : State := { s with seq := some { op := i, index := 0 } }

/-- An operation ends with a result: the sequencer performs nothing (R27, `return v` of R10). -/
def State.finish (r : OpResult) (s : State) : State := { s with seq := none, result := r }

/-- `refuse E`: the operation returns at once with the refusal and nothing else changes (R10, R121; log 10). The
machine's one way of turning an operation away. -/
def State.refuse (e : RefusalReason) (s : State) : State := { s with result := .refused e }

/-- An operation performed to its end (R105): its program run from the first micro-step, then its result; or the
fault that stopped it (R124). -/
def perform (i : Instr) (program : State → Except Fault (OpResult × State)) (s : State) :
    Host.Outcome State Fault Refusal :=
  match program (s.begin i) with
  | .ok (r, t) => .next (t.finish r)
  | .error f => .fault f

/-- A program without a result (R67). -/
def returning (r : OpResult) (program : State → Except Fault State) (s : State) :
    Except Fault (OpResult × State) := do
  let s ← program s
  return (r, s)

/-- The gate of the five fuse, lock and erase operations: performed only in `DeviceKnown`, otherwise refused
with `UnknownDevice` (R106). -/
def gated (i : Instr) (program : State → Except Fault (OpResult × State)) (s : State) :
    Host.Outcome State Fault Refusal :=
  if s.engState = .deviceKnown then perform i program s else .next (s.refuse .unknownDevice)

end Sys2Proof.Machine
end

