-- ==== Sys2Proof/Machine/SignalController.lean ====
section
/-! DEFINITION. The GPIO sequencer's two operations, `QUIESCE` and `ARM` (40_signal_controller.md R65 to R67). -/

namespace Sys2Proof.Machine

/-- The 18 micro-steps of `QUIESCE`, power first, in the canonical order (R65; log 8). -/
def quiesceSteps : List MicroStep := [
  .set .vccEn false, .set .vppEn false,
  .rel .rdy, .rel .oe, .rel .wr,
  .rel .bs1, .rel .bs0, .rel .ms1, .rel .ms0,
  .rel .clk,
  .rel (.d 0), .rel (.d 1), .rel (.d 2), .rel (.d 3), .rel (.d 4), .rel (.d 5), .rel (.d 6), .rel (.d 7)]

/-- `QUIESCE`: the lines, then `SESSION <- false`; the monitor is not touched (R65). -/
def quiesceLines (W : World) (s : State) : Except Fault State := do
  let s ← runSteps W quiesceSteps s
  return { s with session := false }

/-- The 8 micro-steps of `ARM`, in the canonical order (R66; log 8). -/
def armSteps : List MicroStep := [
  .drv .wr true, .drv .oe true,
  .drv .ms1 false, .drv .ms0 false, .drv .bs1 false, .drv .bs0 false,
  .drv .clk false,
  .drv .rdy false]

/-- `QUIESCE` (R65). -/
def execQuiesce (s : State) : Host.Outcome State Fault Refusal :=
  perform .quiesce (returning .done (quiesceLines Config.world)) s

/-- `ARM` (R66). -/
def execArm (s : State) : Host.Outcome State Fault Refusal :=
  perform .arm (returning .done (runSteps Config.world armSteps)) s

end Sys2Proof.Machine
end

