-- ==== Sys2Proof/Machine/ByteFramer.lean ====
section
/-! DEFINITION. The byte framer: session entry and exit, framing, transmitting and receiving a byte, the byte-select steps
(41_sequencer_framer.md R70 to R82). -/

namespace Sys2Proof.Machine

/-! ### Session entry and exit -/

/-- The micro-steps of `ENTER_PROG` after its `ARM`: supply, elevated voltage, then the busy/ready line released,
each followed by its wait (R70). -/
def powerUpSteps : List MicroStep := [
  .set .vccEn true, .dly .enter1,
  .set .vppEn true, .dly .enter2,
  .rel .rdy, .dly .enter3]

/-- `ENTER_PROG`: a session already active is a model fault before any line event (R70, R145). -/
def enterProg (W : World) (s : State) : Except Fault State :=
  if s.session then .error (.sessionActive s)
  else do
    let s ← runSteps W (armSteps ++ powerUpSteps) s
    return { s with session := true }

/-- `EXIT_PROG`, "equivalent to `quiesce()`" (R71). -/
def exitProg (W : World) (s : State) : Except Fault State := quiesceLines W s

/-! ### Framing -/

/-- The 12 micro-steps of `TRANSMIT_BYTE(x)`: bit i on `D[i]`, then the clock pulse (R75). -/
def transmitSteps (x : Byte) : List MicroStep := [
  .drv (.d 0) (bitLevel x 0), .drv (.d 1) (bitLevel x 1), .drv (.d 2) (bitLevel x 2), .drv (.d 3) (bitLevel x 3),
  .drv (.d 4) (bitLevel x 4), .drv (.d 5) (bitLevel x 5), .drv (.d 6) (bitLevel x 6), .drv (.d 7) (bitLevel x 7),
  .set (.protocol .clk) true, .dly .clkHi,
  .set (.protocol .clk) false, .dly .clkLo]

/-- `LOAD_COMMAND(c)`: the tuple (1,0,0), then the byte (R73). -/
def commandSteps (c : Byte) : List MicroStep := tupleSel true false false ++ transmitSteps c

/-- `LOAD_ADDRESS_LOW(a)`: the tuple (0,0,0), then the byte (R74). -/
def addressSteps (a : Byte) : List MicroStep := tupleSel false false false ++ transmitSteps a

/-- `LOAD_DATA(d)`: the tuple (0,1,0), then the byte (R80). -/
def dataSteps (d : Byte) : List MicroStep := tupleSel false true false ++ transmitSteps d

/-- Release each line and sample it at once, placing the sample in its bit of `RX` (R76). -/
def sampleBits (W : World) : List (Fin 8) → State → Except Fault State
  | [], s => .ok s
  | i :: rest, s => do
    let s ← microStep W (.rel (.d i)) s
    let (v, s) ← sample W (.d i) s
    sampleBits W rest { s with rx := writeBit s.rx i v }

/-- "bit positions 7 down to 0": the sourced order of `RECEIVE_BYTE` (R76). -/
def receiveOrder : List (Fin 8) := [7, 6, 5, 4, 3, 2, 1, 0]

/-- `RECEIVE_BYTE`: the byte is left in `RX` (R76). -/
def receiveByte (W : World) (s : State) : Except Fault State := do
  let s ← microStep W (.set (.protocol .oe) false) s
  let s ← sampleBits W receiveOrder { s with rx := 0#8 }
  runSteps W [.set (.protocol .oe) true, .dly .oeSettle] s

/-! ### Byte-select steps -/

/-- `BSEL_SET(p1, p0)` (R77). -/
def bselSetSteps (p1 p0 : Level) : List MicroStep :=
  [.set (.protocol .bs1) p1, .set (.protocol .bs0) p0]

/-- `BSEL_CLEAR` (R78). -/
def bselClearSteps : List MicroStep :=
  [.set (.protocol .bs1) false, .set (.protocol .bs0) false]

/-- `BS1_HIGH`: line 0 is not written (R79). -/
def bs1HighSteps : List MicroStep := [.set (.protocol .bs1) true]

/-! ### Meanings -/

/-- `ENTER_PROG` (R70). -/
def execEnterProg (s : State) : Host.Outcome State Fault Refusal :=
  perform .enterProg (returning .done (enterProg Config.world)) s

/-- `EXIT_PROG` (R71). -/
def execExitProg (s : State) : Host.Outcome State Fault Refusal :=
  perform .exitProg (returning .done (exitProg Config.world)) s

/-- `LOAD_COMMAND` (R73). -/
def execLoadCommand (c : Byte) (s : State) : Host.Outcome State Fault Refusal :=
  perform (.loadCommand c) (returning .done (runSteps Config.world (commandSteps c))) s

/-- `LOAD_ADDRESS_LOW` (R74). -/
def execLoadAddressLow (a : Byte) (s : State) : Host.Outcome State Fault Refusal :=
  perform (.loadAddressLow a) (returning .done (runSteps Config.world (addressSteps a))) s

/-- `LOAD_DATA` (R80). -/
def execLoadData (d : Byte) (s : State) : Host.Outcome State Fault Refusal :=
  perform (.loadData d) (returning .done (runSteps Config.world (dataSteps d))) s

/-- `TRANSMIT_BYTE` (R75). -/
def execTransmitByte (v : Byte) (s : State) : Host.Outcome State Fault Refusal :=
  perform (.transmitByte v) (returning .done (runSteps Config.world (transmitSteps v))) s

/-- `RECEIVE_BYTE`, returning `RX` (R76). -/
def execReceiveByte (s : State) : Host.Outcome State Fault Refusal :=
  perform .receiveByte
    (fun s => do
      let s ← receiveByte Config.world s
      return (.byte s.rx, s)) s

/-- `BSEL_SET` (R77). -/
def execBselSet (p1 p0 : Level) (s : State) : Host.Outcome State Fault Refusal :=
  perform (.bselSet p1 p0) (returning .done (runSteps Config.world (bselSetSteps p1 p0))) s

/-- `BSEL_CLEAR` (R78). -/
def execBselClear (s : State) : Host.Outcome State Fault Refusal :=
  perform .bselClear (returning .done (runSteps Config.world bselClearSteps)) s

/-- `BS1_HIGH` (R79). -/
def execBs1High (s : State) : Host.Outcome State Fault Refusal :=
  perform .bs1High (returning .done (runSteps Config.world bs1HighSteps)) s

end Sys2Proof.Machine
end

