-- ==== Sys2Proof/Machine/TimeoutGuard.lean ====
section
/-! DEFINITION. The TimeoutMonitor's three operations and the write-strobe guard (42_timeout_guard.md R90 to R100). -/

namespace Sys2Proof.Machine

/-- The micro-steps of `WR_GUARD` before its polls: arm for 200 ms, the commit pulse, the settle (R93). -/
def commitSteps : List MicroStep := [
  .tmArm Config.guardDeadlineMs,
  .set (.protocol .wr) false,
  .set (.protocol .wr) true,
  .dly .wrSettle]

/-- The event of one poll's `SMP(RDY)` (R93). -/
def State.polled (r : Level) (s : State) : State := s.did (.smp .rdy r)

/-- The poll loop. One iteration is one poll, indivisible with respect to `TM_FIRE`: the flag is read, `RDY` is
sampled, and if either holds the monitor is disarmed and the loop ends; the flag has priority (R93, R95; log 7).
`n` bounds the further polls; `poll_loop_ends_by_flag_or_ready` shows that it never cuts a loop short
(R96; log 23). -/
def pollLoop (W : World) (n : Nat) (s : State) : GuardResult × State :=
  let c := s.countdown
  let r := W.answer c.tr .rdy
  let p := c.polled r
  if c.tmFlag || r == W.params.rdyReadyLevel then
    (guardResult c.tmFlag, p.disarmTimer.did .tmDisarm)
  else
    match n with
    | 0 => (guardResult c.tmFlag, p.disarmTimer.did .tmDisarm)
    | n + 1 => pollLoop W n p

/-- `WR_GUARD`: `RDY` must be an input when it is first sampled, and nothing in the loop changes a direction
(R63, R93). -/
def wrGuard (W : World) (s : State) : Except Fault (GuardResult × State) := do
  let s ← runSteps W commitSteps s
  if s.dirOf .rdy = .input then
    return pollLoop W s.fireIn s
  else
    throw (.lineDirection (.protocol .rdy) s.countdown)

/-- `TM_ARM(n)` (R90). -/
def execTmArm (n : BitVec 16) (s : State) : Host.Outcome State Fault Refusal :=
  perform (.tmArm n) (returning .done (runSteps Config.world [.tmArm n])) s

/-- `TM_DISARM` (R91). -/
def execTmDisarm (s : State) : Host.Outcome State Fault Refusal :=
  perform .tmDisarm (returning .done (runSteps Config.world [.tmDisarm])) s

/-- `TM_TIMED_OUT`: the flag is read; no event, no state change (R92). -/
def execTmTimedOut (s : State) : Host.Outcome State Fault Refusal :=
  perform .tmTimedOut (fun s => .ok (.flag s.tmFlag, s)) s

/-- `WR_GUARD` (R93). -/
def execWrGuard (s : State) : Host.Outcome State Fault Refusal :=
  perform .wrGuard
    (fun s => do
      let (g, s) ← wrGuard Config.world s
      return (.guard g, s)) s

end Sys2Proof.Machine
end

