-- ==== Sys2Proof/Machine/FuseEngine.lean ====
section
/-! DEFINITION. The six operation programs and the read program they share (43_engine_operations.md R105 to R119). -/

namespace Sys2Proof.Machine

/-! ### Identification -/

/-- Load each address, receive its byte, fold it into `ACC` (R110). -/
def readSignature (W : World) : List Byte → State → Except Fault State
  | [], s => .ok s
  | a :: rest, s => do
    let s ← runSteps W (addressSteps a) s
    let s ← receiveByte W s
    readSignature W rest { s with acc := foldSignature s.acc s.rx }

/-- `SEL` and `ENG.STATE` from the lookup, whatever they were (R110). -/
def State.selectDevice (d : Option Config.DeviceDescriptor) (s : State) : State :=
  { s with sel := d, engState := if d.isSome then .deviceKnown else .deviceUnknown }

/-- `IDENTIFY` (R110). -/
def identify (W : World) (s : State) : Except Fault (OpResult × State) := do
  let s ← enterProg W s
  let s ← runSteps W (commandSteps W.params.cmdReadSignature) s
  let s ← readSignature W [0#8, 1#8, 2#8] { s with acc := 0#24 }
  let s ← exitProg W s
  let d := lookup W.params.registry s.acc
  return (.identified s.acc d, s.selectDevice d)

/-! ### Reading a location -/

/-- `READ_RAW(loc)`: the byte is left in `RX` (R107). -/
def readRaw (W : World) (loc : FuseLocation) (s : State) : Except Fault State := do
  let s ← enterProg W s
  let s ← runSteps W (commandSteps W.params.cmdReadFuse) s
  let s ← runSteps W (bselSetSteps (readPair loc).1 (readPair loc).2) s
  let s ← receiveByte W s
  exitProg W s

/-! ### Writing a location -/

/-- The byte-select steps of a write: `BSEL_SET` with the write table's pair, or `BS1_HIGH` for the lock register
(R53, R112, R114). -/
def writeSelectSteps (loc : FuseLocation) : List MicroStep :=
  match writePair loc with
  | some p => bselSetSteps p.1 p.2
  | none => bs1HighSteps

/-- One attempt of `WRITE_FUSE` or `WRITE_LOCK`: the write session, then the read-back into `RB`, performed also
after a timeout (R112, R114; C8). -/
def writeAttempt (W : World) (cmd : Byte) (loc : FuseLocation) (value : Byte) (s : State) :
    Except Fault (GuardResult × State) := do
  let s ← runSteps W [.dly .preWrite] s
  let s ← enterProg W s
  let s ← runSteps W (commandSteps cmd) s
  let s ← runSteps W (dataSteps value) s
  let s ← runSteps W (writeSelectSteps loc) s
  let (g, s) ← wrGuard W s
  let s ← runSteps W bselClearSteps s
  let s ← exitProg W s
  let s ← readRaw W loc s
  return (g, { s with rb := s.rx })

/-- The attempt loop: until a timeout, a match or `ATTEMPT_MAX` (R112). `n` is how many attempts are left. -/
def writeLoop (W : World) (cmd : Byte) (loc : FuseLocation) (value : Byte) : Nat → State → Except Fault State
  | 0, s => .ok s
  | n + 1, s => do
    let (g, s) ← writeAttempt W cmd loc value { s with att := s.att + 1 }
    if g = .timedOut ∨ s.rb = value ∨ s.att = Config.attemptMax then return s
    else writeLoop W cmd loc value n s

/-- The body of `WRITE_FUSE` and `WRITE_LOCK`: `ATT <- 0`, then the loop; the last read-back is in `RB` (R112, R114). -/
def writeLocation (W : World) (cmd : Byte) (loc : FuseLocation) (value : Byte) (s : State) : Except Fault State :=
  writeLoop W cmd loc value Config.attemptMax { s with att := 0 }

/-- The bytes of `WRITE_FUSE_DEFAULTS` one after another, to the first timeout or mismatch (R115). -/
def writeDefaults (W : World) : List (FuseLocation × Byte) → State → Except Fault (DefaultsStatus × State)
  | [], s => .ok (.ok, s)
  | (loc, v) :: rest, s => do
    let s ← writeLocation W W.params.cmdWriteFuse loc v s
    if s.tmFlag then return (.writeTimeout loc, s)
    else if s.rb ≠ v then return (.verifyMismatch loc s.rb, s)
    else writeDefaults W rest s

/-! ### Erasing -/

/-- One attempt of `ERASE_DEVICE` (R116). -/
def eraseAttempt (W : World) (s : State) : Except Fault (GuardResult × State) := do
  let s ← enterProg W s
  let s ← runSteps W (commandSteps W.params.cmdChipErase) s
  let (g, s) ← wrGuard W s
  let s ← exitProg W s
  return (g, s)

/-- The erase loop, which retries only after a timeout (R116). `n` is how many attempts are left. -/
def eraseLoop (W : World) : Nat → GuardResult → State → Except Fault (GuardResult × State)
  | 0, g, s => .ok (g, s)
  | n + 1, _, s => do
    let (g, s) ← eraseAttempt W { s with att := s.att + 1 }
    if g = .ready ∨ s.att = Config.attemptMax then return (g, s)
    else eraseLoop W n g s

/-! ### Meanings -/

/-- `IDENTIFY`: never refused (R106, R110). -/
def execIdentify (s : State) : Host.Outcome State Fault Refusal :=
  perform .identify (identify Config.world) s

/-- `READ_FUSE(loc)` (R111). -/
def execReadFuse (loc : FuseLocation) (s : State) : Host.Outcome State Fault Refusal :=
  gated (.readFuse loc)
    (fun s => do
      let s ← readRaw Config.world loc s
      return (.byte s.rx, s)) s

/-- `WRITE_FUSE(loc, value)`: `Lock` is refused as illegal before the gate (R112, R127 (a); C7). -/
def execWriteFuse (loc : FuseLocation) (value : Byte) (s : State) : Host.Outcome State Fault Refusal :=
  if (writePair loc).isSome then
    gated (.writeFuse loc value)
      (fun s => do
        let s ← writeLocation Config.world Config.world.params.cmdWriteFuse loc value s
        return (.byte s.rb, s)) s
  else .next (s.refuse .illegalOperation)

/-- `WRITE_LOCK(value)` (R114). -/
def execWriteLock (value : Byte) (s : State) : Host.Outcome State Fault Refusal :=
  gated (.writeLock value)
    (fun s => do
      let s ← writeLocation Config.world Config.world.params.cmdWriteLock .lock value s
      return (.byte s.rb, s)) s

/-- `WRITE_FUSE_DEFAULTS(u)`: the set is the selected entry's (R115). With `DeviceKnown` and no entry selected,
which R26's invariant excludes, there is no set to write and the operation is refused (log 13). -/
def execWriteFuseDefaults (useBootloaderSet : Bool) (s : State) : Host.Outcome State Fault Refusal :=
  match s.sel with
  | none => .next (s.refuse .unknownDevice)
  | some d =>
    gated (.writeFuseDefaults useBootloaderSet)
      (fun s => do
        let (st, s) ← writeDefaults Config.world (defaultWrites (defaultSet d useBootloaderSet)) s
        return (.defaults st, s)) s

/-- `ERASE_DEVICE` (R116). -/
def execEraseDevice (s : State) : Host.Outcome State Fault Refusal :=
  gated .eraseDevice
    (fun s => do
      let (g, s) ← eraseLoop Config.world Config.attemptMax .timedOut { s with att := 0 }
      return (.guard g, s)) s

end Sys2Proof.Machine
end

