-- ==== Sys2Proof/Machine/LineEncodings.lean ====
section
/-! DEFINITION. The line-level encodings of the opcode table, each as the line activity that puts it on the wires
(30_encoding.md R51 to R54; log 18). -/

namespace Sys2Proof.Machine

/-- `FRAME_COMMAND(d)`: the frame `100 ++ d`, as `LOAD_COMMAND` produces it (R51). -/
def execFrameCommand (d : Byte) (s : State) : Host.Outcome State Fault Refusal :=
  perform (.frameCommand d) (returning .done (runSteps Config.world (commandSteps d))) s

/-- `FRAME_ADDRESS_LOW(d)`: the frame `000 ++ d`, as `LOAD_ADDRESS_LOW` produces it (R51). -/
def execFrameAddressLow (d : Byte) (s : State) : Host.Outcome State Fault Refusal :=
  perform (.frameAddressLow d) (returning .done (runSteps Config.world (addressSteps d))) s

/-- `FRAME_DATA(d)`: the frame `010 ++ d`, as `LOAD_DATA` produces it (R51). -/
def execFrameData (d : Byte) (s : State) : Host.Outcome State Fault Refusal :=
  perform (.frameData d) (returning .done (runSteps Config.world (dataSteps d))) s

/-- Put a pair on the byte-select lines, as `BSEL_SET` does (R52, R53, R77). -/
def selectPair (i : Instr) (p1 p0 : Level) (s : State) : Host.Outcome State Fault Refusal :=
  perform i (returning .done (runSteps Config.world (bselSetSteps p1 p0))) s

/-- `BSEL_RD_LOW`: the read table's Low pair (R52). -/
def execBselRdLow (s : State) : Host.Outcome State Fault Refusal := selectPair .bselRdLow false false s

/-- `BSEL_RD_HIGH`: the read table's High pair (R52). -/
def execBselRdHigh (s : State) : Host.Outcome State Fault Refusal := selectPair .bselRdHigh true true s

/-- `BSEL_RD_EXTENDED`: the read table's Extended pair (R52). -/
def execBselRdExtended (s : State) : Host.Outcome State Fault Refusal := selectPair .bselRdExtended false true s

/-- `BSEL_RD_LOCK`: the read table's Lock pair (R52). -/
def execBselRdLock (s : State) : Host.Outcome State Fault Refusal := selectPair .bselRdLock true false s

/-- `BSEL_WR_LOW`: the write table's Low pair (R53). -/
def execBselWrLow (s : State) : Host.Outcome State Fault Refusal := selectPair .bselWrLow false false s

/-- `BSEL_WR_HIGH`: the write table's High pair (R53). -/
def execBselWrHigh (s : State) : Host.Outcome State Fault Refusal := selectPair .bselWrHigh true false s

/-- `BSEL_WR_EXTENDED`: the write table's Extended pair (R53). -/
def execBselWrExtended (s : State) : Host.Outcome State Fault Refusal := selectPair .bselWrExtended false true s

/-- `BSEL_WR_LOCK`: line 1 high, line 0 unchanged, whatever `u` the word carries (R53, R79; log 20). -/
def execBselWrLock (u : Level) (s : State) : Host.Outcome State Fault Refusal :=
  perform (.bselWrLock u) (returning .done (runSteps Config.world bs1HighSteps)) s

/-- Put a command byte on the lines in a command frame, as `LOAD_COMMAND` does (R54, R73). -/
def frameConfigured (i : Instr) (c : Byte) (s : State) : Host.Outcome State Fault Refusal :=
  perform i (returning .done (runSteps Config.world (commandSteps c))) s

/-- `CMD_CHIP_ERASE`: the configured byte in a command frame (R54; log 19). -/
def execCmdChipErase (s : State) : Host.Outcome State Fault Refusal :=
  frameConfigured .cmdChipErase Config.world.params.cmdChipErase s

/-- `CMD_WRITE_FUSE`: the configured byte in a command frame (R54; log 19). -/
def execCmdWriteFuse (s : State) : Host.Outcome State Fault Refusal :=
  frameConfigured .cmdWriteFuse Config.world.params.cmdWriteFuse s

/-- `CMD_WRITE_LOCK`: the configured byte in a command frame (R54; log 19). -/
def execCmdWriteLock (s : State) : Host.Outcome State Fault Refusal :=
  frameConfigured .cmdWriteLock Config.world.params.cmdWriteLock s

/-- `CMD_READ_SIGNATURE`: the configured byte in a command frame (R54; log 19). -/
def execCmdReadSignature (s : State) : Host.Outcome State Fault Refusal :=
  frameConfigured .cmdReadSignature Config.world.params.cmdReadSignature s

/-- `CMD_READ_FUSE`: the configured byte in a command frame (R54; log 19). -/
def execCmdReadFuse (s : State) : Host.Outcome State Fault Refusal :=
  frameConfigured .cmdReadFuse Config.world.params.cmdReadFuse s

end Sys2Proof.Machine
end

