-- ==== Sys2Proof/Machine/Dispatch.lean ====
section
/-! DEFINITION. One arm per constructor of Instr: each a direct call of its meaning. -/

namespace Sys2Proof.Machine

/-- The meaning of an instruction. -/
def exec (i : Instr) (s : State) : Host.Outcome State Fault Refusal :=
  match i with
  | .quiesce => Sys2Proof.Machine.execQuiesce s
  | .arm => Sys2Proof.Machine.execArm s
  | .enterProg => Sys2Proof.Machine.execEnterProg s
  | .exitProg => Sys2Proof.Machine.execExitProg s
  | .loadCommand c => Sys2Proof.Machine.execLoadCommand c s
  | .loadAddressLow a => Sys2Proof.Machine.execLoadAddressLow a s
  | .loadData d => Sys2Proof.Machine.execLoadData d s
  | .transmitByte v => Sys2Proof.Machine.execTransmitByte v s
  | .receiveByte => Sys2Proof.Machine.execReceiveByte s
  | .bselSet p1 p0 => Sys2Proof.Machine.execBselSet p1 p0 s
  | .bselClear => Sys2Proof.Machine.execBselClear s
  | .bs1High => Sys2Proof.Machine.execBs1High s
  | .tmArm n => Sys2Proof.Machine.execTmArm n s
  | .tmDisarm => Sys2Proof.Machine.execTmDisarm s
  | .tmTimedOut => Sys2Proof.Machine.execTmTimedOut s
  | .wrGuard => Sys2Proof.Machine.execWrGuard s
  | .identify => Sys2Proof.Machine.execIdentify s
  | .readFuse loc => Sys2Proof.Machine.execReadFuse loc s
  | .writeFuse loc value => Sys2Proof.Machine.execWriteFuse loc value s
  | .writeLock value => Sys2Proof.Machine.execWriteLock value s
  | .writeFuseDefaults u => Sys2Proof.Machine.execWriteFuseDefaults u s
  | .eraseDevice => Sys2Proof.Machine.execEraseDevice s
  | .frameCommand d => Sys2Proof.Machine.execFrameCommand d s
  | .frameAddressLow d => Sys2Proof.Machine.execFrameAddressLow d s
  | .frameData d => Sys2Proof.Machine.execFrameData d s
  | .bselRdLow => Sys2Proof.Machine.execBselRdLow s
  | .bselRdHigh => Sys2Proof.Machine.execBselRdHigh s
  | .bselRdExtended => Sys2Proof.Machine.execBselRdExtended s
  | .bselRdLock => Sys2Proof.Machine.execBselRdLock s
  | .bselWrLow => Sys2Proof.Machine.execBselWrLow s
  | .bselWrHigh => Sys2Proof.Machine.execBselWrHigh s
  | .bselWrExtended => Sys2Proof.Machine.execBselWrExtended s
  | .bselWrLock u => Sys2Proof.Machine.execBselWrLock u s
  | .cmdChipErase => Sys2Proof.Machine.execCmdChipErase s
  | .cmdWriteFuse => Sys2Proof.Machine.execCmdWriteFuse s
  | .cmdWriteLock => Sys2Proof.Machine.execCmdWriteLock s
  | .cmdReadSignature => Sys2Proof.Machine.execCmdReadSignature s
  | .cmdReadFuse => Sys2Proof.Machine.execCmdReadFuse s

end Sys2Proof.Machine
end

