-- ==== Sys2Proof/Machine/Step.lean ====
section
/-! DEFINITION. One step of the machine: a step of the startup program, the next issued operation, or an idle moment between
operations (10_state.md R13; 43_engine_operations.md R105; 70_reset_and_hazards.md R142; log 4, 16, 24). -/

namespace Sys2Proof.Machine

/-- An operation of the startup program, after which the program stands at `next` (R142). -/
def startupOperation (i : Instr) (next : Startup) (s : State) : Host.Outcome State Fault Refusal :=
  match exec i s with
  | .next t => .next { t with startup := next }
  | .fault f => .fault f
  | .refused r => .refused r

/-- The next issued word: taken, decoded and performed; an illegal `OPW24` word is refused with `IllegalOperation` and
touches nothing else (R58, R120; log 10). That a word of another format outside its table is refused the same way is
the model's, the spec saying no treatment is needed (93 U10; DESIGN CHOICE, log 28). With none issued the block is
idle (R135; log 24). -/
def nextOperation (s : State) : Host.Outcome State Fault Refusal :=
  match s.issue with
  | [] => .next s
  | w :: rest =>
    match decode w with
    | .ok i => exec i { s with issue := rest }
    | .error _ => .next ({ s with issue := rest }.refuse .illegalOperation)

/-- What the sequencer does between operations: the startup program once after reset, then what the host issues
(R142). A mode input that selects the other protocol leaves the machine without a step (R141, 93 U16). -/
def betweenOperations (s : State) : Host.Outcome State Fault Refusal :=
  match s.startup with
  | .sampleModeInput => if s.modeInput then .next { s with startup := .quiesce } else .refused .otherModeSelected
  | .quiesce => startupOperation .quiesce .identify s
  | .identify => startupOperation .identify .ended s
  | .ended => nextOperation s

/-- One step: a point at which the countdown may fire, then what the sequencer does. Where a fault stopped the
sequencer inside an operation there is no further step (R124). -/
def step (s : State) : Host.Outcome State Fault Refusal :=
  match s.seq with
  | some _ => .fault (.halted s)
  | none => betweenOperations s.countdown

/-- `s` with the instruction of that number issued and the startup program past, so that the next step performs
exactly it. A number that no format holds stands as the illegal `OPW24` word 0 (R58; log 16, 17). -/
def State.withFetchWord (s : State) (nbits w : Nat) : State :=
  { s with
    seq := none
    startup := .ended
    issue := [(tableWord nbits w).getD (.opw24 0#24)] }

end Sys2Proof.Machine
end

