-- ==== Sys2Proof/Safety.lean ====
section
/-! DEFINITION. What counts as a safe run: the named line states, the events an operation performs, the frames, the invariants, and
the timed refinement (10_state.md R32, R33; 40 to 43; 42_timeout_guard.md R97; 60_exceptions.md R128). Nothing here is used by the machine. -/

namespace Sys2Proof.Machine

/-! ### Named line states -/

/-- `Quiesced`: both power-enable lines 0 and every protocol line a non-driving input (R32). -/
abbrev Quiesced (s : State) : Prop :=
  s.lvlOf .vccEn = some false ∧ s.lvlOf .vppEn = some false ∧ ∀ l : PLine, s.dirOf l = .input

/-- A protocol line driven at a level (R14, R15). -/
abbrev State.drives (s : State) (l : PLine) (v : Level) : Prop :=
  s.dirOf l = .output ∧ s.lvlOf (.protocol l) = some v

/-- `Armed`, as `ARM` leaves the control lines (R32). -/
abbrev Armed (s : State) : Prop :=
  s.drives .wr true ∧ s.drives .oe true ∧ s.drives .ms1 false ∧ s.drives .ms0 false ∧
  s.drives .bs1 false ∧ s.drives .bs0 false ∧ s.drives .clk false ∧ s.drives .rdy false

/-- The lines that are outputs throughout a session (R32, `InSession`). -/
def sessionOutputs : List PLine := [.wr, .oe, .ms1, .ms0, .bs1, .bs0, .clk]

/-- `InSession`: `SESSION`, the control lines outputs, `RDY` an input, both power-enable lines 1 (R32). -/
abbrev InSession (s : State) : Prop :=
  s.session = true ∧ (∀ l ∈ sessionOutputs, s.dirOf l = .output) ∧ s.dirOf .rdy = .input ∧
  s.lvlOf .vccEn = some true ∧ s.lvlOf .vppEn = some true

/-- The lines `TRANSMIT_BYTE` and the framing operations `SET` (R73, R75, R80). -/
abbrev FramingOutputs (s : State) : Prop :=
  s.dirOf .ms1 = .output ∧ s.dirOf .ms0 = .output ∧ s.dirOf .bs1 = .output ∧ s.dirOf .clk = .output

/-! ### Events -/

/-- The sequencer's own events of a part of the trace: all but the countdown's (R28, R47). -/
abbrev sequencerEvents (added : List Event) : List Event := added.filter (fun e => e ≠ Event.tmFire)

/-- From `s` to `t` the sequencer performed exactly the events `evs`, in that order; the countdown's own event may
stand anywhere among them (R28, R47). -/
def Performed (s t : State) (evs : List Event) : Prop :=
  ∃ added, t.tr = s.tr ++ added ∧ sequencerEvents added = evs

/-- The events of `QUIESCE`: power before release, no order within either group (R65, 93 U7). -/
def QuiesceEvents (evs : List Event) : Prop :=
  ∃ power released : List Event, evs = power ++ released ∧
    power.Perm [.set .vccEn false, .set .vppEn false] ∧ released.Perm (protocolLines.map .rel)

/-- The events of `ARM`, in any order (R66, 93 U7). -/
def ArmEvents (evs : List Event) : Prop :=
  evs.Perm [.drv .wr true, .drv .oe true, .drv .ms1 false, .drv .ms0 false,
    .drv .bs1 false, .drv .bs0 false, .drv .clk false, .drv .rdy false]

/-- The events of `ENTER_PROG`, with every "then" in its place (R70). -/
def EnterEvents (evs : List Event) : Prop :=
  ∃ armed : List Event, ArmEvents armed ∧ evs = armed ++
    ([.set .vccEn true, .dly .enter1, .set .vppEn true, .dly .enter2, .rel .rdy, .dly .enter3] : List Event)

/-- The events of `TRANSMIT_BYTE(x)`: bit i on `D[i]` in any order, then the clock pulse (R75, 93 U7). -/
def TransmitEvents (x : Byte) (evs : List Event) : Prop :=
  ∃ data : List Event, data.Perm ((List.finRange 8).map (fun i => .drv (.d i) (x.getLsbD i.val))) ∧
    evs = data ++ ([.set (.protocol .clk) true, .dly .clkHi, .set (.protocol .clk) false, .dly .clkLo] : List Event)

/-- The events of a framed byte: the tuple in any order, then the byte (R72 to R74, R80). -/
def FrameEvents (m1 m0 b1 : Level) (x : Byte) (evs : List Event) : Prop :=
  ∃ tuple byte : List Event, evs = tuple ++ byte ∧ TransmitEvents x byte ∧
    tuple.Perm [.set (.protocol .ms1) m1, .set (.protocol .ms0) m0, .set (.protocol .bs1) b1]

/-- The release and the sample of data line `i` in a reception of the byte `x` (R76). -/
def sampleEvents (x : Byte) (i : Fin 8) : List Event := [.rel (.d i), .smp (.d i) (x.getLsbD i.val)]

/-- The events of a `RECEIVE_BYTE` that returns `x`; the order 7 down to 0 is sourced (R76). -/
def ReceiveEvents (x : Byte) (evs : List Event) : Prop :=
  evs = ([.set (.protocol .oe) false] : List Event) ++
    (sampleEvents x 7 ++ sampleEvents x 6 ++ sampleEvents x 5 ++ sampleEvents x 4 ++
     sampleEvents x 3 ++ sampleEvents x 2 ++ sampleEvents x 1 ++ sampleEvents x 0) ++
    ([.set (.protocol .oe) true, .dly .oeSettle] : List Event)

/-- The events of a `WR_GUARD` with these answers of `RDY` to its polls (R93). -/
def GuardEvents (polls : List Level) (evs : List Event) : Prop :=
  evs = ([.tmArm 200#16, .set (.protocol .wr) false, .set (.protocol .wr) true, .dly .wrSettle] : List Event) ++
    polls.map (.smp .rdy) ++ ([.tmDisarm] : List Event)

/-- The two `SET`s of a byte-select pair, `BS[1]` first (R77, R78). -/
def pairEvents (p1 p0 : Level) : List Event := [.set (.protocol .bs1) p1, .set (.protocol .bs0) p0]

/-- The read table, as rule R52 prints it: (`BS[1]`, `BS[0]`). -/
def readTable : FuseLocation → Level × Level
  | .low => (false, false)
  | .high => (true, true)
  | .extended => (false, true)
  | .lock => (true, false)

/-- The byte-select events of a write, as rule R53 prints its table; the lock row leaves `BS[0]` alone. -/
def writeSelectEvents : FuseLocation → List Event
  | .low => pairEvents false false
  | .high => pairEvents true false
  | .extended => pairEvents false true
  | .lock => [.set (.protocol .bs1) true]

/-- The events of `READ_RAW(loc)` returning `x` (R107). -/
def ReadRawEvents (p : Config.Params) (loc : FuseLocation) (x : Byte) (evs : List Event) : Prop :=
  ∃ enter command receive exit : List Event, EnterEvents enter ∧
    FrameEvents true false false p.cmdReadFuse command ∧ ReceiveEvents x receive ∧ QuiesceEvents exit ∧
    evs = enter ++ command ++ pairEvents (readTable loc).1 (readTable loc).2 ++ receive ++ exit

/-- The events of an `IDENTIFY` that reads the bytes `b0`, `b1`, `b2` at the addresses 0, 1, 2 (R110). -/
def IdentifyEvents (p : Config.Params) (b0 b1 b2 : Byte) (evs : List Event) : Prop :=
  ∃ enter command load0 read0 load1 read1 load2 read2 exit : List Event, EnterEvents enter ∧
    FrameEvents true false false p.cmdReadSignature command ∧
    FrameEvents false false false 0#8 load0 ∧ ReceiveEvents b0 read0 ∧
    FrameEvents false false false 1#8 load1 ∧ ReceiveEvents b1 read1 ∧
    FrameEvents false false false 2#8 load2 ∧ ReceiveEvents b2 read2 ∧ QuiesceEvents exit ∧
    evs = enter ++ command ++ (load0 ++ read0) ++ (load1 ++ read1) ++ (load2 ++ read2) ++ exit

/-- The events of one attempt of a write with these polls and this read-back (R112, R114). -/
def WriteAttemptEvents (p : Config.Params) (cmd : Byte) (loc : FuseLocation) (value : Byte) (polls : List Level)
    (readBack : Byte) (evs : List Event) : Prop :=
  ∃ enter command data guard exit back : List Event, EnterEvents enter ∧
    FrameEvents true false false cmd command ∧ FrameEvents false true false value data ∧
    GuardEvents polls guard ∧ QuiesceEvents exit ∧ ReadRawEvents p loc readBack back ∧
    evs = ([.dly .preWrite] : List Event) ++ enter ++ command ++ data ++ writeSelectEvents loc ++ guard ++
      pairEvents false false ++ exit ++ back

/-- The events of one attempt of `ERASE_DEVICE` with these polls (R116). -/
def EraseAttemptEvents (p : Config.Params) (polls : List Level) (evs : List Event) : Prop :=
  ∃ enter command guard exit : List Event, EnterEvents enter ∧
    FrameEvents true false false p.cmdChipErase command ∧ GuardEvents polls guard ∧ QuiesceEvents exit ∧
    evs = enter ++ command ++ guard ++ exit

/-- The answers to a guard's polls that fit its result: at least one poll, none but the last ready, and the last
ready when the guard returned `Ready` (R93, R95). -/
def PollsFit (ready : Level) (polls : List Level) (g : GuardResult) : Prop :=
  ∃ before last, polls = before ++ [last] ∧ (∀ r ∈ before, r ≠ ready) ∧
    (g = .ready → last = ready)

/-- The one guard in `added`, a part of the trace with the countdown's events in it, returned `g`: `TimedOut` exactly
when the countdown fired between the guard's `TM_ARM` and its last poll, which its `TM_DISARM` follows (R93, R95). That
nothing stands between those two is the reading of R95 the model takes (log 7). -/
def GuardDecided (added : List Event) (g : GuardResult) : Prop :=
  ∃ (early late after : List Event) (r : Level),
    added = early ++ .tmArm 200#16 :: (late ++ .smp .rdy r :: .tmDisarm :: after) ∧
    (g = .timedOut ↔ Event.tmFire ∈ late)

/-- One attempt as it went: the answers to its polls, the guard's result, the byte read back. -/
structure Attempt where
  polls : List Level
  guard : GuardResult
  readBack : Byte

/-- Attempts that follow the policy of `WRITE_FUSE`: another attempt only after `Ready` and a mismatch, at most
four, and none left undone (R112). -/
def WritePolicy (value : Byte) (attempts : List Attempt) : Prop :=
  ∃ (before : List Attempt) (last : Attempt), attempts = before ++ [last] ∧ attempts.length ≤ 4 ∧
    (∀ a ∈ before, a.guard = .ready ∧ a.readBack ≠ value) ∧
    (last.guard = .timedOut ∨ last.readBack = value ∨ attempts.length = 4)

/-- Attempts that follow the policy of `ERASE_DEVICE`: another attempt only after `TimedOut`, at most four, and
none left undone (R116). -/
def ErasePolicy (attempts : List Attempt) : Prop :=
  ∃ (before : List Attempt) (last : Attempt), attempts = before ++ [last] ∧ attempts.length ≤ 4 ∧
    (∀ a ∈ before, a.guard = .timedOut) ∧ (last.guard = .ready ∨ attempts.length = 4)

/-- The attempts of a write of `value` to `loc`, one after another, in a part of the trace: the sequencer's events of
each, and its guard's result by the countdown's events among them (R112, R114). -/
inductive WriteAttemptsEvents (p : Config.Params) (cmd : Byte) (loc : FuseLocation) (value : Byte) :
    List Attempt → List Event → Prop
  | nil : WriteAttemptsEvents p cmd loc value [] []
  | cons (a : Attempt) (rest : List Attempt) (added more : List Event)
      (one : WriteAttemptEvents p cmd loc value a.polls a.readBack (sequencerEvents added))
      (fit : PollsFit p.rdyReadyLevel a.polls a.guard) (decided : GuardDecided added a.guard)
      (others : WriteAttemptsEvents p cmd loc value rest more) :
      WriteAttemptsEvents p cmd loc value (a :: rest) (added ++ more)

/-- The attempts of an erase, one after another, in a part of the trace, likewise (R116). -/
inductive EraseAttemptsEvents (p : Config.Params) : List Attempt → List Event → Prop
  | nil : EraseAttemptsEvents p [] []
  | cons (a : Attempt) (rest : List Attempt) (added more : List Event)
      (one : EraseAttemptEvents p a.polls (sequencerEvents added))
      (fit : PollsFit p.rdyReadyLevel a.polls a.guard) (decided : GuardDecided added a.guard)
      (others : EraseAttemptsEvents p rest more) :
      EraseAttemptsEvents p (a :: rest) (added ++ more)

/-- The writes of `WRITE_FUSE_DEFAULTS` over a list of locations and bytes in a part of the trace, each with the last
attempt of its `WRITE_FUSE`: in order, each with its own budget, stopping after the first that timed out or did not take (R115). -/
inductive DefaultsRun (p : Config.Params) :
    List (FuseLocation × Byte) → List (FuseLocation × Byte × Attempt) → List Event → Prop
  | done : DefaultsRun p [] [] []
  | stopped (loc : FuseLocation) (v : Byte) (rest : List (FuseLocation × Byte)) (before : List Attempt) (last : Attempt)
      (added : List Event) (policy : WritePolicy v (before ++ [last]))
      (one : WriteAttemptsEvents p p.cmdWriteFuse loc v (before ++ [last]) added)
      (failed : last.guard = .timedOut ∨ last.readBack ≠ v) :
      DefaultsRun p ((loc, v) :: rest) [(loc, v, last)] added
  | took (loc : FuseLocation) (v : Byte) (rest : List (FuseLocation × Byte)) (before : List Attempt) (last : Attempt)
      (added more : List Event) (others : List (FuseLocation × Byte × Attempt))
      (policy : WritePolicy v (before ++ [last]))
      (one : WriteAttemptsEvents p p.cmdWriteFuse loc v (before ++ [last]) added)
      (success : last.guard = .ready ∧ last.readBack = v) (next : DefaultsRun p rest others more) :
      DefaultsRun p ((loc, v) :: rest) ((loc, v, last) :: others) (added ++ more)

/-- The status a list of byte writes ends with, when each went as recorded: the first timeout or mismatch, else
`Ok` (R115). An entry is the location, the byte, and the last attempt of its `WRITE_FUSE`. -/
def statusOfWrites : List (FuseLocation × Byte × Attempt) → DefaultsStatus
  | [] => .ok
  | (loc, v, a) :: rest =>
    if a.guard = .timedOut then .writeTimeout loc
    else if a.readBack ≠ v then .verifyMismatch loc a.readBack
    else statusOfWrites rest

/-- Commit pulses in a list of events: the rising edges of the write strobe (R93, glossary "commit pulse"). -/
def commitPulses (evs : List Event) : Nat := evs.count (.set (.protocol .wr) true)

/-! ### Frames -/

/-- The monitor was not written by the operation: only its own countdown may have fired (R94). -/
def MonitorOnlyFires (s t : State) : Prop :=
  t.tmDeadline = s.tmDeadline ∧
  ((t.tmFlag = s.tmFlag ∧ t.tmRun = s.tmRun) ∨ (s.tmRun = true ∧ t.tmFlag = true ∧ t.tmRun = false))

/-- "Flags: none": `SESSION`, `ENG.STATE` and `SEL` as before, the monitor not written (40 head). -/
def FlagsKept (s t : State) : Prop :=
  t.session = s.session ∧ t.engState = s.engState ∧ t.sel = s.sel ∧ MonitorOnlyFires s t

/-- Every line outside `ls` has the direction and the level it had. -/
def LinesKeptBut (ls : List Line) (s t : State) : Prop :=
  (∀ l, l ∉ ls → t.lvlOf l = s.lvlOf l) ∧ (∀ l : PLine, .protocol l ∉ ls → t.dirOf l = s.dirOf l)

/-- Where one of the lines `ls` is not an output, `i` faults with `LineDirectionFault` at such a line; which, where there
are several, no claim may depend on (R61, R82, 93 U7). -/
def FaultsAt (ls : List PLine) (i : Instr) (s : State) : Prop :=
  (∃ l ∈ ls, s.dirOf l ≠ .output) →
    ∃ l ∈ ls, s.dirOf l ≠ .output ∧ ∃ left, exec i s = .fault (.lineDirection (.protocol l) left)

/-- The lines a framed byte writes (R72, R75). -/
def frameLines : List Line :=
  ([.protocol .ms1, .protocol .ms0, .protocol .bs1, .protocol .clk] : List Line) ++ dataLines.map .protocol

/-- The byte-select lines. -/
def pairLines : List Line := [.protocol .bs1, .protocol .bs0]

/-- `i` puts the frame `m1 m0 b1 x` on the wires and clocks it, in every state that drives the four lines it
`SET`s, and otherwise faults at one that is not driven (R51, R72 to R75, R80, R82). -/
def FramesByte (i : Instr) (m1 m0 b1 : Level) (x : Byte) : Prop :=
  ∀ s, FaultsAt [.ms1, .ms0, .bs1, .clk] i s ∧
    (FramingOutputs s → ∃ t evs, exec i s = .next t ∧ t.result = .done ∧
      Performed s t evs ∧ FrameEvents m1 m0 b1 x evs ∧
      t.frame = some (BitVec.ofBool m1 ++ BitVec.ofBool m0 ++ BitVec.ofBool b1 ++ x : BitVec 11) ∧
      t.drives .clk false ∧ LinesKeptBut frameLines s t ∧ FlagsKept s t)

/-- `i` puts the pair (`p1`, `p0`) on the byte-select lines, in every state that drives them, and otherwise faults at
one that is not driven (R52, R53, R77, R78, R82). -/
def SelectsPair (i : Instr) (p1 p0 : Level) : Prop :=
  ∀ s, FaultsAt [.bs1, .bs0] i s ∧
    (s.dirOf .bs1 = .output → s.dirOf .bs0 = .output → ∃ t, exec i s = .next t ∧ t.result = .done ∧
      Performed s t (pairEvents p1 p0) ∧ t.byteSelect = some (BitVec.ofBool p1 ++ BitVec.ofBool p0 : BitVec 2) ∧
      LinesKeptBut pairLines s t ∧ FlagsKept s t)

/-- `i` drives byte-select line 1 high and leaves line 0 alone (R53, R79, R82). -/
def RaisesBs1 (i : Instr) : Prop :=
  ∀ s, FaultsAt [.bs1] i s ∧
    (s.dirOf .bs1 = .output → ∃ t, exec i s = .next t ∧ t.result = .done ∧
      Performed s t [.set (.protocol .bs1) true] ∧ t.drives .bs1 true ∧
      LinesKeptBut [.protocol .bs1] s t ∧ FlagsKept s t)

/-- The mode tuple and the byte an instruction frames, if it frames one (R51, R54, R73, R74, R80). -/
def framedByte : Instr → Option (Level × Level × Level × Byte)
  | .loadCommand c => some (true, false, false, c)
  | .loadAddressLow a => some (false, false, false, a)
  | .loadData d => some (false, true, false, d)
  | .frameCommand c => some (true, false, false, c)
  | .frameAddressLow a => some (false, false, false, a)
  | .frameData d => some (false, true, false, d)
  | .cmdChipErase => some (true, false, false, Config.params.cmdChipErase)
  | .cmdWriteFuse => some (true, false, false, Config.params.cmdWriteFuse)
  | .cmdWriteLock => some (true, false, false, Config.params.cmdWriteLock)
  | .cmdReadSignature => some (true, false, false, Config.params.cmdReadSignature)
  | .cmdReadFuse => some (true, false, false, Config.params.cmdReadFuse)
  | _ => none

/-- The lines an operation may write. Every line for the operations that open or close a session (R65 to R116). -/
def writtenLines : Instr → List Line
  | .quiesce => allLines
  | .exitProg => allLines
  | .enterProg => controlLines.map .protocol ++ ([.vccEn, .vppEn] : List Line)
  | .arm => controlLines.map .protocol
  | .loadCommand _ => frameLines
  | .loadAddressLow _ => frameLines
  | .loadData _ => frameLines
  | .transmitByte _ => dataLines.map .protocol ++ ([.protocol .clk] : List Line)
  | .receiveByte => dataLines.map .protocol ++ ([.protocol .oe] : List Line)
  | .bselSet _ _ => pairLines
  | .bselClear => pairLines
  | .bs1High => [.protocol .bs1]
  | .tmArm _ => []
  | .tmDisarm => []
  | .tmTimedOut => []
  | .wrGuard => [.protocol .wr]
  | .identify => allLines
  | .readFuse _ => allLines
  | .writeFuse _ _ => allLines
  | .writeLock _ => allLines
  | .writeFuseDefaults _ => allLines
  | .eraseDevice => allLines
  | .frameCommand _ => frameLines
  | .frameAddressLow _ => frameLines
  | .frameData _ => frameLines
  | .bselRdLow => pairLines
  | .bselRdHigh => pairLines
  | .bselRdExtended => pairLines
  | .bselRdLock => pairLines
  | .bselWrLow => pairLines
  | .bselWrHigh => pairLines
  | .bselWrExtended => pairLines
  | .bselWrLock _ => [.protocol .bs1]
  | .cmdChipErase => frameLines
  | .cmdWriteFuse => frameLines
  | .cmdWriteLock => frameLines
  | .cmdReadSignature => frameLines
  | .cmdReadFuse => frameLines

/-- The registers other than the lines that an operation may write. -/
inductive Register
  | rx
  | acc
  | att
  | rb
  | monitor
  | session
  | engine
  deriving DecidableEq, Repr

/-- The registers an operation may write; `monitor` stands for `TM.DEADLINE` and for the operation's own writes of
`TM.FLAG` and `TM.RUN`, `engine` for `ENG.STATE` and `SEL` (the "Flags" line of each rule). -/
def writtenRegisters : Instr → List Register
  | .quiesce => [.session]
  | .exitProg => [.session]
  | .enterProg => [.session]
  | .receiveByte => [.rx]
  | .tmArm _ => [.monitor]
  | .tmDisarm => [.monitor]
  | .wrGuard => [.monitor]
  | .identify => [.rx, .acc, .session, .engine]
  | .readFuse _ => [.rx, .session]
  | .writeFuse _ _ => [.rx, .att, .rb, .monitor, .session]
  | .writeLock _ => [.rx, .att, .rb, .monitor, .session]
  | .writeFuseDefaults _ => [.rx, .att, .rb, .monitor, .session]
  | .eraseDevice => [.att, .monitor, .session]
  | .arm => []
  | .loadCommand _ => []
  | .loadAddressLow _ => []
  | .loadData _ => []
  | .transmitByte _ => []
  | .bselSet _ _ => []
  | .bselClear => []
  | .bs1High => []
  | .tmTimedOut => []
  | .frameCommand _ => []
  | .frameAddressLow _ => []
  | .frameData _ => []
  | .bselRdLow => []
  | .bselRdHigh => []
  | .bselRdExtended => []
  | .bselRdLock => []
  | .bselWrLow => []
  | .bselWrHigh => []
  | .bselWrExtended => []
  | .bselWrLock _ => []
  | .cmdChipErase => []
  | .cmdWriteFuse => []
  | .cmdWriteLock => []
  | .cmdReadSignature => []
  | .cmdReadFuse => []

/-- A register's value in `t` is the one it had in `s`. -/
def Register.KeptIn (s t : State) : Register → Prop
  | .rx => t.rx = s.rx
  | .acc => t.acc = s.acc
  | .att => t.att = s.att
  | .rb => t.rb = s.rb
  | .monitor => MonitorOnlyFires s t
  | .session => t.session = s.session
  | .engine => t.engState = s.engState ∧ t.sel = s.sel

/-- The six operations the host issues in the source's design (R56, R105). -/
def engineOperation : Instr → Bool
  | .identify => true
  | .readFuse _ => true
  | .writeFuse _ _ => true
  | .writeLock _ => true
  | .writeFuseDefaults _ => true
  | .eraseDevice => true
  | _ => false

/-- The fuse and lock writes: the command byte, the location and the byte of each (R112, R114). -/
def singleWrite : Instr → Option (Byte × FuseLocation × Byte)
  | .writeFuse .low v => some (Config.params.cmdWriteFuse, .low, v)
  | .writeFuse .high v => some (Config.params.cmdWriteFuse, .high, v)
  | .writeFuse .extended v => some (Config.params.cmdWriteFuse, .extended, v)
  | .writeLock v => some (Config.params.cmdWriteLock, .lock, v)
  | _ => none

/-- The state a fault leaves (R124; log 11). -/
def Fault.left : Fault → State
  | .lineDirection _ t => t
  | .sessionActive t => t
  | .halted t => t

/-! ### Invariants -/

/-- The words of a host that issues only the engine operations and `QUIESCE` (R33). -/
def EngineHost (issue : List CodeWord) : Prop :=
  ∀ w ∈ issue, ∀ i, decode w = .ok i → engineOperation i = true ∨ i = .quiesce

/-- What holds between operations after startup for such a host (R33). -/
structure Restful (s : State) : Prop where
  idle : s.seq = none
  started : s.startup = .ended
  host : EngineHost s.issue
  quiesced : Quiesced s
  session : s.session = false
  monitor : s.tmRun = false

/-- What holds of the state between operations in every run without a fault, whatever words the host issues. -/
structure Coherent (s : State) : Prop where
  /-- `SEQ` is none between operations (R27). -/
  idle : s.seq = none
  /-- A protocol line has a level exactly while it is an output (R15, R60, R62). -/
  latches : ∀ l, s.dirOf l = .output ↔ (s.lvlOf (.protocol l)).isSome = true
  /-- The strobes rest inactive and the clock rests low (R66, R75, R76, R81, R93). -/
  strobes : (∀ v, s.drives .wr v → v = true) ∧ (∀ v, s.drives .oe v → v = true) ∧ (∀ v, s.drives .clk v → v = false)
  /-- A session has the control lines driven and both supplies on; without one neither supply is on (R32, R135). -/
  power : if s.session then
      (∀ l ∈ sessionOutputs, s.dirOf l = .output) ∧ s.lvlOf .vccEn = some true ∧ s.lvlOf .vppEn = some true
    else s.lvlOf .vccEn ≠ some true ∧ s.lvlOf .vppEn ≠ some true
  /-- `ATT` stays within `ATTEMPT_MAX` (R20). -/
  attempts : s.att ≤ 4
  /-- A countdown that runs has not fired (R90, R94, R129). -/
  monitor : ¬(s.tmRun = true ∧ s.tmFlag = true)
  /-- `ENG.STATE = DeviceKnown` exactly when `SEL` is a reference (R26). -/
  known : s.engState = .deviceKnown ↔ s.sel.isSome = true
  /-- `SEL` is unknown or an entry of the registry (R26). -/
  entry : ∀ d, s.sel = some d → d ∈ Config.params.registry
  /-- `Idle` is never entered (R26, 93 U15). -/
  notIdle : s.engState ≠ .idle

/-- The direction of a protocol line after some events, when it was `start` before them (R28, R60, R62). -/
def replayDir (start : Dir) (l : PLine) (evs : List Event) : Dir :=
  evs.foldl (fun d e =>
    match e with
    | .drv k _ => if k = l then .output else d
    | .rel k => if k = l then .input else d
    | _ => d) start

/-- The level latch of a line after some events, when it was `start` before them (R28, R60 to R62). -/
def replayLvl (start : Latch) (l : Line) (evs : List Event) : Latch :=
  evs.foldl (fun v e =>
    match e with
    | .drv k w => if .protocol k = l then some w else v
    | .set k w => if k = l then some w else v
    | .rel k => if .protocol k = l then none else v
    | _ => v) start

/-- (`TM.FLAG`, `TM.RUN`) after some events (R28, R90, R91, R94). -/
def replayMonitor (start : Bool × Bool) (evs : List Event) : Bool × Bool :=
  evs.foldl (fun m e =>
    match e with
    | .tmArm _ => (false, true)
    | .tmDisarm => (m.1, false)
    | .tmFire => (true, false)
    | _ => m) start

/-- The lines and the monitor of `t` are what the events `evs` make of those of `s` (R28). -/
def Explained (s t : State) (evs : List Event) : Prop :=
  (∀ l, t.dirOf l = replayDir (s.dirOf l) l evs) ∧ (∀ l, t.lvlOf l = replayLvl (s.lvlOf l) l evs) ∧
  (t.tmFlag, t.tmRun) = replayMonitor (s.tmFlag, s.tmRun) evs

/-- The trace explains the lines and the monitor, from their values at reset (R28). The lines' values there are the
model's choice (log 1). -/
def TraceExplains (s : State) : Prop := Explained State.reset s s.tr

/-- The level the block puts on a line after `s` and the events `evs`, if it drives the line (R17). -/
def wireAt (s : State) (evs : List Event) : Line → Latch
  | .protocol l =>
    if replayDir (s.dirOf l) l evs = .output then replayLvl (s.lvlOf (.protocol l)) (.protocol l) evs else none
  | .vccEn => replayLvl (s.lvlOf .vccEn) .vccEn evs
  | .vppEn => replayLvl (s.lvlOf .vppEn) .vppEn evs

/-- A byte stands on the data lines after `s` and the events `evs`, bit i on `D[i]` (R43). -/
def ByteOnWires (s : State) (evs : List Event) (x : Byte) : Prop :=
  ∀ i : Fin 8, wireAt s evs (.protocol (.d i)) = some (x.getLsbD i.val)

/-- In a trace the elevated voltage is raised only while the logic supply is on (R135, R153). -/
def SupplyFirst (tr : List Event) : Prop :=
  ∀ before after, tr = before ++ .set .vppEn true :: after → replayLvl none .vccEn before = some true

/-! ### The timed refinement (R97) -/

/-- A trace with the time of each event, in whole microseconds (log 21, 30). -/
abbrev Stamped := List (Nat × Event)

/-- The time parameters are lower bounds: a micro-step of the sequencer comes no sooner than its predecessor, and
after a `DLY` no sooner than the named time later (R64, R97, R152). `earliest` is the bound on the next. -/
def WaitsKept (p : Config.Params) : Nat → Stamped → Prop
  | _, [] => True
  | earliest, (_, .tmFire) :: rest => WaitsKept p earliest rest
  | earliest, (t, .dly q) :: rest => earliest ≤ t ∧ WaitsKept p (t + p.timeUs q) rest
  | earliest, (t, _) :: rest => earliest ≤ t ∧ WaitsKept p t rest

/-- A time before the running countdown, if one runs, elapses (R97). -/
abbrev BeforeDeadline (armed : Option Nat) (t : Nat) : Prop := ∀ due, armed = some due → t < due

/-- The countdown fires when its deadline has passed and before anything else does (R97, D13). `armed` is the time at
which the running countdown elapses, if one runs; `polled` says that the event before was a poll of `RDY`. The disarm
that directly follows a poll is a guard's and one unit with it (R95), and the poll's stamp is what is held against the
deadline (DESIGN CHOICE, safe: log 29); any other disarm comes before the deadline or after the firing. -/
def FiresOnTime : Option Nat → Bool → Stamped → Prop
  | _, _, [] => True
  | armed, _, (t, .tmFire) :: rest => (∃ due, armed = some due ∧ due ≤ t) ∧ FiresOnTime none false rest
  | armed, _, (t, .tmArm n) :: rest => BeforeDeadline armed t ∧ FiresOnTime (some (t + n.toNat * 1000)) false rest
  | armed, polled, (t, .tmDisarm) :: rest => (polled = true ∨ BeforeDeadline armed t) ∧ FiresOnTime none false rest
  | armed, _, (t, .smp l _) :: rest => BeforeDeadline armed t ∧ FiresOnTime armed (l == .rdy) rest
  | armed, _, (t, _) :: rest => BeforeDeadline armed t ∧ FiresOnTime armed false rest

/-- A time-stamped run: time does not go back, waits are kept, the countdown fires on time (R97). -/
structure TimedRun (p : Config.Params) (st : Stamped) : Prop where
  ordered : (st.map Prod.fst).Pairwise (· ≤ ·)
  waits : WaitsKept p 0 st
  fires : ∃ armed, FiresOnTime armed false st

end Sys2Proof.Machine
end

