-- ==== Sys2Proof/Certificates/Slice0/Obligations.lean ====
section
/-! DEFINITION. The statements for the provers. -/

section

open Sys2Proof Sys2Proof.Machine Sys2Proof.Config

/-! ### Encodings -/

/-- Words written out from the tables of R51, R52, R53 and R56 and the vectors V30, and the configured byte of a command
(R54), decode to what they stand for. That a word is issued with its format, which tells the read from the write table,
is the model's choice (log 17), and so is that the line-level rows are words to decode at all (log 18, 19). -/
def Obligations.WordsOfTheSpecDecode : Prop :=
  decode (.opw24 0x010000#24) = .ok .quiesce ∧ decode (.opw24 0x120004#24) = .ok (.loadCommand 0x04#8) ∧
  decode (.opw24 0x170002#24) = .ok (.bselSet true false) ∧ decode (.opw24 0x2003E8#24) = .ok (.tmArm 1000#16) ∧
  decode (.opw24 0x280000#24) = .ok .wrGuard ∧ decode (.opw24 0x310200#24) = .ok (.readFuse .extended) ∧
  decode (.opw24 0x3201D9#24) = .ok (.writeFuse .high 0xD9#8) ∧ decode (.opw24 0x340001#24) = .ok (.writeFuseDefaults true) ∧
  decode (.frame11 0x262#11) = .ok (.frameData 0x62#8) ∧ decode (.bselRead 0b11#2) = .ok .bselRdHigh ∧
  decode (.bselWriteFuse 0b10#2) = .ok .bselWrHigh ∧ decode (.bselWriteLock 0b10#2) = .ok (.bselWrLock false) ∧
  decode (.cmd8 params.cmdWriteLock) = .ok .cmdWriteLock

/-- Every well-formed instruction, with every operand, is what its own word decodes to, whatever the five distinct
command bytes are (R50 to R57). The formats of words and the words of the line-level rows are the model's (log 17, 19). -/
def Obligations.DecodeOfEncode : Prop :=
  ∀ i : Instr, i.wellFormed = true → decode (encode i) = .ok i

/-- Every word that decodes is the word of the instruction it decodes to, which is well formed: no two words share a
meaning and no bit is ignored (R50 to R58). That a word of another format than `OPW24` outside its table does not decode
is the model's choice (log 28). -/
def Obligations.EncodeOfDecode : Prop :=
  ∀ (w : CodeWord) (i : Instr), decode w = .ok i → i.wellFormed = true ∧ encode i = w

/-- An operation word is legal exactly when it is in a row of the table of R56, the word `WRITE_FUSE` with the location
Lock excepted (R58 (c), C7). -/
def Obligations.LegalOperationWords : Prop :=
  ∀ w : Word24, (∃ i : Instr, decode (.opw24 w) = .ok i) ↔
    (opw24Rows.any (fun r => r.covers w) = true ∧ ¬(opField w = 0x32#8 ∧ aField w = 3#8))

/-- No operation word is in two rows of the table. -/
def Obligations.RowsAreDisjoint : Prop :=
  ∀ w : Word24, (opw24Rows.filter (fun r => r.covers w)).length ≤ 1

/-! ### The step -/

/-- Between operations after startup, the step takes the first issued word and, when it decodes to `i`, is `exec i`,
after one point at which the countdown may fire. That issued words stand in a list of which a step takes the first and
performs it whole is the model's choice (log 4, 16), and so is the point at the step's beginning (log 7); the spec says
that the host issues operations one at a time, each performed to its end (R13, R105). -/
def Obligations.StepRunsTheDecodedInstruction : Prop :=
  ∀ (s : State) (w : CodeWord) (rest : List CodeWord) (i : Instr), s.seq = none → s.startup = .ended →
    s.issue = w :: rest → decode w = .ok i → step s = exec i { s.countdown with issue := rest }

/-- The step after `withFetchWord` runs the instruction its number stands for, from any state. `withFetchWord`, the
numbering and the word a printed command number stands for are the model's own devices (log 16, 17, 19). -/
def Obligations.StepRunsTheTableWord : Prop :=
  ∀ (s : State) (nbits w : Nat) (i : Instr), decodeTableWord nbits w = some i →
    step (s.withFetchWord nbits w) = exec i { (s.withFetchWord nbits w).countdown with issue := [] }

/-- An illegal word is refused with `IllegalOperation`: it changes no state and no line; it is taken and the host reads
the refusal (R58, R120; log 10). For words of another format than `OPW24` that is the model's choice (log 28). -/
def Obligations.IllegalWordIsRefused : Prop :=
  ∀ (s : State) (w : CodeWord) (rest : List CodeWord) (e : DecodeError), s.seq = none → s.startup = .ended →
    s.issue = w :: rest → decode w = .error e →
    step s = .next { s.countdown with issue := rest, result := .refused .illegalOperation }

/-- The startup program: the mode input, then `QUIESCE`, then `IDENTIFY`, whatever the lines were (R141, R142). Its
division into three steps is the model's choice (log 16). -/
def Obligations.StartupProgram : Prop :=
  ∀ s : State, s.seq = none → s.startup = .sampleModeInput → s.modeInput = true → s.tmRun = false →
    ∃ (a b c : State) (exit identify : List Event) (b0 b1 b2 : Byte),
      step s = .next a ∧ step a = .next b ∧ step b = .next c ∧
      a.tr = s.tr ∧ Performed a b exit ∧ QuiesceEvents exit ∧ Quiesced b ∧
      Performed b c identify ∧ IdentifyEvents params b0 b1 b2 identify ∧ Quiesced c ∧
      c.startup = .ended ∧ c.seq = none ∧ c.session = false ∧ c.tmRun = false ∧ c.tmFlag = s.tmFlag ∧
      (c.engState = .deviceKnown ∨ c.engState = .deviceUnknown) ∧ (c.engState = .deviceKnown ↔ c.sel.isSome = true)

/-- With the mode input selecting the other protocol the machine has no step before the startup program (R141, U16). -/
def Obligations.OtherModeIsStuck : Prop :=
  ∀ s : State, s.seq = none → s.startup = .sampleModeInput → s.modeInput = false → step s = .refused .otherModeSelected

/-- A model fault stops the operation at the faulting micro-step and is never cleared: the state it leaves stands
inside the operation, behind as many micro-steps as the trace has gained events of the sequencer, and has no step
(R27, R124). That the state is kept at all is the model's choice (log 11). -/
def Obligations.FaultStopsAtTheMicroStep : Prop :=
  ∀ (i : Instr) (s : State) (f : Fault), exec i s = .fault f →
    ∃ evs : List Event, Performed s f.left evs ∧ f.left.seq = some { op := i, index := evs.length } ∧
      step f.left = .fault (.halted f.left)

/-- The values R31 gives for reset; those of `TM.FLAG` and `SEL` are the spec's own choice. -/
def Obligations.ResetValues : Prop :=
  State.reset.tmFlag = false ∧ State.reset.tmRun = false ∧ State.reset.session = false ∧
  State.reset.engState = .awaitingDeviceId ∧ State.reset.sel = none ∧ State.reset.seq = none ∧ State.reset.tr = []

/-! ### The line primitives -/

/-- `SET(l, v)`: on a power-enable line, or a protocol line that is an output, the level latch alone is written and one
event recorded, whatever the level was; on any other line it faults with that line (R61). -/
def Obligations.SetRule : Prop :=
  ∀ (W : World) (l : Line) (v : Level) (s : State),
    ((∀ p, l = .protocol p → s.dirOf p = .output) →
      ∃ t : State, microStep W (.set l v) s = .ok t ∧ t.lvlOf l = some v ∧ (∀ k, k ≠ l → t.lvlOf k = s.lvlOf k) ∧
        t.dirOf = s.dirOf ∧ Performed s t [.set l v]) ∧
    (∀ p, l = .protocol p → s.dirOf p ≠ .output →
      ∃ left : State, microStep W (.set l v) s = .error (.lineDirection l left) ∧ left.dirOf = s.dirOf ∧
        left.lvlOf = s.lvlOf ∧ Performed s left [])

/-- `DRV(l, v)`: an output at level `v` afterwards; `REL(l)`: an input without a level afterwards; both from any state of
the line, no other line changed, one event (R60, R62). -/
def Obligations.DrvAndRelRule : Prop :=
  ∀ (W : World) (l : PLine) (s : State),
    (∀ v : Level, ∃ t : State, microStep W (.drv l v) s = .ok t ∧ t.dirOf l = .output ∧ t.lvlOf (.protocol l) = some v ∧
      LinesKeptBut [.protocol l] s t ∧ Performed s t [.drv l v]) ∧
    (∃ t : State, microStep W (.rel l) s = .ok t ∧ t.dirOf l = .input ∧ t.lvlOf (.protocol l) = none ∧
      LinesKeptBut [.protocol l] s t ∧ Performed s t [.rel l])

/-- `SMP(l)`: on an input, the environment's answer to the trace so far and one event that carries it, no line changed;
on any other line a fault with that line (R63). -/
def Obligations.SmpRule : Prop :=
  ∀ (W : World) (l : PLine) (s : State),
    (s.dirOf l = .input → ∃ (t : State) (history : List Event), sample W l s = .ok (W.answer history l, t) ∧
      t.tr = history ++ [.smp l (W.answer history l)] ∧ Performed s t [.smp l (W.answer history l)] ∧
      t.dirOf = s.dirOf ∧ t.lvlOf = s.lvlOf) ∧
    (s.dirOf l ≠ .input → ∃ left : State,
      sample W l s = .error (.lineDirection (.protocol l) left) ∧ Performed s left [])

/-- A point of the countdown: it can do nothing but `TM_FIRE`, and that only while the countdown runs; firing sets the
flag, stops the countdown and touches nothing else but the trace (R94). -/
def Obligations.CountdownRule : Prop :=
  ∀ s : State, s.countdown = { s with fireIn := s.countdown.fireIn } ∨
    (s.tmRun = true ∧
      s.countdown = { s with tmFlag := true, tmRun := false, tr := s.tr ++ [.tmFire], fireIn := s.countdown.fireIn })

/-- The countdown is not postponed for ever: while it runs, finitely many points bring it to fire (R96). -/
def Obligations.CountdownFires : Prop :=
  ∀ s : State, s.tmRun = true → ∃ n : Nat,
    (State.countdown^[n] s).tmFlag = true ∧ (State.countdown^[n] s).tmRun = false ∧
    (State.countdown^[n] s).tr = s.tr ++ [.tmFire]

/-! ### SignalController -/

/-- `QUIESCE`: power off before any release, every line released; `SESSION` false, the other flags alone; it goes
through in every state (R65). -/
def Obligations.QuiesceRule : Prop :=
  decode (.opw24 0x010000#24) = .ok .quiesce ∧
  ∀ s : State, ∃ (t : State) (evs : List Event),
    exec .quiesce s = .next t ∧ t.result = .done ∧ Performed s t evs ∧ QuiesceEvents evs ∧
    Quiesced t ∧ (∀ l : PLine, t.lvlOf (.protocol l) = none) ∧ t.session = false ∧
    t.engState = s.engState ∧ t.sel = s.sel ∧ MonitorOnlyFires s t

/-- `EXIT_PROG` is a `QUIESCE`, with or without a session (R71). -/
def Obligations.ExitProgRule : Prop :=
  decode (.opw24 0x110000#24) = .ok .exitProg ∧
  ∀ s : State, ∃ (t : State) (evs : List Event),
    exec .exitProg s = .next t ∧ t.result = .done ∧ Performed s t evs ∧ QuiesceEvents evs ∧
    Quiesced t ∧ (∀ l : PLine, t.lvlOf (.protocol l) = none) ∧ t.session = false ∧
    t.engState = s.engState ∧ t.sel = s.sel ∧ MonitorOnlyFires s t

/-- `ARM`: its eight drives in every state, the data lines and the supplies untouched, no flag written (R66). -/
def Obligations.ArmRule : Prop :=
  decode (.opw24 0x020000#24) = .ok .arm ∧
  ∀ s : State, ∃ (t : State) (evs : List Event),
    exec .arm s = .next t ∧ t.result = .done ∧ Performed s t evs ∧ ArmEvents evs ∧ Armed t ∧
    LinesKeptBut (controlLines.map .protocol) s t ∧ FlagsKept s t

/-! ### Byte framer -/

/-- `ENTER_PROG`: without a session it opens one, supply before elevated voltage before the release of `RDY`, each with
its wait, and ends `InSession` with the control levels of `ARM`; with one it is a `SessionFault` before any event (R70). -/
def Obligations.EnterProgRule : Prop :=
  decode (.opw24 0x100000#24) = .ok .enterProg ∧
  (∀ s : State, s.session = false → ∃ (t : State) (evs : List Event),
    exec .enterProg s = .next t ∧ t.result = .done ∧ Performed s t evs ∧
    EnterEvents evs ∧ InSession t ∧ t.drives .wr true ∧ t.drives .oe true ∧ t.drives .ms1 false ∧
    t.drives .ms0 false ∧
    t.drives .bs1 false ∧ t.drives .bs0 false ∧ t.drives .clk false ∧
    LinesKeptBut (controlLines.map .protocol ++ [.vccEn, .vppEn]) s t ∧
    t.engState = s.engState ∧ t.sel = s.sel ∧ MonitorOnlyFires s t) ∧
  (∀ s : State, s.session = true → ∃ left : State, exec .enterProg s = .fault (.sessionActive left) ∧ left.tr = s.tr ∧
    left.dirOf = s.dirOf ∧ left.lvlOf = s.lvlOf)

/-- The load operations frame their byte, for every byte: `LOAD_COMMAND` with the tuple (1,0,0), `LOAD_ADDRESS_LOW` with
(0,0,0), `LOAD_DATA` with (0,1,0), all of which write `BS[1]` to 0 (R72, R73, R74, R80). -/
def Obligations.LoadOperationsRule : Prop :=
  ∀ x : Byte,
    (decode (.opw24 (0x1200#16 ++ x)) = .ok (.loadCommand x) ∧ FramesByte (.loadCommand x) true false false x) ∧
    (decode (.opw24 (0x1300#16 ++ x)) = .ok (.loadAddressLow x) ∧ FramesByte (.loadAddressLow x) false false false x) ∧
    (decode (.opw24 (0x1400#16 ++ x)) = .ok (.loadData x) ∧ FramesByte (.loadData x) false true false x)

/-- The three rows of `FRAME11` put their frame on the wires, and the five rows of `CMD8` the configured command byte in a
command frame (R51, R54). That each acts as the load operation is the model's choice (log 18, 19). -/
def Obligations.FrameAndCommandRows : Prop :=
  (∀ d : Byte, FramesByte (.frameCommand d) true false false d ∧ FramesByte (.frameAddressLow d) false false false d ∧
    FramesByte (.frameData d) false true false d) ∧
  FramesByte .cmdChipErase true false false params.cmdChipErase ∧
  FramesByte .cmdWriteFuse true false false params.cmdWriteFuse ∧
  FramesByte .cmdWriteLock true false false params.cmdWriteLock ∧
  FramesByte .cmdReadSignature true false false params.cmdReadSignature ∧
  FramesByte .cmdReadFuse true false false params.cmdReadFuse

/-- At the one clock pulse of a framed byte the eleven lines of `FRAME11` stand at the tuple and the byte, all driven by
the block, and the data lines are set before the clock rises (R44, R51, R75). That the `FRAME11` and `CMD8` rows are
instructions that frame their byte is the model's choice (log 18, 19). -/
def Obligations.FrameStandsAtTheClockPulse : Prop :=
  ∀ (i : Instr) (m1 m0 b1 : Level) (x : Byte) (s : State), framedByte i = some (m1, m0, b1, x) → FramingOutputs s →
    ∃ (t : State) (before after : List Event),
      exec i s = .next t ∧ t.tr = s.tr ++ (before ++ .set (.protocol .clk) true :: after) ∧
      .set (.protocol .clk) true ∉ before ∧ .set (.protocol .clk) true ∉ after ∧
      wireAt s before (.protocol .ms1) = some m1 ∧ wireAt s before (.protocol .ms0) = some m0 ∧
      wireAt s before (.protocol .bs1) = some b1 ∧ ByteOnWires s before x

/-- `TRANSMIT_BYTE(x)`: bit i on `D[i]`, then the clock pulse; the mode tuple and the byte-select lines stay as the
caller left them; without `CLK` as an output a fault at `CLK` (R75). -/
def Obligations.TransmitByteRule : Prop :=
  ∀ x : Byte, decode (.opw24 (0x1500#16 ++ x)) = .ok (.transmitByte x) ∧
    ∀ s : State, FaultsAt [.clk] (.transmitByte x) s ∧
      (s.dirOf .clk = .output → ∃ (t : State) (evs : List Event),
        exec (.transmitByte x) s = .next t ∧ t.result = .done ∧ Performed s t evs ∧
        TransmitEvents x evs ∧ t.drivenByte = some x ∧ t.drives .clk false ∧
        LinesKeptBut (dataLines.map .protocol ++ [.protocol .clk]) s t ∧ FlagsKept s t)

/-- `RECEIVE_BYTE`: the byte of the eight samples, line 7 first, each line released just before it is sampled; data lines
inputs and `OE` at 1 afterwards; without `OE` as an output a fault at `OE` (R76). -/
def Obligations.ReceiveByteRule : Prop :=
  decode (.opw24 0x160000#24) = .ok .receiveByte ∧
  ∀ s : State, FaultsAt [.oe] .receiveByte s ∧
    (s.dirOf .oe = .output → ∃ (t : State) (evs : List Event) (x : Byte),
      exec .receiveByte s = .next t ∧ t.result = .byte x ∧ t.rx = x ∧
      Performed s t evs ∧ ReceiveEvents x evs ∧ (∀ l ∈ dataLines, t.dirOf l = .input ∧ t.lvlOf (.protocol l) = none) ∧
      t.drives .oe true ∧ LinesKeptBut (dataLines.map .protocol ++ [.protocol .oe]) s t ∧ FlagsKept s t)

/-- `BSEL_SET(p1, p0)`: `BS[1]` at `p1`, then `BS[0]` at `p0` (R77). -/
def Obligations.BselSetRule : Prop :=
  ∀ p1 p0 : Level, decode (.opw24 (0x17000#20 ++ (0#2 ++ BitVec.ofBool p1 ++ BitVec.ofBool p0 : BitVec 4))) = .ok (.bselSet p1 p0) ∧
    SelectsPair (.bselSet p1 p0) p1 p0

/-- `BSEL_CLEAR`: both byte-select lines 0 (R78). -/
def Obligations.BselClearRule : Prop :=
  decode (.opw24 0x180000#24) = .ok .bselClear ∧ SelectsPair .bselClear false false

/-- `BS1_HIGH`: `BS[1]` at 1, `BS[0]` not written (R79). -/
def Obligations.Bs1HighRule : Prop :=
  decode (.opw24 0x190000#24) = .ok .bs1High ∧ RaisesBs1 .bs1High

/-- The rows of `BSEL2` put their pair on the byte-select lines, by the read table and by the write table, which differ
at High and at Lock (R52, R53). That each acts as the byte-select step is the model's choice (log 18, 20). -/
def Obligations.ByteSelectRows : Prop :=
  SelectsPair .bselRdLow false false ∧ SelectsPair .bselRdHigh true true ∧ SelectsPair .bselRdExtended false true ∧
  SelectsPair .bselRdLock true false ∧ SelectsPair .bselWrLow false false ∧ SelectsPair .bselWrHigh true false ∧
  SelectsPair .bselWrExtended false true ∧ ∀ u : Level, RaisesBs1 (.bselWrLock u)

/-! ### TimeoutMonitor and guard -/

/-- `TM_ARM(n)`: the flag cleared, the deadline taken, one countdown running, in every state; no line touched (R90). -/
def Obligations.TmArmRule : Prop :=
  ∀ n : BitVec 16, decode (.opw24 (0x20#8 ++ n)) = .ok (.tmArm n) ∧
    ∀ s : State, ∃ t : State,
      exec (.tmArm n) s = .next t ∧ t.result = .done ∧ Performed s t [.tmArm n] ∧ t.tmFlag = false ∧
      t.tmDeadline = n ∧ t.tmRun = true ∧ LinesKeptBut [] s t ∧ t.session = s.session ∧ t.engState = s.engState ∧
      t.sel = s.sel

/-- `TM_DISARM`: the countdown stopped, the flag as it was, true or false, in every state; only the countdown itself may
have fired before (R91). -/
def Obligations.TmDisarmRule : Prop :=
  decode (.opw24 0x210000#24) = .ok .tmDisarm ∧
  ∀ s : State, ∃ (t : State) (added : List Event),
    exec .tmDisarm s = .next t ∧ t.result = .done ∧ t.tr = s.tr ++ (added ++ [.tmDisarm]) ∧
    ((added = [] ∧ t.tmFlag = s.tmFlag) ∨ (added = [.tmFire] ∧ s.tmRun = true ∧ t.tmFlag = true)) ∧
    t.tmRun = false ∧ t.tmDeadline = s.tmDeadline ∧ LinesKeptBut [] s t ∧ t.session = s.session ∧
    t.engState = s.engState ∧ t.sel = s.sel

/-- `TM_TIMED_OUT` returns the flag; no event, no state change (R92). -/
def Obligations.TmTimedOutRule : Prop :=
  decode (.opw24 0x220000#24) = .ok .tmTimedOut ∧
  ∀ s : State, exec .tmTimedOut s = .next { s with seq := none, result := .flag s.tmFlag }

/-- `WR_GUARD`: arm for 200 ms, the commit pulse, the settle, at least one poll, disarm. The result is `TimedOut` exactly
when the flag is true in the last poll, that is when the countdown fired after the arm; it never fires between the last
poll and the disarm; every poll but the last read not ready; without `WR` an output a fault at `WR` with the monitor armed,
without `RDY` an input a fault at `RDY` (R93, R95, R98, R99). That nothing fires between the last poll and the disarm is
R95's own choice of two readings, which the model takes (log 7). -/
def Obligations.WrGuardRule : Prop :=
  decode (.opw24 0x280000#24) = .ok .wrGuard ∧
  ∀ s : State,
    (s.dirOf .wr = .output → s.dirOf .rdy = .input →
      ∃ (t : State) (g : GuardResult) (polls : List Level) (evs early late : List Event) (r : Level),
        exec .wrGuard s = .next t ∧ t.result = .guard g ∧ Performed s t evs ∧ GuardEvents polls evs ∧
        t.tr = s.tr ++ (early ++ .tmArm 200#16 :: (late ++ [.smp .rdy r, .tmDisarm])) ∧
        (early = [] ∨ early = [.tmFire]) ∧ PollsFit params.rdyReadyLevel polls g ∧
        (g = .timedOut ↔ Event.tmFire ∈ late) ∧ (g = .timedOut ↔ t.tmFlag = true) ∧ t.tmRun = false ∧
        t.tmDeadline = 200#16 ∧ t.drives .wr true ∧ LinesKeptBut [.protocol .wr] s t ∧
        t.session = s.session ∧ t.engState = s.engState ∧ t.sel = s.sel) ∧
    (s.dirOf .wr ≠ .output → ∃ left : State, exec .wrGuard s = .fault (.lineDirection (.protocol .wr) left) ∧
      Performed s left [.tmArm 200#16] ∧ left.tmDeadline = 200#16 ∧ (left.tmRun = true ∨ left.tmFlag = true)) ∧
    (s.dirOf .wr = .output → s.dirOf .rdy ≠ .input →
      ∃ left : State, exec .wrGuard s = .fault (.lineDirection (.protocol .rdy) left) ∧
        Performed s left [.tmArm 200#16, .set (.protocol .wr) false, .set (.protocol .wr) true, .dly .wrSettle])

/-- The timed refinement: in a guard whose trace carries times that keep the waits and fire the countdown at its deadline,
the result is `TimedOut` exactly when the last poll comes 200 ms or more after the arm, and every earlier poll comes
sooner; so a poll that reads ready in time makes it `Ready`, and the first poll at or after 200 ms ends it (R97). That
the refinement is a predicate on traces stamped in whole microseconds, with waits of whole microseconds, is the model's
choice (log 21, 30), and so is that of a last poll and its disarm the poll's stamp is held against the deadline (log 29). -/
def Obligations.TimedGuard : Prop :=
  ∀ (W : World) (s t : State) (g : GuardResult) (stamped : Stamped), wrGuard W s = .ok (g, t) →
    stamped.map Prod.snd = t.tr → TimedRun W.params stamped →
    ∃ (before during : Stamped) (armedAt polledAt disarmedAt : Nat) (r : Level),
      stamped = before ++ (armedAt, .tmArm 200#16) :: (during ++ [(polledAt, .smp .rdy r), (disarmedAt, .tmDisarm)]) ∧
      (before.map Prod.snd = s.tr ∨ before.map Prod.snd = s.tr ++ [.tmFire]) ∧
      (g = .timedOut ↔ armedAt + 200000 ≤ polledAt) ∧ (g = .ready → r = W.params.rdyReadyLevel) ∧
      ∀ e ∈ during, ∀ v, e.2 = .smp .rdy v → e.1 < armedAt + 200000 ∧ v ≠ W.params.rdyReadyLevel

/-! ### Engine operations -/

/-- `IDENTIFY`, from any engine state, without a session: the three bytes read at the addresses 0, 1, 2 folded big-endian,
the registry entry of that signature or none, `SEL` and `ENG.STATE` set accordingly, the lines quiesced, the monitor not
touched; in a session a `SessionFault` before any line event (R110). -/
def Obligations.IdentifyRule : Prop :=
  decode (.opw24 0x300000#24) = .ok .identify ∧
  (∀ s : State, s.session = true → ∃ left : State, exec .identify s = .fault (.sessionActive left) ∧ left.tr = s.tr) ∧
  ∀ s : State, s.session = false → ∃ (t : State) (evs : List Event) (b0 b1 b2 : Byte), exec .identify s = .next t ∧
    t.result = .identified t.acc t.sel ∧ t.acc = (b0 ++ b1 ++ b2 : BitVec 24) ∧ Performed s t evs ∧
    IdentifyEvents params b0 b1 b2 evs ∧
    (∀ d, t.sel = some d → d ∈ params.registry ∧ d.signature = t.acc) ∧
    (t.sel = none → ∀ d ∈ params.registry, d.signature ≠ t.acc) ∧
    (t.engState = if t.sel.isSome then .deviceKnown else .deviceUnknown) ∧
    Quiesced t ∧ t.session = false ∧ MonitorOnlyFires s t

/-- `READ_FUSE(loc)` in `DeviceKnown` without a session: the byte the read program received, for each of the four
locations with its pair of the read table; no flag but the session's, the monitor not touched (R107, R111). -/
def Obligations.ReadFuseRule : Prop :=
  ∀ (loc : FuseLocation), decode (.opw24 (0x31#8 ++ loc.code ++ 0#8)) = .ok (.readFuse loc) ∧
    ∀ s : State, s.engState = .deviceKnown → s.session = false → ∃ (t : State) (evs : List Event) (x : Byte),
      exec (.readFuse loc) s = .next t ∧
      t.result = .byte x ∧ Performed s t evs ∧ ReadRawEvents params loc x evs ∧ Quiesced t ∧ FlagsKept s t

/-- `WRITE_FUSE` and `WRITE_LOCK` in `DeviceKnown` without a session: attempts under the policy of R112, at most four, a
timeout or a match ending them; each with its whole session and its read-back, also after a timeout; an attempt timed out
exactly when the countdown fired between its own arm and its last poll, though `RDY` read ready there too (R95; log 7);
the last read-back returned and left in `RB`, the count in `ATT`, the flag that of the last guard; engine state and
selection kept (R112, R114). -/
def Obligations.WriteRule : Prop :=
  ∀ (i : Instr) (cmd : Byte) (loc : FuseLocation) (value : Byte) (s : State), singleWrite i = some (cmd, loc, value) →
    s.engState = .deviceKnown → s.session = false →
    ∃ (t : State) (added : List Event) (before : List Attempt) (last : Attempt),
      exec i s = .next t ∧ t.result = .byte last.readBack ∧ t.tr = s.tr ++ added ∧
      WriteAttemptsEvents params cmd loc value (before ++ [last]) added ∧ WritePolicy value (before ++ [last]) ∧
      t.att = before.length + 1 ∧ t.rb = last.readBack ∧ (t.tmFlag = true ↔ last.guard = .timedOut) ∧
      t.tmRun = false ∧ t.tmDeadline = 200#16 ∧ Quiesced t ∧ t.session = false ∧
      t.engState = s.engState ∧ t.sel = s.sel

/-- `WRITE_FUSE` with the location Lock is refused with `IllegalOperation`, before the engine state is looked at, and
touches nothing (R58, R127 (a), C7). -/
def Obligations.WriteFuseLockIsIllegal : Prop :=
  ∀ (value : Byte) (s : State), exec (.writeFuse .lock value) s = .next { s with result := .refused .illegalOperation }

/-- The status of a write, computed from the flag and the byte returned: `WriteTimeout` exactly when the flag is true,
`VerifyMismatch` exactly when it is false and the byte differs, which implies that all four attempts were made (R113, R123). -/
def Obligations.StatusOfAWrite : Prop :=
  ∀ (i : Instr) (cmd : Byte) (loc : FuseLocation) (value : Byte) (s : State), singleWrite i = some (cmd, loc, value) →
    s.engState = .deviceKnown → s.session = false →
    ∃ t : State, exec i s = .next t ∧
      (reportedFailure i t = some .writeTimeout ↔ t.tmFlag = true) ∧
      (reportedFailure i t = some .verifyMismatch ↔ t.tmFlag = false ∧ t.result ≠ .byte value) ∧
      (reportedFailure i t = none ↔ t.tmFlag = false ∧ t.result = .byte value) ∧
      (reportedFailure i t = some .verifyMismatch → t.att = 4)

/-- `WRITE_FUSE_DEFAULTS(u)` with a selected entry: Low, High, Extended in that order with the bytes of the set `u`
selects, each with its own budget of attempts, stopping at the first timeout or mismatch, which is the status; an attempt
timed out exactly when the countdown fired between its own arm and its last poll (R95, R115; log 7). -/
def Obligations.WriteFuseDefaultsRule : Prop :=
  ∀ (u : Bool), decode (.opw24 (0x3400#16 ++ (0#7 ++ BitVec.ofBool u : BitVec 8) : BitVec 24)) = .ok (.writeFuseDefaults u) ∧
    ∀ (s : State) (d : DeviceDescriptor), s.engState = .deviceKnown → s.sel = some d → s.session = false →
      ∃ (t : State) (added : List Event) (writes : List (FuseLocation × Byte × Attempt)),
        exec (.writeFuseDefaults u) s = .next t ∧
        t.result = .defaults (statusOfWrites writes) ∧
        t.tr = s.tr ++ added ∧
        DefaultsRun params
          (if u then [(.low, d.bootloaderFuse.low), (.high, d.bootloaderFuse.high), (.extended, d.bootloaderFuse.extended)]
           else [(.low, d.defaultFuse.low), (.high, d.defaultFuse.high), (.extended, d.defaultFuse.extended)]) writes added ∧
        (∀ w, writes.getLast? = some w → (t.tmFlag = true ↔ w.2.2.guard = .timedOut) ∧ t.rb = w.2.2.readBack) ∧
        t.tmRun = false ∧ Quiesced t ∧ t.session = false ∧ t.engState = s.engState ∧ t.sel = s.sel

/-- `ERASE_DEVICE` in `DeviceKnown` without a session: another attempt only after a timeout, at most four; the last
guard's result returned; the flag true exactly when that is `TimedOut`, that is when all four timed out; no verification.
An attempt timed out exactly when the countdown fired between its own arm and its last poll (R95, R116; log 7). -/
def Obligations.EraseDeviceRule : Prop :=
  decode (.opw24 0x350000#24) = .ok .eraseDevice ∧
  ∀ s : State, s.engState = .deviceKnown → s.session = false →
    ∃ (t : State) (added : List Event) (before : List Attempt) (last : Attempt),
      exec .eraseDevice s = .next t ∧ t.result = .guard last.guard ∧ t.tr = s.tr ++ added ∧
      EraseAttemptsEvents params (before ++ [last]) added ∧ ErasePolicy (before ++ [last]) ∧
      t.att = before.length + 1 ∧ (t.tmFlag = true ↔ last.guard = .timedOut) ∧ t.tmRun = false ∧
      Quiesced t ∧ t.session = false ∧ t.engState = s.engState ∧ t.sel = s.sel

/-- The five gated operations outside `DeviceKnown` are refused with `UnknownDevice` and touch nothing; in `DeviceKnown`,
with an entry selected and no session, they are never refused; `IDENTIFY` is refused from no state (R106, R121). That
`WRITE_FUSE` with the location Lock is none of them is R127 (a). -/
def Obligations.GateRule : Prop :=
  (∀ (i : Instr) (s : State), engineOperation i = true → i ≠ .identify → i.wellFormed = true →
    (s.engState ≠ .deviceKnown → exec i s = .next { s with result := .refused .unknownDevice }) ∧
    (s.engState = .deviceKnown → s.sel.isSome = true → s.session = false →
      ∃ t : State, exec i s = .next t ∧ ∀ e, t.result ≠ .refused e)) ∧
  ∀ s : State, s.session = false → ∃ t : State, exec .identify s = .next t ∧ ∀ e, t.result ≠ .refused e

/-- An engine operation issued while a session is open is a `SessionFault`, before it has touched any line (R70, R110). -/
def Obligations.EngineOperationInASessionFaults : Prop :=
  ∀ (i : Instr) (s : State), engineOperation i = true → i.wellFormed = true → s.session = true →
    s.engState = .deviceKnown → s.sel.isSome = true →
    ∃ left : State, exec i s = .fault (.sessionActive left) ∧ left.dirOf = s.dirOf ∧ left.lvlOf = s.lvlOf

/-- Every engine operation issued without a session answers a next state: none faults, whatever the lines were; and it
ends quiesced, with no session and no countdown running unless it was refused (R119, R124, R128). -/
def Obligations.EngineOperationsEndQuiesced : Prop :=
  ∀ (i : Instr) (s : State), engineOperation i = true → s.session = false → s.tmRun = false →
    ∃ t : State, exec i s = .next t ∧
      ((∃ e, t = { s with result := .refused e }) ∨ (Quiesced t ∧ t.session = false ∧ t.tmRun = false ∧ t.seq = none))

/-- At every commit pulse of a write the byte-select lines stand at the write table's pair, the mode lines at the data
tuple and the data lines at the value, whatever the number of attempts (R53, R112, R114, R151). -/
def Obligations.SelectionStandsAtTheCommitPulse : Prop :=
  ∀ (i : Instr) (cmd : Byte) (loc : FuseLocation) (value : Byte) (s : State), singleWrite i = some (cmd, loc, value) →
    s.engState = .deviceKnown → s.session = false →
    ∃ (t : State) (added : List Event), exec i s = .next t ∧ t.tr = s.tr ++ added ∧ .set (.protocol .wr) true ∈ added ∧
      ∀ before after, added = before ++ .set (.protocol .wr) true :: after →
        wireAt s before (.protocol .bs1) = some (decide (loc = .high ∨ loc = .lock)) ∧
        wireAt s before (.protocol .bs0) = some (decide (loc = .extended)) ∧
        wireAt s before (.protocol .ms1) = some false ∧ wireAt s before (.protocol .ms0) = some true ∧
        wireAt s before .vccEn = some true ∧ wireAt s before .vppEn = some true ∧ ByteOnWires s before value

/-- A write or an erase gives as many commit pulses as it makes attempts, at least one and at most four (R112, R116, E5). -/
def Obligations.AtMostFourCommitPulses : Prop :=
  ∀ (i : Instr) (s : State), (∃ w, singleWrite i = some w) ∨ i = .eraseDevice → s.engState = .deviceKnown →
    s.session = false →
    ∃ (t : State) (added : List Event),
      exec i s = .next t ∧ t.tr = s.tr ++ added ∧ commitPulses added = t.att ∧ 1 ≤ t.att ∧ t.att ≤ 4

/-! ### The configuration -/

/-- The parameters meet the requirements of R8 and R118, whatever they are. That a record not meeting them is replaced by
the spec's defaults is the model's choice (log 14), and so is that the waits are whole microseconds (log 30). -/
def Obligations.ParametersAreValid : Prop := params.Valid

/-- The lookup is exact: it finds every registry entry by its signature, and only that entry (R10, R118, E6). -/
def Obligations.LookupIsExact : Prop :=
  ∀ (signature : Word24) (d : DeviceDescriptor),
    lookup params.registry signature = some d ↔ d ∈ params.registry ∧ d.signature = signature

/-! ### The whole machine -/

/-- Frame of the lines: an operation that answers a next state changes no direction and no level of a line it does not
write (R65 to R80, R90 to R93, R110 to R116). -/
def Obligations.UnwrittenLinesKeep : Prop :=
  ∀ (i : Instr) (s t : State), exec i s = .next t → LinesKeptBut (writtenLines i) s t

/-- Frame of the registers: an operation that answers a next state changes none of `RX`, `ACC`, `ATT`, `RB`, the monitor,
`SESSION`, `ENG.STATE` and `SEL` but those its rule names, the countdown's own firing apart; and never the mode input, the
startup position or the words still to come. That `RX`, `ACC`, `ATT` and `RB` keep a value between operations is the
model's choice (log 2). -/
def Obligations.UnwrittenRegistersKeep : Prop :=
  ∀ (i : Instr) (s t : State), exec i s = .next t →
    (∀ r : Register, r ∉ writtenRegisters i → r.KeptIn s t) ∧
    t.modeInput = s.modeInput ∧ t.startup = s.startup ∧ t.issue = s.issue

/-- The event trace only grows, and what it gains explains every change of the lines and of the monitor's bits: no
direction, no level, no flag changes without its event (R14, R15, R22, R23, R28, R47). -/
def Obligations.ChangesHaveEvents : Prop :=
  ∀ (i : Instr) (s t : State), exec i s = .next t → ∃ added : List Event, t.tr = s.tr ++ added ∧ Explained s t added

/-- Every sample an operation records is the environment's answer to the whole trace before it, and is of `RDY` or of a
data line (R28, R63). -/
def Obligations.SamplesAreTheEnvironmentsAnswers : Prop :=
  ∀ (i : Instr) (s t : State), exec i s = .next t → ∃ added : List Event, t.tr = s.tr ++ added ∧
    ∀ before l v after, added = before ++ .smp l v :: after →
      v = sampleAnswer (s.tr ++ before) l ∧ (l = .rdy ∨ l ∈ dataLines)

/-- Every step keeps the invariant of the state between operations, whatever words the host issues (R15, R20, R26, R27,
R32, R81). -/
def Obligations.StepKeepsCoherent : Prop :=
  ∀ s t : State, Coherent s → step s = .next t → Coherent t

/-- Every step keeps the trace's explanation of the lines and the monitor, from reset on (R28). -/
def Obligations.StepKeepsTraceExplained : Prop :=
  ∀ s t : State, TraceExplains s → step s = .next t → TraceExplains t

/-- Every step keeps the power order: the elevated voltage is raised only while the logic supply is on (R135, R153). -/
def Obligations.StepKeepsPowerOrder : Prop :=
  ∀ s t : State, SupplyFirst s.tr → step s = .next t → SupplyFirst t.tr

/-- Reset meets the three invariants. It rests on the model's values of the lines and of `ATT` at reset (log 1, 2). -/
def Obligations.ResetMeetsTheInvariants : Prop :=
  Coherent State.reset ∧ TraceExplains State.reset ∧ SupplyFirst State.reset.tr

/-- With a host that issues only the engine operations and `QUIESCE`, or words that are illegal, every step after startup
answers a next state and keeps the lines quiesced, no session, no countdown (R33, E10). -/
def Obligations.EngineHostStaysQuiesced : Prop :=
  ∀ s : State, Restful s → ∃ t : State, step s = .next t ∧ Restful t

end
end

