-- ==== Sys2Proof/Laws/Encoding.lean ====
section
/-! SUPPORT. The fields of the formats, put together and taken apart again, and the configured commands (30_encoding.md R50, R51, R54, R56, R57). -/

namespace Sys2Proof

@[simp] theorem opField_pack (op a b : Byte) : opField (packOpw24 op a b) = op := by
  apply BitVec.eq_of_getLsbD_eq
  intro i hi
  simp only [opField, packOpw24, BitVec.getLsbD_append, BitVec.getLsbD_extractLsb']
  simp [hi, show ¬ 16 + i < 8 by omega, show ¬ 16 + i - 8 < 8 by omega, show 16 + i - 8 - 8 = i by omega]

@[simp] theorem aField_pack (op a b : Byte) : aField (packOpw24 op a b) = a := by
  apply BitVec.eq_of_getLsbD_eq
  intro i hi
  simp only [aField, packOpw24, BitVec.getLsbD_append, BitVec.getLsbD_extractLsb']
  simp [hi]

@[simp] theorem bField_pack (op a b : Byte) : bField (packOpw24 op a b) = b := by
  apply BitVec.eq_of_getLsbD_eq
  intro i hi
  simp only [bField, packOpw24, BitVec.getLsbD_append, BitVec.getLsbD_extractLsb']
  simp [hi]

/-- A word is its three fields (R56). -/
theorem pack_fields (w : Word24) : packOpw24 (opField w) (aField w) (bField w) = w := by
  apply BitVec.eq_of_getLsbD_eq
  intro i hi
  simp only [bField, aField, opField, packOpw24, BitVec.getLsbD_append, BitVec.getLsbD_extractLsb']
  by_cases h1 : i < 8
  · simp [h1]
  · by_cases h2 : i < 16
    · simp [h1, show i - 8 < 8 by omega, show 8 + (i - 8) = i by omega]
    · simp [h1, show ¬ i - 8 < 8 by omega, show i - 8 - 8 < 8 by omega, show 16 + (i - 8 - 8) = i by omega]

/-- Masking a word masks its fields. -/
theorem pack_and (op a b m n k : Byte) :
    packOpw24 op a b &&& packOpw24 m n k = packOpw24 (op &&& m) (a &&& n) (b &&& k) := by
  apply BitVec.eq_of_getLsbD_eq
  intro i hi
  simp only [packOpw24, BitVec.getLsbD_append, BitVec.getLsbD_and]
  by_cases h1 : i < 8
  · simp [h1]
  · by_cases h2 : i - 8 < 8 <;> simp [h1, h2]

/-- The deadline of `TM_ARM` is its two operand bytes (R57 (a)). -/
theorem deadline_bytes (n : BitVec 16) : (n.extractLsb' 8 8 ++ n.extractLsb' 0 8 : BitVec 16) = n := by
  apply BitVec.eq_of_getLsbD_eq
  intro i hi
  simp only [BitVec.getLsbD_append, BitVec.getLsbD_extractLsb']
  by_cases h : i < 8
  · simp [h]
  · simp [h, show i - 8 < 8 by omega, show 8 + (i - 8) = i by omega]

/-- The two operand bytes of a deadline. -/
theorem bytes_deadline (a b : Byte) :
    (a ++ b : BitVec 16).extractLsb' 8 8 = a ∧ (a ++ b : BitVec 16).extractLsb' 0 8 = b := by
  constructor <;>
  · apply BitVec.eq_of_getLsbD_eq
    intro i hi
    simp only [BitVec.getLsbD_append, BitVec.getLsbD_extractLsb']
    simp [hi]

/-- The tuple and the byte of a frame (R51). -/
theorem frame_fields (t : BitVec 3) (d : Byte) :
    (t ++ d : BitVec 11).extractLsb' 8 3 = t ∧ (t ++ d : BitVec 11).extractLsb' 0 8 = d := by
  constructor <;>
  · apply BitVec.eq_of_getLsbD_eq
    intro i hi
    simp only [BitVec.getLsbD_append, BitVec.getLsbD_extractLsb']
    simp [hi]

/-- A row that fixes whole fields covers a word by its fields. -/
theorem covers_pack (name : String) (op a b x y z m n k : Byte) :
    OpRow.covers ⟨name, packOpw24 x y z, packOpw24 m n k⟩ (packOpw24 op a b) =
      decide (op &&& m = x ∧ a &&& n = y ∧ b &&& k = z) := by
  have inj : ∀ p q r : Byte, packOpw24 p q r = packOpw24 x y z ↔ p = x ∧ q = y ∧ r = z := by
    intro p q r
    constructor
    · intro h
      exact ⟨by simpa using congrArg opField h, by simpa using congrArg aField h, by simpa using congrArg bField h⟩
    · rintro ⟨rfl, rfl, rfl⟩; rfl
  simp only [OpRow.covers, pack_and, beq_eq_decide, inj]

/-- The five command bytes are pairwise distinct, whatever the configuration: all that is known of them (R54). -/
theorem commands_distinct : Config.params.commands.Nodup := by
  unfold Config.params
  split
  · rename_i h
    obtain ⟨-, -, -, -, -, -, -, -, -, h, -⟩ := h
    exact h
  · decide

/-- A configured command byte decodes to its own command (R54). -/
theorem decode_configured_command :
    decode (.cmd8 Config.params.cmdChipErase) = .ok .cmdChipErase ∧
    decode (.cmd8 Config.params.cmdWriteFuse) = .ok .cmdWriteFuse ∧
    decode (.cmd8 Config.params.cmdWriteLock) = .ok .cmdWriteLock ∧
    decode (.cmd8 Config.params.cmdReadSignature) = .ok .cmdReadSignature ∧
    decode (.cmd8 Config.params.cmdReadFuse) = .ok .cmdReadFuse := by
  have d := commands_distinct
  simp only [Config.Params.commands, List.nodup_cons, List.mem_cons, List.not_mem_nil, or_false, not_or] at d
  obtain ⟨⟨h1, h2, h3, h4⟩, ⟨h5, h6, h7⟩, ⟨h8, h9⟩, h10, -⟩ := d
  simp [decode, decodeCmd8, Ne.symm h1, Ne.symm h8, *]

/-- A printed command is a command row. -/
theorem printedCommand_cases {nbits w : Nat} {i : Instr} (h : printedCommand nbits w = some i) :
    i = .cmdChipErase ∨ i = .cmdWriteFuse ∨ i = .cmdWriteLock ∨ i = .cmdReadSignature ∨ i = .cmdReadFuse := by
  unfold printedCommand at h
  split at h
  · split at h <;> simp_all
  · cases h

/-- `decodeTableWord` is the decoder's answer on the word that is issued (R50 to R58). -/
theorem decodeTableWord_eq (nbits w : Nat) :
    decodeTableWord nbits w = (tableWord nbits w).bind (fun c => (decode c).toOption) := by
  unfold decodeTableWord
  cases h : printedCommand nbits w with
  | none => cases tableWord nbits w <;> rfl
  | some i =>
    obtain ⟨h1, h2, h3, h4, h5⟩ := decode_configured_command
    rcases printedCommand_cases h with rfl | rfl | rfl | rfl | rfl <;>
      simp [tableWord, encode, Except.toOption, *]

end Sys2Proof
end

