-- ==== Sys2Proof/Laws/State.lean ====
section
/-! SUPPORT. What each named update of the state does to each field, and to the line accessors: one lemma a field and update. -/

namespace Sys2Proof.Machine

/-! ### `tmFire` -/

@[simp] theorem State.tmFire_dir (s : State) : s.tmFire.dir = s.dir := rfl
@[simp] theorem State.tmFire_lvl (s : State) : s.tmFire.lvl = s.lvl := rfl
@[simp] theorem State.tmFire_rx (s : State) : s.tmFire.rx = s.rx := rfl
@[simp] theorem State.tmFire_acc (s : State) : s.tmFire.acc = s.acc := rfl
@[simp] theorem State.tmFire_att (s : State) : s.tmFire.att = s.att := rfl
@[simp] theorem State.tmFire_rb (s : State) : s.tmFire.rb = s.rb := rfl
@[simp] theorem State.tmFire_tmFlag (s : State) : s.tmFire.tmFlag = true := rfl
@[simp] theorem State.tmFire_tmRun (s : State) : s.tmFire.tmRun = false := rfl
@[simp] theorem State.tmFire_tmDeadline (s : State) : s.tmFire.tmDeadline = s.tmDeadline := rfl
@[simp] theorem State.tmFire_fireIn (s : State) : s.tmFire.fireIn = s.fireIn := rfl
@[simp] theorem State.tmFire_session (s : State) : s.tmFire.session = s.session := rfl
@[simp] theorem State.tmFire_engState (s : State) : s.tmFire.engState = s.engState := rfl
@[simp] theorem State.tmFire_sel (s : State) : s.tmFire.sel = s.sel := rfl
@[simp] theorem State.tmFire_seq (s : State) : s.tmFire.seq = s.seq := rfl
@[simp] theorem State.tmFire_tr (s : State) : s.tmFire.tr = s.tr ++ [.tmFire] := rfl
@[simp] theorem State.tmFire_modeInput (s : State) : s.tmFire.modeInput = s.modeInput := rfl
@[simp] theorem State.tmFire_startup (s : State) : s.tmFire.startup = s.startup := rfl
@[simp] theorem State.tmFire_issue (s : State) : s.tmFire.issue = s.issue := rfl
@[simp] theorem State.tmFire_result (s : State) : s.tmFire.result = s.result := rfl
@[simp] theorem State.tmFire_dirOf (s : State) (k : PLine) : s.tmFire.dirOf k = s.dirOf k := rfl
@[simp] theorem State.tmFire_lvlOf (s : State) (k : Line) : s.tmFire.lvlOf k = s.lvlOf k := rfl

/-! ### `countdown` -/

@[simp] theorem State.countdown_dir (s : State) : s.countdown.dir = s.dir := rfl
@[simp] theorem State.countdown_lvl (s : State) : s.countdown.lvl = s.lvl := rfl
@[simp] theorem State.countdown_rx (s : State) : s.countdown.rx = s.rx := rfl
@[simp] theorem State.countdown_acc (s : State) : s.countdown.acc = s.acc := rfl
@[simp] theorem State.countdown_att (s : State) : s.countdown.att = s.att := rfl
@[simp] theorem State.countdown_rb (s : State) : s.countdown.rb = s.rb := rfl
@[simp] theorem State.countdown_tmFlag (s : State) : s.countdown.tmFlag = (s.tmFlag || s.fires) := rfl
@[simp] theorem State.countdown_tmRun (s : State) : s.countdown.tmRun = (s.tmRun && !s.fires) := rfl
@[simp] theorem State.countdown_tmDeadline (s : State) : s.countdown.tmDeadline = s.tmDeadline := rfl
@[simp] theorem State.countdown_fireIn (s : State) : s.countdown.fireIn = if s.tmRun then s.fireIn - 1 else s.fireIn := rfl
@[simp] theorem State.countdown_session (s : State) : s.countdown.session = s.session := rfl
@[simp] theorem State.countdown_engState (s : State) : s.countdown.engState = s.engState := rfl
@[simp] theorem State.countdown_sel (s : State) : s.countdown.sel = s.sel := rfl
@[simp] theorem State.countdown_seq (s : State) : s.countdown.seq = s.seq := rfl
@[simp] theorem State.countdown_tr (s : State) : s.countdown.tr = if s.fires then s.tr ++ [.tmFire] else s.tr := rfl
@[simp] theorem State.countdown_modeInput (s : State) : s.countdown.modeInput = s.modeInput := rfl
@[simp] theorem State.countdown_startup (s : State) : s.countdown.startup = s.startup := rfl
@[simp] theorem State.countdown_issue (s : State) : s.countdown.issue = s.issue := rfl
@[simp] theorem State.countdown_result (s : State) : s.countdown.result = s.result := rfl
@[simp] theorem State.countdown_dirOf (s : State) (k : PLine) : s.countdown.dirOf k = s.dirOf k := rfl
@[simp] theorem State.countdown_lvlOf (s : State) (k : Line) : s.countdown.lvlOf k = s.lvlOf k := rfl

/-! ### `armTimer` -/

@[simp] theorem State.armTimer_dir (W : World) (n : BitVec 16) (s : State) : (s.armTimer W n).dir = s.dir := rfl
@[simp] theorem State.armTimer_lvl (W : World) (n : BitVec 16) (s : State) : (s.armTimer W n).lvl = s.lvl := rfl
@[simp] theorem State.armTimer_rx (W : World) (n : BitVec 16) (s : State) : (s.armTimer W n).rx = s.rx := rfl
@[simp] theorem State.armTimer_acc (W : World) (n : BitVec 16) (s : State) : (s.armTimer W n).acc = s.acc := rfl
@[simp] theorem State.armTimer_att (W : World) (n : BitVec 16) (s : State) : (s.armTimer W n).att = s.att := rfl
@[simp] theorem State.armTimer_rb (W : World) (n : BitVec 16) (s : State) : (s.armTimer W n).rb = s.rb := rfl
@[simp] theorem State.armTimer_tmFlag (W : World) (n : BitVec 16) (s : State) : (s.armTimer W n).tmFlag = false := rfl
@[simp] theorem State.armTimer_tmRun (W : World) (n : BitVec 16) (s : State) : (s.armTimer W n).tmRun = true := rfl
@[simp] theorem State.armTimer_tmDeadline (W : World) (n : BitVec 16) (s : State) : (s.armTimer W n).tmDeadline = n := rfl
@[simp] theorem State.armTimer_fireIn (W : World) (n : BitVec 16) (s : State) : (s.armTimer W n).fireIn = W.fireDelay s.tr := rfl
@[simp] theorem State.armTimer_session (W : World) (n : BitVec 16) (s : State) : (s.armTimer W n).session = s.session := rfl
@[simp] theorem State.armTimer_engState (W : World) (n : BitVec 16) (s : State) : (s.armTimer W n).engState = s.engState := rfl
@[simp] theorem State.armTimer_sel (W : World) (n : BitVec 16) (s : State) : (s.armTimer W n).sel = s.sel := rfl
@[simp] theorem State.armTimer_seq (W : World) (n : BitVec 16) (s : State) : (s.armTimer W n).seq = s.seq := rfl
@[simp] theorem State.armTimer_tr (W : World) (n : BitVec 16) (s : State) : (s.armTimer W n).tr = s.tr := rfl
@[simp] theorem State.armTimer_modeInput (W : World) (n : BitVec 16) (s : State) : (s.armTimer W n).modeInput = s.modeInput := rfl
@[simp] theorem State.armTimer_startup (W : World) (n : BitVec 16) (s : State) : (s.armTimer W n).startup = s.startup := rfl
@[simp] theorem State.armTimer_issue (W : World) (n : BitVec 16) (s : State) : (s.armTimer W n).issue = s.issue := rfl
@[simp] theorem State.armTimer_result (W : World) (n : BitVec 16) (s : State) : (s.armTimer W n).result = s.result := rfl
@[simp] theorem State.armTimer_dirOf (W : World) (n : BitVec 16) (s : State) (k : PLine) : (s.armTimer W n).dirOf k = s.dirOf k := rfl
@[simp] theorem State.armTimer_lvlOf (W : World) (n : BitVec 16) (s : State) (k : Line) : (s.armTimer W n).lvlOf k = s.lvlOf k := rfl

/-! ### `disarmTimer` -/

@[simp] theorem State.disarmTimer_dir (s : State) : s.disarmTimer.dir = s.dir := rfl
@[simp] theorem State.disarmTimer_lvl (s : State) : s.disarmTimer.lvl = s.lvl := rfl
@[simp] theorem State.disarmTimer_rx (s : State) : s.disarmTimer.rx = s.rx := rfl
@[simp] theorem State.disarmTimer_acc (s : State) : s.disarmTimer.acc = s.acc := rfl
@[simp] theorem State.disarmTimer_att (s : State) : s.disarmTimer.att = s.att := rfl
@[simp] theorem State.disarmTimer_rb (s : State) : s.disarmTimer.rb = s.rb := rfl
@[simp] theorem State.disarmTimer_tmFlag (s : State) : s.disarmTimer.tmFlag = s.tmFlag := rfl
@[simp] theorem State.disarmTimer_tmRun (s : State) : s.disarmTimer.tmRun = false := rfl
@[simp] theorem State.disarmTimer_tmDeadline (s : State) : s.disarmTimer.tmDeadline = s.tmDeadline := rfl
@[simp] theorem State.disarmTimer_fireIn (s : State) : s.disarmTimer.fireIn = s.fireIn := rfl
@[simp] theorem State.disarmTimer_session (s : State) : s.disarmTimer.session = s.session := rfl
@[simp] theorem State.disarmTimer_engState (s : State) : s.disarmTimer.engState = s.engState := rfl
@[simp] theorem State.disarmTimer_sel (s : State) : s.disarmTimer.sel = s.sel := rfl
@[simp] theorem State.disarmTimer_seq (s : State) : s.disarmTimer.seq = s.seq := rfl
@[simp] theorem State.disarmTimer_tr (s : State) : s.disarmTimer.tr = s.tr := rfl
@[simp] theorem State.disarmTimer_modeInput (s : State) : s.disarmTimer.modeInput = s.modeInput := rfl
@[simp] theorem State.disarmTimer_startup (s : State) : s.disarmTimer.startup = s.startup := rfl
@[simp] theorem State.disarmTimer_issue (s : State) : s.disarmTimer.issue = s.issue := rfl
@[simp] theorem State.disarmTimer_result (s : State) : s.disarmTimer.result = s.result := rfl
@[simp] theorem State.disarmTimer_dirOf (s : State) (k : PLine) : s.disarmTimer.dirOf k = s.dirOf k := rfl
@[simp] theorem State.disarmTimer_lvlOf (s : State) (k : Line) : s.disarmTimer.lvlOf k = s.lvlOf k := rfl

/-! ### `level` -/

@[simp] theorem State.level_dir (l : Line) (v : Latch) (s : State) : (s.level l v).dir = s.dir := rfl
@[simp] theorem State.level_rx (l : Line) (v : Latch) (s : State) : (s.level l v).rx = s.rx := rfl
@[simp] theorem State.level_acc (l : Line) (v : Latch) (s : State) : (s.level l v).acc = s.acc := rfl
@[simp] theorem State.level_att (l : Line) (v : Latch) (s : State) : (s.level l v).att = s.att := rfl
@[simp] theorem State.level_rb (l : Line) (v : Latch) (s : State) : (s.level l v).rb = s.rb := rfl
@[simp] theorem State.level_tmFlag (l : Line) (v : Latch) (s : State) : (s.level l v).tmFlag = s.tmFlag := rfl
@[simp] theorem State.level_tmRun (l : Line) (v : Latch) (s : State) : (s.level l v).tmRun = s.tmRun := rfl
@[simp] theorem State.level_tmDeadline (l : Line) (v : Latch) (s : State) : (s.level l v).tmDeadline = s.tmDeadline := rfl
@[simp] theorem State.level_fireIn (l : Line) (v : Latch) (s : State) : (s.level l v).fireIn = s.fireIn := rfl
@[simp] theorem State.level_session (l : Line) (v : Latch) (s : State) : (s.level l v).session = s.session := rfl
@[simp] theorem State.level_engState (l : Line) (v : Latch) (s : State) : (s.level l v).engState = s.engState := rfl
@[simp] theorem State.level_sel (l : Line) (v : Latch) (s : State) : (s.level l v).sel = s.sel := rfl
@[simp] theorem State.level_seq (l : Line) (v : Latch) (s : State) : (s.level l v).seq = s.seq := rfl
@[simp] theorem State.level_tr (l : Line) (v : Latch) (s : State) : (s.level l v).tr = s.tr := rfl
@[simp] theorem State.level_modeInput (l : Line) (v : Latch) (s : State) : (s.level l v).modeInput = s.modeInput := rfl
@[simp] theorem State.level_startup (l : Line) (v : Latch) (s : State) : (s.level l v).startup = s.startup := rfl
@[simp] theorem State.level_issue (l : Line) (v : Latch) (s : State) : (s.level l v).issue = s.issue := rfl
@[simp] theorem State.level_result (l : Line) (v : Latch) (s : State) : (s.level l v).result = s.result := rfl
@[simp] theorem State.level_dirOf (l : Line) (v : Latch) (s : State) (k : PLine) : (s.level l v).dirOf k = s.dirOf k := rfl

/-! ### `drive` -/

@[simp] theorem State.drive_rx (l : PLine) (v : Level) (s : State) : (s.drive l v).rx = s.rx := rfl
@[simp] theorem State.drive_acc (l : PLine) (v : Level) (s : State) : (s.drive l v).acc = s.acc := rfl
@[simp] theorem State.drive_att (l : PLine) (v : Level) (s : State) : (s.drive l v).att = s.att := rfl
@[simp] theorem State.drive_rb (l : PLine) (v : Level) (s : State) : (s.drive l v).rb = s.rb := rfl
@[simp] theorem State.drive_tmFlag (l : PLine) (v : Level) (s : State) : (s.drive l v).tmFlag = s.tmFlag := rfl
@[simp] theorem State.drive_tmRun (l : PLine) (v : Level) (s : State) : (s.drive l v).tmRun = s.tmRun := rfl
@[simp] theorem State.drive_tmDeadline (l : PLine) (v : Level) (s : State) : (s.drive l v).tmDeadline = s.tmDeadline := rfl
@[simp] theorem State.drive_fireIn (l : PLine) (v : Level) (s : State) : (s.drive l v).fireIn = s.fireIn := rfl
@[simp] theorem State.drive_session (l : PLine) (v : Level) (s : State) : (s.drive l v).session = s.session := rfl
@[simp] theorem State.drive_engState (l : PLine) (v : Level) (s : State) : (s.drive l v).engState = s.engState := rfl
@[simp] theorem State.drive_sel (l : PLine) (v : Level) (s : State) : (s.drive l v).sel = s.sel := rfl
@[simp] theorem State.drive_seq (l : PLine) (v : Level) (s : State) : (s.drive l v).seq = s.seq := rfl
@[simp] theorem State.drive_tr (l : PLine) (v : Level) (s : State) : (s.drive l v).tr = s.tr := rfl
@[simp] theorem State.drive_modeInput (l : PLine) (v : Level) (s : State) : (s.drive l v).modeInput = s.modeInput := rfl
@[simp] theorem State.drive_startup (l : PLine) (v : Level) (s : State) : (s.drive l v).startup = s.startup := rfl
@[simp] theorem State.drive_issue (l : PLine) (v : Level) (s : State) : (s.drive l v).issue = s.issue := rfl
@[simp] theorem State.drive_result (l : PLine) (v : Level) (s : State) : (s.drive l v).result = s.result := rfl

/-! ### `release` -/

@[simp] theorem State.release_rx (l : PLine) (s : State) : (s.release l).rx = s.rx := rfl
@[simp] theorem State.release_acc (l : PLine) (s : State) : (s.release l).acc = s.acc := rfl
@[simp] theorem State.release_att (l : PLine) (s : State) : (s.release l).att = s.att := rfl
@[simp] theorem State.release_rb (l : PLine) (s : State) : (s.release l).rb = s.rb := rfl
@[simp] theorem State.release_tmFlag (l : PLine) (s : State) : (s.release l).tmFlag = s.tmFlag := rfl
@[simp] theorem State.release_tmRun (l : PLine) (s : State) : (s.release l).tmRun = s.tmRun := rfl
@[simp] theorem State.release_tmDeadline (l : PLine) (s : State) : (s.release l).tmDeadline = s.tmDeadline := rfl
@[simp] theorem State.release_fireIn (l : PLine) (s : State) : (s.release l).fireIn = s.fireIn := rfl
@[simp] theorem State.release_session (l : PLine) (s : State) : (s.release l).session = s.session := rfl
@[simp] theorem State.release_engState (l : PLine) (s : State) : (s.release l).engState = s.engState := rfl
@[simp] theorem State.release_sel (l : PLine) (s : State) : (s.release l).sel = s.sel := rfl
@[simp] theorem State.release_seq (l : PLine) (s : State) : (s.release l).seq = s.seq := rfl
@[simp] theorem State.release_tr (l : PLine) (s : State) : (s.release l).tr = s.tr := rfl
@[simp] theorem State.release_modeInput (l : PLine) (s : State) : (s.release l).modeInput = s.modeInput := rfl
@[simp] theorem State.release_startup (l : PLine) (s : State) : (s.release l).startup = s.startup := rfl
@[simp] theorem State.release_issue (l : PLine) (s : State) : (s.release l).issue = s.issue := rfl
@[simp] theorem State.release_result (l : PLine) (s : State) : (s.release l).result = s.result := rfl

/-! ### `did` -/

@[simp] theorem State.did_dir (e : Event) (s : State) : (s.did e).dir = s.dir := rfl
@[simp] theorem State.did_lvl (e : Event) (s : State) : (s.did e).lvl = s.lvl := rfl
@[simp] theorem State.did_rx (e : Event) (s : State) : (s.did e).rx = s.rx := rfl
@[simp] theorem State.did_acc (e : Event) (s : State) : (s.did e).acc = s.acc := rfl
@[simp] theorem State.did_att (e : Event) (s : State) : (s.did e).att = s.att := rfl
@[simp] theorem State.did_rb (e : Event) (s : State) : (s.did e).rb = s.rb := rfl
@[simp] theorem State.did_tmFlag (e : Event) (s : State) : (s.did e).tmFlag = s.tmFlag := rfl
@[simp] theorem State.did_tmRun (e : Event) (s : State) : (s.did e).tmRun = s.tmRun := rfl
@[simp] theorem State.did_tmDeadline (e : Event) (s : State) : (s.did e).tmDeadline = s.tmDeadline := rfl
@[simp] theorem State.did_fireIn (e : Event) (s : State) : (s.did e).fireIn = s.fireIn := rfl
@[simp] theorem State.did_session (e : Event) (s : State) : (s.did e).session = s.session := rfl
@[simp] theorem State.did_engState (e : Event) (s : State) : (s.did e).engState = s.engState := rfl
@[simp] theorem State.did_sel (e : Event) (s : State) : (s.did e).sel = s.sel := rfl
@[simp] theorem State.did_seq (e : Event) (s : State) : (s.did e).seq = s.seq.map (fun p => { p with index := p.index + 1 }) := rfl
@[simp] theorem State.did_tr (e : Event) (s : State) : (s.did e).tr = s.tr ++ [e] := rfl
@[simp] theorem State.did_modeInput (e : Event) (s : State) : (s.did e).modeInput = s.modeInput := rfl
@[simp] theorem State.did_startup (e : Event) (s : State) : (s.did e).startup = s.startup := rfl
@[simp] theorem State.did_issue (e : Event) (s : State) : (s.did e).issue = s.issue := rfl
@[simp] theorem State.did_result (e : Event) (s : State) : (s.did e).result = s.result := rfl
@[simp] theorem State.did_dirOf (e : Event) (s : State) (k : PLine) : (s.did e).dirOf k = s.dirOf k := rfl
@[simp] theorem State.did_lvlOf (e : Event) (s : State) (k : Line) : (s.did e).lvlOf k = s.lvlOf k := rfl

/-! ### `begin` -/

@[simp] theorem State.begin_dir (i : Instr) (s : State) : (s.begin i).dir = s.dir := rfl
@[simp] theorem State.begin_lvl (i : Instr) (s : State) : (s.begin i).lvl = s.lvl := rfl
@[simp] theorem State.begin_rx (i : Instr) (s : State) : (s.begin i).rx = s.rx := rfl
@[simp] theorem State.begin_acc (i : Instr) (s : State) : (s.begin i).acc = s.acc := rfl
@[simp] theorem State.begin_att (i : Instr) (s : State) : (s.begin i).att = s.att := rfl
@[simp] theorem State.begin_rb (i : Instr) (s : State) : (s.begin i).rb = s.rb := rfl
@[simp] theorem State.begin_tmFlag (i : Instr) (s : State) : (s.begin i).tmFlag = s.tmFlag := rfl
@[simp] theorem State.begin_tmRun (i : Instr) (s : State) : (s.begin i).tmRun = s.tmRun := rfl
@[simp] theorem State.begin_tmDeadline (i : Instr) (s : State) : (s.begin i).tmDeadline = s.tmDeadline := rfl
@[simp] theorem State.begin_fireIn (i : Instr) (s : State) : (s.begin i).fireIn = s.fireIn := rfl
@[simp] theorem State.begin_session (i : Instr) (s : State) : (s.begin i).session = s.session := rfl
@[simp] theorem State.begin_engState (i : Instr) (s : State) : (s.begin i).engState = s.engState := rfl
@[simp] theorem State.begin_sel (i : Instr) (s : State) : (s.begin i).sel = s.sel := rfl
@[simp] theorem State.begin_seq (i : Instr) (s : State) : (s.begin i).seq = some { op := i, index := 0 } := rfl
@[simp] theorem State.begin_tr (i : Instr) (s : State) : (s.begin i).tr = s.tr := rfl
@[simp] theorem State.begin_modeInput (i : Instr) (s : State) : (s.begin i).modeInput = s.modeInput := rfl
@[simp] theorem State.begin_startup (i : Instr) (s : State) : (s.begin i).startup = s.startup := rfl
@[simp] theorem State.begin_issue (i : Instr) (s : State) : (s.begin i).issue = s.issue := rfl
@[simp] theorem State.begin_result (i : Instr) (s : State) : (s.begin i).result = s.result := rfl
@[simp] theorem State.begin_dirOf (i : Instr) (s : State) (k : PLine) : (s.begin i).dirOf k = s.dirOf k := rfl
@[simp] theorem State.begin_lvlOf (i : Instr) (s : State) (k : Line) : (s.begin i).lvlOf k = s.lvlOf k := rfl

/-! ### `finish` -/

@[simp] theorem State.finish_dir (r : OpResult) (s : State) : (s.finish r).dir = s.dir := rfl
@[simp] theorem State.finish_lvl (r : OpResult) (s : State) : (s.finish r).lvl = s.lvl := rfl
@[simp] theorem State.finish_rx (r : OpResult) (s : State) : (s.finish r).rx = s.rx := rfl
@[simp] theorem State.finish_acc (r : OpResult) (s : State) : (s.finish r).acc = s.acc := rfl
@[simp] theorem State.finish_att (r : OpResult) (s : State) : (s.finish r).att = s.att := rfl
@[simp] theorem State.finish_rb (r : OpResult) (s : State) : (s.finish r).rb = s.rb := rfl
@[simp] theorem State.finish_tmFlag (r : OpResult) (s : State) : (s.finish r).tmFlag = s.tmFlag := rfl
@[simp] theorem State.finish_tmRun (r : OpResult) (s : State) : (s.finish r).tmRun = s.tmRun := rfl
@[simp] theorem State.finish_tmDeadline (r : OpResult) (s : State) : (s.finish r).tmDeadline = s.tmDeadline := rfl
@[simp] theorem State.finish_fireIn (r : OpResult) (s : State) : (s.finish r).fireIn = s.fireIn := rfl
@[simp] theorem State.finish_session (r : OpResult) (s : State) : (s.finish r).session = s.session := rfl
@[simp] theorem State.finish_engState (r : OpResult) (s : State) : (s.finish r).engState = s.engState := rfl
@[simp] theorem State.finish_sel (r : OpResult) (s : State) : (s.finish r).sel = s.sel := rfl
@[simp] theorem State.finish_seq (r : OpResult) (s : State) : (s.finish r).seq = none := rfl
@[simp] theorem State.finish_tr (r : OpResult) (s : State) : (s.finish r).tr = s.tr := rfl
@[simp] theorem State.finish_modeInput (r : OpResult) (s : State) : (s.finish r).modeInput = s.modeInput := rfl
@[simp] theorem State.finish_startup (r : OpResult) (s : State) : (s.finish r).startup = s.startup := rfl
@[simp] theorem State.finish_issue (r : OpResult) (s : State) : (s.finish r).issue = s.issue := rfl
@[simp] theorem State.finish_result (r : OpResult) (s : State) : (s.finish r).result = r := rfl
@[simp] theorem State.finish_dirOf (r : OpResult) (s : State) (k : PLine) : (s.finish r).dirOf k = s.dirOf k := rfl
@[simp] theorem State.finish_lvlOf (r : OpResult) (s : State) (k : Line) : (s.finish r).lvlOf k = s.lvlOf k := rfl

/-! ### `refuse` -/

@[simp] theorem State.refuse_dir (e : RefusalReason) (s : State) : (s.refuse e).dir = s.dir := rfl
@[simp] theorem State.refuse_lvl (e : RefusalReason) (s : State) : (s.refuse e).lvl = s.lvl := rfl
@[simp] theorem State.refuse_rx (e : RefusalReason) (s : State) : (s.refuse e).rx = s.rx := rfl
@[simp] theorem State.refuse_acc (e : RefusalReason) (s : State) : (s.refuse e).acc = s.acc := rfl
@[simp] theorem State.refuse_att (e : RefusalReason) (s : State) : (s.refuse e).att = s.att := rfl
@[simp] theorem State.refuse_rb (e : RefusalReason) (s : State) : (s.refuse e).rb = s.rb := rfl
@[simp] theorem State.refuse_tmFlag (e : RefusalReason) (s : State) : (s.refuse e).tmFlag = s.tmFlag := rfl
@[simp] theorem State.refuse_tmRun (e : RefusalReason) (s : State) : (s.refuse e).tmRun = s.tmRun := rfl
@[simp] theorem State.refuse_tmDeadline (e : RefusalReason) (s : State) : (s.refuse e).tmDeadline = s.tmDeadline := rfl
@[simp] theorem State.refuse_fireIn (e : RefusalReason) (s : State) : (s.refuse e).fireIn = s.fireIn := rfl
@[simp] theorem State.refuse_session (e : RefusalReason) (s : State) : (s.refuse e).session = s.session := rfl
@[simp] theorem State.refuse_engState (e : RefusalReason) (s : State) : (s.refuse e).engState = s.engState := rfl
@[simp] theorem State.refuse_sel (e : RefusalReason) (s : State) : (s.refuse e).sel = s.sel := rfl
@[simp] theorem State.refuse_seq (e : RefusalReason) (s : State) : (s.refuse e).seq = s.seq := rfl
@[simp] theorem State.refuse_tr (e : RefusalReason) (s : State) : (s.refuse e).tr = s.tr := rfl
@[simp] theorem State.refuse_modeInput (e : RefusalReason) (s : State) : (s.refuse e).modeInput = s.modeInput := rfl
@[simp] theorem State.refuse_startup (e : RefusalReason) (s : State) : (s.refuse e).startup = s.startup := rfl
@[simp] theorem State.refuse_issue (e : RefusalReason) (s : State) : (s.refuse e).issue = s.issue := rfl
@[simp] theorem State.refuse_result (e : RefusalReason) (s : State) : (s.refuse e).result = .refused e := rfl
@[simp] theorem State.refuse_dirOf (e : RefusalReason) (s : State) (k : PLine) : (s.refuse e).dirOf k = s.dirOf k := rfl
@[simp] theorem State.refuse_lvlOf (e : RefusalReason) (s : State) (k : Line) : (s.refuse e).lvlOf k = s.lvlOf k := rfl

/-! ### `selectDevice` -/

@[simp] theorem State.selectDevice_dir (d : Option Config.DeviceDescriptor) (s : State) : (s.selectDevice d).dir = s.dir := rfl
@[simp] theorem State.selectDevice_lvl (d : Option Config.DeviceDescriptor) (s : State) : (s.selectDevice d).lvl = s.lvl := rfl
@[simp] theorem State.selectDevice_rx (d : Option Config.DeviceDescriptor) (s : State) : (s.selectDevice d).rx = s.rx := rfl
@[simp] theorem State.selectDevice_acc (d : Option Config.DeviceDescriptor) (s : State) : (s.selectDevice d).acc = s.acc := rfl
@[simp] theorem State.selectDevice_att (d : Option Config.DeviceDescriptor) (s : State) : (s.selectDevice d).att = s.att := rfl
@[simp] theorem State.selectDevice_rb (d : Option Config.DeviceDescriptor) (s : State) : (s.selectDevice d).rb = s.rb := rfl
@[simp] theorem State.selectDevice_tmFlag (d : Option Config.DeviceDescriptor) (s : State) : (s.selectDevice d).tmFlag = s.tmFlag := rfl
@[simp] theorem State.selectDevice_tmRun (d : Option Config.DeviceDescriptor) (s : State) : (s.selectDevice d).tmRun = s.tmRun := rfl
@[simp] theorem State.selectDevice_tmDeadline (d : Option Config.DeviceDescriptor) (s : State) : (s.selectDevice d).tmDeadline = s.tmDeadline := rfl
@[simp] theorem State.selectDevice_fireIn (d : Option Config.DeviceDescriptor) (s : State) : (s.selectDevice d).fireIn = s.fireIn := rfl
@[simp] theorem State.selectDevice_session (d : Option Config.DeviceDescriptor) (s : State) : (s.selectDevice d).session = s.session := rfl
@[simp] theorem State.selectDevice_engState (d : Option Config.DeviceDescriptor) (s : State) : (s.selectDevice d).engState = if d.isSome then .deviceKnown else .deviceUnknown := rfl
@[simp] theorem State.selectDevice_sel (d : Option Config.DeviceDescriptor) (s : State) : (s.selectDevice d).sel = d := rfl
@[simp] theorem State.selectDevice_seq (d : Option Config.DeviceDescriptor) (s : State) : (s.selectDevice d).seq = s.seq := rfl
@[simp] theorem State.selectDevice_tr (d : Option Config.DeviceDescriptor) (s : State) : (s.selectDevice d).tr = s.tr := rfl
@[simp] theorem State.selectDevice_modeInput (d : Option Config.DeviceDescriptor) (s : State) : (s.selectDevice d).modeInput = s.modeInput := rfl
@[simp] theorem State.selectDevice_startup (d : Option Config.DeviceDescriptor) (s : State) : (s.selectDevice d).startup = s.startup := rfl
@[simp] theorem State.selectDevice_issue (d : Option Config.DeviceDescriptor) (s : State) : (s.selectDevice d).issue = s.issue := rfl
@[simp] theorem State.selectDevice_result (d : Option Config.DeviceDescriptor) (s : State) : (s.selectDevice d).result = s.result := rfl
@[simp] theorem State.selectDevice_dirOf (d : Option Config.DeviceDescriptor) (s : State) (k : PLine) : (s.selectDevice d).dirOf k = s.dirOf k := rfl
@[simp] theorem State.selectDevice_lvlOf (d : Option Config.DeviceDescriptor) (s : State) (k : Line) : (s.selectDevice d).lvlOf k = s.lvlOf k := rfl

end Sys2Proof.Machine
end

