-- ==== Sys2Proof/Laws/Lines.lean ====
section
/-! SUPPORT. Reading a line after writing one: the line files behave as functions of the line. -/

namespace Sys2Proof.Machine

theorem PLine.slot_injective {k l : PLine} (h : k.slot = l.slot) : k = l := by
  revert k l; decide

theorem Line.slot_injective {k l : Line} (h : k.slot = l.slot) : k = l := by
  revert k l
  intro k l h
  have hv := congrArg Fin.val h
  cases k with
  | protocol a =>
    cases l with
    | protocol b => exact congrArg _ (PLine.slot_injective (Fin.ext hv))
    | vccEn => have := a.slot.isLt; simp [Line.slot] at hv; omega
    | vppEn => have := a.slot.isLt; simp [Line.slot] at hv; omega
  | vccEn =>
    cases l with
    | protocol b => have := b.slot.isLt; simp [Line.slot] at hv; omega
    | vccEn => rfl
    | vppEn => exact absurd h (by decide)
  | vppEn =>
    cases l with
    | protocol b => have := b.slot.isLt; simp [Line.slot] at hv; omega
    | vccEn => exact absurd h (by decide)
    | vppEn => rfl

theorem State.level_lvlOf (l : Line) (v : Latch) (s : State) (k : Line) :
    (s.level l v).lvlOf k = if l = k then v else s.lvlOf k := by
  unfold State.lvlOf State.level
  by_cases h : l = k
  · subst h; simp
  · have : l.slot.val ≠ k.slot.val := fun e => h (Line.slot_injective (Fin.ext e))
    simp [h, Vector.getElem_set_ne _ _ this]

theorem State.drive_dirOf (l : PLine) (v : Level) (s : State) (k : PLine) :
    (s.drive l v).dirOf k = if l = k then .output else s.dirOf k := by
  unfold State.dirOf State.drive
  by_cases h : l = k
  · subst h; simp
  · have : l.slot.val ≠ k.slot.val := fun e => h (PLine.slot_injective (Fin.ext e))
    simp [h, Vector.getElem_set_ne _ _ this]

theorem State.drive_lvlOf (l : PLine) (v : Level) (s : State) (k : Line) :
    (s.drive l v).lvlOf k = if .protocol l = k then some v else s.lvlOf k :=
  State.level_lvlOf (.protocol l) (some v) s k

theorem State.release_dirOf (l : PLine) (s : State) (k : PLine) :
    (s.release l).dirOf k = if l = k then .input else s.dirOf k := by
  unfold State.dirOf State.release
  by_cases h : l = k
  · subst h; simp
  · have : l.slot.val ≠ k.slot.val := fun e => h (PLine.slot_injective (Fin.ext e))
    simp [h, Vector.getElem_set_ne _ _ this]

theorem State.release_lvlOf (l : PLine) (s : State) (k : Line) :
    (s.release l).lvlOf k = if .protocol l = k then none else s.lvlOf k :=
  State.level_lvlOf (.protocol l) none s k

theorem State.reset_dirOf (l : PLine) : State.reset.dirOf l = .unset := by
  simp [State.dirOf, State.reset]

theorem State.reset_lvlOf (l : Line) : State.reset.lvlOf l = none := by
  simp [State.lvlOf, State.reset]

end Sys2Proof.Machine
end

