-- ==== Sys2Proof/Laws/Steps.lean ====
section
/-! SUPPORT. What straight-line micro-steps do: the lines after them, the events, the registers kept, the countdown's part. -/

namespace Sys2Proof.Machine

/-! ### Relations between the state before and after -/

/-- The registers no micro-step of the lines or the monitor writes. -/
structure Kept (s t : State) : Prop where
  rx : t.rx = s.rx
  acc : t.acc = s.acc
  att : t.att = s.att
  rb : t.rb = s.rb
  session : t.session = s.session
  engState : t.engState = s.engState
  sel : t.sel = s.sel
  modeInput : t.modeInput = s.modeInput
  startup : t.startup = s.startup
  issue : t.issue = s.issue
  result : t.result = s.result

theorem Kept.refl (s : State) : Kept s s := ⟨rfl, rfl, rfl, rfl, rfl, rfl, rfl, rfl, rfl, rfl, rfl⟩

theorem Kept.trans {s t u : State} (h : Kept s t) (k : Kept t u) : Kept s u where
  rx := k.rx.trans h.rx
  acc := k.acc.trans h.acc
  att := k.att.trans h.att
  rb := k.rb.trans h.rb
  session := k.session.trans h.session
  engState := k.engState.trans h.engState
  sel := k.sel.trans h.sel
  modeInput := k.modeInput.trans h.modeInput
  startup := k.startup.trans h.startup
  issue := k.issue.trans h.issue
  result := k.result.trans h.result

/-- Whether an event is the sequencer's own. -/
abbrev own (e : Event) : Bool := e ≠ Event.tmFire

/-- From `s` to `t` the events `added` happened, and of the monitor's bits only the countdown's own step wrote any:
either it did not fire, or it was running and fired. -/
structure Passed (s t : State) (added : List Event) : Prop where
  trace : t.tr = s.tr ++ added
  deadline : t.tmDeadline = s.tmDeadline
  aged : (Event.tmFire ∉ added ∧ t.tmFlag = s.tmFlag ∧ t.tmRun = s.tmRun) ∨
    (Event.tmFire ∈ added ∧ s.tmRun = true ∧ t.tmFlag = true ∧ t.tmRun = false)

theorem Passed.refl (s : State) : Passed s s [] := ⟨by simp, rfl, .inl ⟨by simp, rfl, rfl⟩⟩

theorem Passed.trans {s t u : State} {a b : List Event} (h : Passed s t a) (k : Passed t u b) : Passed s u (a ++ b) where
  trace := by rw [k.trace, h.trace, List.append_assoc]
  deadline := k.deadline.trans h.deadline
  aged := by
    rcases h.aged with ⟨h1, h2, h3⟩ | ⟨h1, h2, h3, h4⟩ <;> rcases k.aged with ⟨k1, k2, k3⟩ | ⟨k1, k2, k3, k4⟩
    · exact .inl ⟨by simp [h1, k1], k2.trans h2, k3.trans h3⟩
    · exact .inr ⟨by simp [k1], h3 ▸ k2, k3, k4⟩
    · exact .inr ⟨by simp [h1], h2, k2.trans h3, k3.trans h4⟩
    · exact absurd k2 (by simp [h4])

/-- A countdown that does not run does nothing. -/
theorem Passed.quiet {s t : State} {a : List Event} (h : Passed s t a) (r : s.tmRun = false) :
    Event.tmFire ∉ a ∧ t.tmFlag = s.tmFlag ∧ t.tmRun = false := by
  rcases h.aged with ⟨h1, h2, h3⟩ | ⟨_, h2, _⟩
  · exact ⟨h1, h2, h3.trans r⟩
  · exact absurd h2 (by simp [r])

/-- A countdown that has been armed stays running until it has set the flag. -/
theorem Passed.armed {s t : State} {a : List Event} (h : Passed s t a) (r : s.tmFlag = true ∨ s.tmRun = true) :
    t.tmFlag = true ∨ t.tmRun = true := by
  rcases h.aged with ⟨_, h2, h3⟩ | ⟨_, _, h3, _⟩
  · rwa [h2, h3]
  · exact .inl h3

theorem Passed.performed {s t : State} {a : List Event} (h : Passed s t a) : Performed s t (a.filter own) :=
  ⟨a, h.trace, rfl⟩

/-! ### The countdown's point -/

theorem countdown_kept (s : State) : Kept s s.countdown := ⟨rfl, rfl, rfl, rfl, rfl, rfl, rfl, rfl, rfl, rfl, rfl⟩

theorem countdown_eq_tmFire {s : State} (h : s.fires = true) : s.countdown = s.tmFire := by
  obtain ⟨h1, h2⟩ : s.tmRun = true ∧ s.fireIn = 0 := by simpa [State.fires] using h
  simp [State.countdown, State.tmFire, h, h1, h2]

theorem countdown_of_not_running {s : State} (h : s.tmRun = false) : s.countdown = s := by
  cases s
  simp_all [State.countdown, State.fires]

/-- A point of the countdown adds its event exactly when it fires. -/
theorem countdown_passed (s : State) : Passed s s.countdown (if s.fires then [.tmFire] else []) := by
  by_cases h : s.fires = true
  · rw [countdown_eq_tmFire h]
    have r : s.tmRun = true := by simp [State.fires] at h; exact h.1
    exact ⟨by simp [h], rfl, .inr ⟨by simp [h], r, rfl, rfl⟩⟩
  · simp only [Bool.not_eq_true] at h
    exact ⟨by simp [h], rfl, .inl ⟨by simp [h], by simp [h], by simp [h]⟩⟩

/-- An event of the sequencer that is no `TM_ARM` or `TM_DISARM` joins the trace and leaves the monitor alone. -/
theorem did_passed {e : Event} (he : e ≠ .tmFire) (s : State) : Passed s (s.did e) [e] :=
  ⟨by simp, rfl, .inl ⟨by simpa using he.symm, rfl, rfl⟩⟩

/-! ### Lines after micro-steps -/

/-- The directions after one micro-step. -/
def MicroStep.dirAfter (m : MicroStep) (f : PLine → Dir) (l : PLine) : Dir :=
  match m with
  | .drv k _ => if k = l then .output else f l
  | .rel k => if k = l then .input else f l
  | _ => f l

/-- The levels after one micro-step. -/
def MicroStep.lvlAfter (m : MicroStep) (f : Line → Latch) (l : Line) : Latch :=
  match m with
  | .drv k v => if .protocol k = l then some v else f l
  | .set k v => if k = l then some v else f l
  | .rel k => if .protocol k = l then none else f l
  | _ => f l

/-- The directions after a list of micro-steps. -/
def dirsAfter : List MicroStep → (PLine → Dir) → PLine → Dir
  | [], f => f
  | m :: ms, f => dirsAfter ms (m.dirAfter f)

/-- The levels after a list of micro-steps. -/
def lvlsAfter : List MicroStep → (Line → Latch) → Line → Latch
  | [], f => f
  | m :: ms, f => lvlsAfter ms (m.lvlAfter f)

/-- Whether a micro-step is one of the lines or a wait, not one of the monitor. -/
def MicroStep.plain : MicroStep → Bool
  | .tmArm _ => false
  | .tmDisarm => false
  | _ => true

/-- Whether a micro-step's precondition holds of the directions before it (R61). -/
def MicroStep.allowed (m : MicroStep) (f : PLine → Dir) : Prop :=
  match m with
  | .set (.protocol k) _ => f k = .output
  | _ => True

/-- Whether every micro-step's precondition holds when it comes. -/
def allAllowed : List MicroStep → (PLine → Dir) → Prop
  | [], _ => True
  | m :: ms, f => m.allowed f ∧ allAllowed ms (m.dirAfter f)

/-- What a list of micro-steps of the lines did between `s` and `t`. -/
structure Ran (ms : List MicroStep) (s t : State) : Prop where
  dir : t.dirOf = dirsAfter ms s.dirOf
  lvl : t.lvlOf = lvlsAfter ms s.lvlOf
  kept : Kept s t
  passed : ∃ added, Passed s t added ∧ added.filter own = ms.map MicroStep.event

theorem MicroStep.event_ne_tmFire (m : MicroStep) : m.event ≠ .tmFire := by
  cases m <;> simp [MicroStep.event]

/-- One micro-step of the lines that went through. -/
theorem microStep_ran {W : World} {m : MicroStep} {s t : State} (p : m.plain = true) (h : microStep W m s = .ok t) :
    Ran [m] s t := by
  have fired : (if s.fires then [Event.tmFire] else []).filter own = [] := by split <;> simp [own]
  have one : ∀ (c : State), Passed s c (if s.fires then [.tmFire] else []) → Passed s (c.did m.event)
      ((if s.fires then [.tmFire] else []) ++ [m.event]) := fun c hc => hc.trans (did_passed m.event_ne_tmFire c)
  have evs : ((if s.fires then [Event.tmFire] else []) ++ [m.event]).filter own = [m].map MicroStep.event := by
    rw [List.filter_append, fired]; simp [own, m.event_ne_tmFire]
  have cp := countdown_passed s
  cases m with
  | drv k v =>
    injection h with h; subst h
    exact ⟨by funext l; simp [dirsAfter, MicroStep.dirAfter, State.drive_dirOf],
      by funext l; simp [lvlsAfter, MicroStep.lvlAfter, State.drive_lvlOf],
      ⟨rfl, rfl, rfl, rfl, rfl, rfl, rfl, rfl, rfl, rfl, rfl⟩, _, one _ ⟨cp.trace, cp.deadline, cp.aged⟩, evs⟩
  | set k v =>
    simp only [microStep] at h
    split at h
    · injection h with h; subst h
      exact ⟨by funext l; simp [dirsAfter, MicroStep.dirAfter],
        by funext l; simp [lvlsAfter, MicroStep.lvlAfter, State.level_lvlOf],
        ⟨rfl, rfl, rfl, rfl, rfl, rfl, rfl, rfl, rfl, rfl, rfl⟩, _, one _ ⟨cp.trace, cp.deadline, cp.aged⟩, evs⟩
    · cases h
  | rel k =>
    injection h with h; subst h
    exact ⟨by funext l; simp [dirsAfter, MicroStep.dirAfter, State.release_dirOf],
      by funext l; simp [lvlsAfter, MicroStep.lvlAfter, State.release_lvlOf],
      ⟨rfl, rfl, rfl, rfl, rfl, rfl, rfl, rfl, rfl, rfl, rfl⟩, _, one _ ⟨cp.trace, cp.deadline, cp.aged⟩, evs⟩
  | dly q =>
    injection h with h; subst h
    exact ⟨by funext l; simp [dirsAfter, MicroStep.dirAfter],
      by funext l; simp [lvlsAfter, MicroStep.lvlAfter],
      ⟨rfl, rfl, rfl, rfl, rfl, rfl, rfl, rfl, rfl, rfl, rfl⟩, _, one _ cp, evs⟩
  | tmArm n => cases p
  | tmDisarm => cases p

/-- A micro-step whose precondition holds goes through. -/
theorem microStep_ok {W : World} {m : MicroStep} {s : State} (h : m.allowed s.dirOf) : ∃ t, microStep W m s = .ok t := by
  cases m with
  | set k v =>
    have : s.countdown.canSet k = true := by
      cases k with
      | protocol l => simpa [State.canSet, MicroStep.allowed] using h
      | vccEn => rfl
      | vppEn => rfl
    exact ⟨_, by simp only [microStep, this, if_true]; rfl⟩
  | drv k v => exact ⟨_, rfl⟩
  | rel k => exact ⟨_, rfl⟩
  | dly q => exact ⟨_, rfl⟩
  | tmArm n => exact ⟨_, rfl⟩
  | tmDisarm => exact ⟨_, rfl⟩

theorem Ran.nil (s : State) : Ran [] s s := ⟨rfl, rfl, Kept.refl s, [], Passed.refl s, rfl⟩

theorem dirsAfter_append (a b : List MicroStep) (f : PLine → Dir) : dirsAfter (a ++ b) f = dirsAfter b (dirsAfter a f) := by
  induction a generalizing f with
  | nil => rfl
  | cons m a ih => exact ih _

theorem lvlsAfter_append (a b : List MicroStep) (f : Line → Latch) : lvlsAfter (a ++ b) f = lvlsAfter b (lvlsAfter a f) := by
  induction a generalizing f with
  | nil => rfl
  | cons m a ih => exact ih _

theorem Ran.append {a b : List MicroStep} {s t u : State} (h : Ran a s t) (k : Ran b t u) : Ran (a ++ b) s u where
  dir := by rw [k.dir, h.dir, dirsAfter_append]
  lvl := by rw [k.lvl, h.lvl, lvlsAfter_append]
  kept := h.kept.trans k.kept
  passed := by
    obtain ⟨x, hx, ex⟩ := h.passed
    obtain ⟨y, hy, ey⟩ := k.passed
    exact ⟨x ++ y, hx.trans hy, by rw [List.filter_append, ex, ey, List.map_append]⟩

/-- Everything a list of micro-steps of the lines can do when it goes through. -/
theorem runSteps_ran {W : World} {ms : List MicroStep} {s t : State} (p : ∀ m ∈ ms, m.plain = true)
    (h : runSteps W ms s = .ok t) : Ran ms s t := by
  induction ms generalizing s with
  | nil => injection h with h; subst h; exact Ran.nil s
  | cons m ms ih =>
    simp only [runSteps, bind, Except.bind] at h
    split at h
    · cases h
    · rename_i u hu
      exact (microStep_ran (p m (by simp)) hu).append (ih (fun m hm => p m (by simp [hm])) h)

/-- A list of micro-steps whose preconditions hold when they come goes through. -/
theorem runSteps_ok {W : World} {ms : List MicroStep} {s : State} (p : ∀ m ∈ ms, m.plain = true)
    (h : allAllowed ms s.dirOf) : ∃ t, runSteps W ms s = .ok t := by
  induction ms generalizing s with
  | nil => exact ⟨s, rfl⟩
  | cons m ms ih =>
    obtain ⟨u, hu⟩ := microStep_ok (W := W) h.1
    have r := microStep_ran (p m (by simp)) hu
    obtain ⟨t, ht⟩ := ih (s := u) (fun m hm => p m (by simp [hm])) (by rw [r.dir]; exact h.2)
    exact ⟨t, by simp only [runSteps, bind, Except.bind, hu, ht]⟩

/-- `SMP` that went through: the line is an input, the answer is the environment's, one event. -/
theorem sample_spec {W : World} {l : PLine} {s : State} {v : Level} {t : State} (h : sample W l s = .ok (v, t)) :
    s.dirOf l = .input ∧ t = s.countdown.did (.smp l v) ∧ v = W.answer s.countdown.tr l := by
  unfold sample at h
  simp only at h
  split at h
  · rename_i hd
    injection h with h
    injection h with h1 h2
    subst h1
    exact ⟨by simpa using hd, h2.symm, rfl⟩
  · cases h

theorem sample_ok {W : World} {l : PLine} {s : State} (h : s.dirOf l = .input) :
    sample W l s = .ok (W.answer s.countdown.tr l, s.countdown.did (.smp l (W.answer s.countdown.tr l))) := by
  simp [sample, h]

end Sys2Proof.Machine
end

