-- ==== Sys2Proof/Laws/Framer.lean ====
section
/-! SUPPORT. What the operations of the SignalController and the ProgrammingSequencer do, as programs. -/

namespace Sys2Proof.Machine

/-! ### `QUIESCE` -/

/-- What `QUIESCE` does between `s` and `t`. -/
structure Quieted (s t : State) (added : List Event) : Prop where
  dir : ∀ l, t.dirOf l = .input
  lvl : ∀ l : PLine, t.lvlOf (.protocol l) = none
  vcc : t.lvlOf .vccEn = some false
  vpp : t.lvlOf .vppEn = some false
  kept : Kept { s with session := false } t
  passed : Passed s t added
  events : added.filter own = quiesceSteps.map MicroStep.event

theorem Quieted.quiesced {s t : State} {a : List Event} (h : Quieted s t a) : Quiesced t := ⟨h.vcc, h.vpp, h.dir⟩

theorem quiesceSteps_events : QuiesceEvents (quiesceSteps.map MicroStep.event) :=
  ⟨[.set .vccEn false, .set .vppEn false], (quiesceSteps.map MicroStep.event).drop 2, rfl, .refl _, by decide⟩

/-- `QUIESCE` goes through in every state (R65, R67). -/
theorem quiesceLines_spec (W : World) (s : State) : ∃ t added, quiesceLines W s = .ok t ∧ Quieted s t added := by
  have p : ∀ m ∈ quiesceSteps, m.plain = true := by decide
  obtain ⟨u, hu⟩ := runSteps_ok (W := W) (s := s) p (by simp [quiesceSteps, allAllowed, MicroStep.allowed])
  have r := runSteps_ran p hu
  obtain ⟨added, pa, ev⟩ := r.passed
  refine ⟨{ u with session := false }, added, by simp only [quiesceLines, hu]; rfl, ?_, ?_, ?_, ?_, ?_, ?_, ev⟩
  · intro l
    have : u.dirOf l = dirsAfter quiesceSteps s.dirOf l := by rw [r.dir]
    refine Eq.trans this ?_
    cases l with
    | d i => fin_cases i <;> rfl
    | _ => rfl
  · intro l
    have : u.lvlOf (.protocol l) = lvlsAfter quiesceSteps s.lvlOf (.protocol l) := by rw [r.lvl]
    refine Eq.trans this ?_
    cases l with
    | d i => fin_cases i <;> rfl
    | _ => rfl
  · have : u.lvlOf .vccEn = lvlsAfter quiesceSteps s.lvlOf .vccEn := by rw [r.lvl]
    exact this.trans rfl
  · have : u.lvlOf .vppEn = lvlsAfter quiesceSteps s.lvlOf .vppEn := by rw [r.lvl]
    exact this.trans rfl
  · have k := r.kept
    exact ⟨k.rx, k.acc, k.att, k.rb, rfl, k.engState, k.sel, k.modeInput, k.startup, k.issue, k.result⟩
  · exact ⟨pa.trace, pa.deadline, pa.aged⟩

/-! ### `ARM` and `ENTER_PROG` -/

/-- The control lines a session needs as outputs are outputs (R32, R82). -/
abbrev ControlsOut (s : State) : Prop := ∀ l ∈ sessionOutputs, s.dirOf l = .output

/-- What `ENTER_PROG` does between `s` and `t`. -/
structure Entered (s t : State) (added : List Event) : Prop where
  dir : t.dirOf = dirsAfter (armSteps ++ powerUpSteps) s.dirOf
  lvl : t.lvlOf = lvlsAfter (armSteps ++ powerUpSteps) s.lvlOf
  kept : Kept { s with session := true } t
  passed : Passed s t added
  events : added.filter own = (armSteps ++ powerUpSteps).map MicroStep.event

theorem enterSteps_events : EnterEvents ((armSteps ++ powerUpSteps).map MicroStep.event) :=
  ⟨armSteps.map MicroStep.event, .refl _, rfl⟩

theorem Entered.controls {s t : State} {a : List Event} (h : Entered s t a) : ControlsOut t := by
  intro l hl
  rw [h.dir]
  simp only [sessionOutputs, List.mem_cons, List.not_mem_nil, or_false] at hl
  rcases hl with rfl | rfl | rfl | rfl | rfl | rfl | rfl <;> rfl

theorem Entered.rdy {s t : State} {a : List Event} (h : Entered s t a) : t.dirOf .rdy = .input := by rw [h.dir]; rfl

theorem Entered.inSession {s t : State} {a : List Event} (h : Entered s t a) : InSession t :=
  ⟨h.kept.session, h.controls, h.rdy, by rw [h.lvl]; rfl, by rw [h.lvl]; rfl⟩

/-- `ENTER_PROG` goes through when no session is active (R70). -/
theorem enterProg_spec (W : World) {s : State} (h : s.session = false) :
    ∃ t added, enterProg W s = .ok t ∧ Entered s t added := by
  have p : ∀ m ∈ armSteps ++ powerUpSteps, m.plain = true := by decide
  obtain ⟨u, hu⟩ := runSteps_ok (W := W) (s := s) p
    (by simp [armSteps, powerUpSteps, allAllowed, MicroStep.allowed])
  have r := runSteps_ran p hu
  obtain ⟨added, pa, ev⟩ := r.passed
  have k := r.kept
  exact ⟨{ u with session := true }, added, by simp only [enterProg, h, hu]; rfl, r.dir, r.lvl,
    ⟨k.rx, k.acc, k.att, k.rb, rfl, k.engState, k.sel, k.modeInput, k.startup, k.issue, k.result⟩,
    ⟨pa.trace, pa.deadline, pa.aged⟩, ev⟩

/-- `ENTER_PROG` in a session is a model fault before any event (R70, R145). -/
theorem enterProg_in_session (W : World) {s : State} (h : s.session = true) :
    enterProg W s = .error (.sessionActive s) := by
  simp [enterProg, h]

/-! ### Framing -/

/-- The micro-steps of a framed byte with the mode tuple `(m1, m0, b1)` (R72, R75). -/
def frameSteps (m1 m0 b1 : Level) (x : Byte) : List MicroStep := tupleSel m1 m0 b1 ++ transmitSteps x

theorem frameSteps_plain (m1 m0 b1 : Level) (x : Byte) : ∀ m ∈ frameSteps m1 m0 b1 x, m.plain = true := by
  intro m hm
  simp only [frameSteps, tupleSel, transmitSteps, List.cons_append, List.nil_append, List.mem_cons,
    List.not_mem_nil, or_false] at hm
  rcases hm with rfl | rfl | rfl | rfl | rfl | rfl | rfl | rfl | rfl | rfl | rfl | rfl | rfl | rfl | rfl <;> rfl

theorem transmitSteps_plain (x : Byte) : ∀ m ∈ transmitSteps x, m.plain = true := fun m hm =>
  frameSteps_plain false false false x m (by simp [frameSteps, hm])

theorem transmitSteps_allowed (x : Byte) {f : PLine → Dir} : allAllowed (transmitSteps x) f ↔ f .clk = .output := by
  simp [transmitSteps, allAllowed, MicroStep.allowed, MicroStep.dirAfter]

theorem frameSteps_allowed (m1 m0 b1 : Level) (x : Byte) {f : PLine → Dir} :
    allAllowed (frameSteps m1 m0 b1 x) f ↔
      f .ms1 = .output ∧ f .ms0 = .output ∧ f .bs1 = .output ∧ f .clk = .output := by
  simp [frameSteps, tupleSel, transmitSteps, allAllowed, MicroStep.allowed, MicroStep.dirAfter]

theorem transmitSteps_events (x : Byte) : TransmitEvents x ((transmitSteps x).map MicroStep.event) :=
  ⟨((transmitSteps x).map MicroStep.event).take 8, .refl _, rfl⟩

theorem frameSteps_events (m1 m0 b1 : Level) (x : Byte) :
    FrameEvents m1 m0 b1 x ((frameSteps m1 m0 b1 x).map MicroStep.event) :=
  ⟨(tupleSel m1 m0 b1).map MicroStep.event, _, by rw [frameSteps, List.map_append], transmitSteps_events x, .refl _⟩

/-- No framing operation undoes a control line's direction. -/
theorem frameSteps_controls {m1 m0 b1 : Level} {x : Byte} {s t : State} (h : Ran (frameSteps m1 m0 b1 x) s t) :
    (ControlsOut s → ControlsOut t) ∧ t.dirOf .rdy = s.dirOf .rdy := by
  constructor
  · intro c l hl
    have := c l hl
    rw [h.dir]
    simp only [sessionOutputs, List.mem_cons, List.not_mem_nil, or_false] at hl
    rcases hl with rfl | rfl | rfl | rfl | rfl | rfl | rfl <;> exact this
  · rw [h.dir]; rfl

/-- A framed byte in a session goes through. -/
theorem frameSteps_ok (W : World) (m1 m0 b1 : Level) (x : Byte) {s : State} (h : ControlsOut s) :
    ∃ t, runSteps W (frameSteps m1 m0 b1 x) s = .ok t ∧ Ran (frameSteps m1 m0 b1 x) s t := by
  have p := frameSteps_plain m1 m0 b1 x
  obtain ⟨t, ht⟩ := runSteps_ok (W := W) (s := s) p ((frameSteps_allowed m1 m0 b1 x).mpr
    ⟨h _ (by decide), h _ (by decide), h _ (by decide), h _ (by decide)⟩)
  exact ⟨t, ht, runSteps_ran p ht⟩

/-! ### Receiving -/

theorem writeBit_getLsbD (x : Byte) (i j : Fin 8) (v : Level) :
    (writeBit x i v).getLsbD j.val = if i = j then v else x.getLsbD j.val := by
  have hj := j.isLt
  have e : (1#8 <<< i.val).getLsbD j.val = decide (i = j) := by
    revert i j; decide
  cases v <;>
    simp only [writeBit, Bool.false_eq_true, if_true, if_false, BitVec.getLsbD_or, BitVec.getLsbD_and,
      BitVec.getLsbD_not, e] <;>
    by_cases h : i = j <;> cases x.getLsbD j.val <;> simp [h, hj]

/-- What releasing and sampling the data lines `is` does between `s` and `t`. -/
structure Sampled (is : List (Fin 8)) (s t : State) (added : List Event) : Prop where
  dir : ∀ l, t.dirOf l = if ∃ i ∈ is, l = .d i then .input else s.dirOf l
  lvl : ∀ l, t.lvlOf l = if ∃ i ∈ is, l = .protocol (.d i) then none else s.lvlOf l
  others : ∀ i, i ∉ is → t.rx.getLsbD i.val = s.rx.getLsbD i.val
  kept : Kept { s with rx := t.rx } t
  passed : Passed s t added
  events : added.filter own = is.flatMap (sampleEvents t.rx)

theorem sampleBits_spec (W : World) (is : List (Fin 8)) (nd : is.Nodup) (s : State) :
    ∃ t added, sampleBits W is s = .ok t ∧ Sampled is s t added := by
  induction is generalizing s with
  | nil =>
    exact ⟨s, [], rfl, fun l => by simp, fun l => by simp, fun i _ => rfl, Kept.refl s, Passed.refl s, rfl⟩
  | cons i is ih =>
    obtain ⟨u, hu⟩ := microStep_ok (W := W) (m := .rel (.d i)) (s := s) trivial
    have ru := microStep_ran (m := .rel (.d i)) rfl hu
    obtain ⟨ea, pa, fa⟩ := ru.passed
    have hin : u.dirOf (.d i) = .input := by rw [ru.dir]; simp [dirsAfter, MicroStep.dirAfter]
    generalize hv : W.answer u.countdown.tr (.d i) = v
    have hs := sample_ok (W := W) hin
    rw [hv] at hs
    obtain ⟨t, eb, ht, st⟩ := ih (List.nodup_cons.mp nd).2
      { u.countdown.did (.smp (.d i) v) with rx := writeBit u.rx i v }
    have bit : t.rx.getLsbD i.val = v := by
      rw [st.others i (List.nodup_cons.mp nd).1]
      exact (writeBit_getLsbD u.rx i i v).trans (if_pos rfl)
    have p2 := (countdown_passed u).trans (did_passed (e := .smp (.d i) v) (by simp) u.countdown)
    have p3 : Passed u { u.countdown.did (.smp (.d i) v) with rx := writeBit u.rx i v } _ :=
      ⟨p2.trace, p2.deadline, p2.aged⟩
    refine ⟨t, _, ?_, ?_, ?_, ?_, ?_, (pa.trans p3).trans st.passed, ?_⟩
    · simp only [sampleBits, hu, hs, bind, Except.bind]
      exact ht
    · intro l
      have hd : u.dirOf l = if PLine.d i = l then .input else s.dirOf l := by
        rw [ru.dir]; rfl
      have e : State.dirOf { u.countdown.did (.smp (.d i) v) with rx := writeBit u.rx i v } l = u.dirOf l := rfl
      rw [st.dir l, e, hd]
      by_cases h1 : ∃ j ∈ is, l = .d j
      · obtain ⟨j, hj, rfl⟩ := h1
        simp [hj]
      · by_cases h2 : PLine.d i = l
        · subst h2; simp
        · have h3 : ¬ l = PLine.d i := fun h => h2 h.symm
          simp [h1, h2, h3]
    · intro l
      have hd : u.lvlOf l = if Line.protocol (.d i) = l then none else s.lvlOf l := by
        rw [ru.lvl]; rfl
      have e : State.lvlOf { u.countdown.did (.smp (.d i) v) with rx := writeBit u.rx i v } l = u.lvlOf l := rfl
      rw [st.lvl l, e, hd]
      by_cases h1 : ∃ j ∈ is, l = .protocol (.d j)
      · obtain ⟨j, hj, rfl⟩ := h1
        simp [hj]
      · by_cases h2 : Line.protocol (.d i) = l
        · subst h2; simp
        · have h3 : ¬ l = Line.protocol (.d i) := fun h => h2 h.symm
          simp [h1, h2, h3]
    · intro j hj
      have hj' : i ≠ j ∧ j ∉ is := by
        constructor
        · rintro rfl; simp at hj
        · intro h; exact hj (List.mem_cons_of_mem _ h)
      rw [st.others j hj'.2]
      exact (writeBit_getLsbD u.rx i j v).trans ((if_neg hj'.1).trans (by rw [ru.kept.rx]))
    · have k1 := ru.kept
      have k2 := st.kept
      exact ⟨rfl, k2.acc.trans k1.acc, k2.att.trans k1.att, k2.rb.trans k1.rb, k2.session.trans k1.session,
        k2.engState.trans k1.engState, k2.sel.trans k1.sel, k2.modeInput.trans k1.modeInput,
        k2.startup.trans k1.startup, k2.issue.trans k1.issue, k2.result.trans k1.result⟩
    · have f1 : (if u.fires then [Event.tmFire] else []).filter own = [] := by split <;> simp [own]
      rw [List.filter_append, List.filter_append, fa, List.filter_append, f1, st.events, List.flatMap_cons]
      rw [sampleEvents, bit]
      rfl

/-- What `RECEIVE_BYTE` does between `s` and `t`; the byte is `t.rx`. -/
structure Received (s t : State) (added : List Event) : Prop where
  dir : ∀ l, t.dirOf l = if l ∈ dataLines then .input else s.dirOf l
  lvl : ∀ l, t.lvlOf l = if l = .protocol .oe then some true
    else if l ∈ dataLines.map .protocol then none else s.lvlOf l
  kept : Kept { s with rx := t.rx } t
  passed : Passed s t added
  events : ReceiveEvents t.rx (added.filter own)

theorem exists_receiveOrder (l : PLine) : (∃ i ∈ receiveOrder, l = .d i) ↔ l ∈ dataLines := by
  cases l with
  | d j => fin_cases j <;> simp [receiveOrder, dataLines]
  | _ => simp [dataLines]

theorem exists_receiveOrder_line (l : Line) :
    (∃ i ∈ receiveOrder, l = .protocol (.d i)) ↔ l ∈ dataLines.map .protocol := by
  cases l with
  | protocol l => simpa using exists_receiveOrder l
  | vccEn => simp
  | vppEn => simp

/-- `RECEIVE_BYTE` goes through when `OE` is an output (R76). -/
theorem receiveByte_spec (W : World) {s : State} (h : s.dirOf .oe = .output) :
    ∃ t added, receiveByte W s = .ok t ∧ Received s t added := by
  obtain ⟨u, hu⟩ := microStep_ok (W := W) (m := .set (.protocol .oe) false) (s := s) h
  have ru := microStep_ran rfl hu
  obtain ⟨ea, pa, fa⟩ := ru.passed
  obtain ⟨w, eb, hw, sw⟩ := sampleBits_spec W receiveOrder (by decide) { u with rx := 0#8 }
  have p : ∀ m ∈ [MicroStep.set (.protocol .oe) true, .dly .oeSettle], m.plain = true := by decide
  have hoe : w.dirOf .oe = .output := by
    rw [sw.dir]
    have : ¬ ∃ i ∈ receiveOrder, PLine.oe = .d i := by simp
    rw [if_neg this]
    have e : State.dirOf { u with rx := 0#8 } .oe = u.dirOf .oe := rfl
    rw [e, ru.dir]; exact h
  obtain ⟨t, ht⟩ := runSteps_ok (W := W) (s := w) p ⟨hoe, trivial, trivial⟩
  have rt := runSteps_ran p ht
  obtain ⟨ec, pc, fc⟩ := rt.passed
  have pb : Passed u w eb := ⟨sw.passed.trace, sw.passed.deadline, sw.passed.aged⟩
  refine ⟨t, _, ?_, ?_, ?_, ?_, (pa.trans pb).trans pc, ?_⟩
  · simp only [receiveByte, hu, hw, bind, Except.bind]
    exact ht
  · intro l
    rw [rt.dir]
    have e : dirsAfter [.set (.protocol .oe) true, .dly .oeSettle] w.dirOf l = w.dirOf l := rfl
    have e' : State.dirOf { u with rx := 0#8 } l = s.dirOf l := by
      have : State.dirOf { u with rx := 0#8 } l = u.dirOf l := rfl
      rw [this, ru.dir]; rfl
    rw [e, sw.dir, e']
    simp only [exists_receiveOrder]
  · intro l
    rw [rt.lvl]
    have e : lvlsAfter [.set (.protocol .oe) true, .dly .oeSettle] w.lvlOf l =
        if Line.protocol .oe = l then some true else w.lvlOf l := rfl
    have e' : State.lvlOf { u with rx := 0#8 } l = if Line.protocol .oe = l then some false else s.lvlOf l := by
      have : State.lvlOf { u with rx := 0#8 } l = u.lvlOf l := rfl
      rw [this, ru.lvl]; rfl
    rw [e, sw.lvl, e']
    simp only [exists_receiveOrder_line]
    by_cases h1 : Line.protocol .oe = l
    · subst h1; simp
    · have : ¬ l = Line.protocol .oe := fun h => h1 h.symm
      simp [h1, this]
  · have k1 := ru.kept
    have k2 := sw.kept
    have k3 := rt.kept
    exact ⟨rfl, k3.acc.trans (k2.acc.trans k1.acc), k3.att.trans (k2.att.trans k1.att),
      k3.rb.trans (k2.rb.trans k1.rb), k3.session.trans (k2.session.trans k1.session),
      k3.engState.trans (k2.engState.trans k1.engState), k3.sel.trans (k2.sel.trans k1.sel),
      k3.modeInput.trans (k2.modeInput.trans k1.modeInput), k3.startup.trans (k2.startup.trans k1.startup),
      k3.issue.trans (k2.issue.trans k1.issue), k3.result.trans (k2.result.trans k1.result)⟩
  · have rx : t.rx = w.rx := rt.kept.rx
    rw [List.filter_append, List.filter_append, fa, fc, sw.events, rx]
    simp [ReceiveEvents, receiveOrder, MicroStep.event]

/-- A reception keeps the control lines as they were. -/
theorem Received.controls {s t : State} {a : List Event} (h : Received s t a) :
    (ControlsOut s → ControlsOut t) ∧ t.dirOf .rdy = s.dirOf .rdy := by
  constructor
  · intro c l hl
    have := c l hl
    rw [h.dir]
    simp only [sessionOutputs, List.mem_cons, List.not_mem_nil, or_false] at hl
    rcases hl with rfl | rfl | rfl | rfl | rfl | rfl | rfl <;> simpa [dataLines] using this
  · rw [h.dir]; simp [dataLines]

/-! ### Byte-select steps -/

theorem selectSteps_ok (W : World) {ms : List MicroStep} {s : State} (c : ControlsOut s)
    (hms : ∀ m ∈ ms, ∃ v, m = .set (.protocol .bs1) v ∨ m = .set (.protocol .bs0) v) :
    ∃ t, runSteps W ms s = .ok t ∧ Ran ms s t ∧ t.dirOf = s.dirOf := by
  have p : ∀ m ∈ ms, m.plain = true := by
    intro m hm
    obtain ⟨v, rfl | rfl⟩ := hms m hm <;> rfl
  have dir : ∀ (f : PLine → Dir), dirsAfter ms f = f := by
    clear p
    induction ms with
    | nil => intro f; rfl
    | cons m ms ih =>
      intro f
      obtain ⟨v, rfl | rfl⟩ := hms m (by simp) <;>
        exact ih (fun m hm => hms m (by simp [hm])) f
  have ok : ∀ f : PLine → Dir, f .bs1 = .output → f .bs0 = .output → allAllowed ms f := by
    clear p dir
    induction ms with
    | nil => intro f _ _; trivial
    | cons m ms ih =>
      intro f h1 h0
      obtain ⟨v, rfl | rfl⟩ := hms m (by simp)
      · exact ⟨h1, ih (fun m hm => hms m (by simp [hm])) f h1 h0⟩
      · exact ⟨h0, ih (fun m hm => hms m (by simp [hm])) f h1 h0⟩
  obtain ⟨t, ht⟩ := runSteps_ok (W := W) (s := s) p (ok _ (c _ (by decide)) (c _ (by decide)))
  have r := runSteps_ran p ht
  exact ⟨t, ht, r, by rw [r.dir, dir]⟩

end Sys2Proof.Machine
end

