-- ==== Sys2Proof/Laws/Guard.lean ====
section
/-! SUPPORT. What the poll loop and the write-strobe guard do (42_timeout_guard.md R93, R95, R96, R98, R99). -/

namespace Sys2Proof.Machine

/-- What a poll loop does between `s` and `t` with the answers `polls`. -/
structure Polled (ready : Level) (s t : State) (g : GuardResult) (polls : List Level) (added : List Event) : Prop where
  dir : t.dirOf = s.dirOf
  lvl : t.lvlOf = s.lvlOf
  kept : Kept s t
  trace : t.tr = s.tr ++ added
  deadline : t.tmDeadline = s.tmDeadline
  stopped : t.tmRun = false
  result : g = guardResult t.tmFlag
  flag : t.tmFlag = (s.tmFlag || decide (Event.tmFire ∈ added))
  events : added.filter own = polls.map (.smp .rdy) ++ [.tmDisarm]
  fit : PollsFit ready polls g
  last : ∃ before r, added = before ++ [.smp .rdy r, .tmDisarm]

/-- A poll that sees the flag or a ready line ends the loop, whatever the bound (R93, R95). -/
theorem pollLoop_exit (W : World) (n : Nat) (s : State)
    (h : s.countdown.tmFlag = true ∨ W.answer s.countdown.tr .rdy = W.params.rdyReadyLevel) :
    ∃ g t polls added, pollLoop W n s = (g, t) ∧ Polled W.params.rdyReadyLevel s t g polls added := by
  generalize hr : W.answer s.countdown.tr .rdy = r at h
  refine ⟨guardResult s.countdown.tmFlag, ((s.countdown.polled r).disarmTimer.did .tmDisarm), [r],
    (if s.fires then [.tmFire] else []) ++ [.smp .rdy r, .tmDisarm], ?_, rfl, rfl,
    ⟨rfl, rfl, rfl, rfl, rfl, rfl, rfl, rfl, rfl, rfl, rfl⟩, ?_, rfl, rfl, rfl, ?_, ?_, ⟨[], r, rfl, by simp, ?_⟩, ⟨_, r, rfl⟩⟩
  · have c : (s.countdown.tmFlag || r == W.params.rdyReadyLevel) = true := by
      rcases h with h | h
      · rw [h]; rfl
      · rw [h]; simp
    unfold pollLoop
    simp only [hr, c, if_true]
  · by_cases f : s.fires = true <;> simp [State.polled, f]
  · by_cases f : s.fires = true <;> simp [State.polled, f]
  · by_cases f : s.fires = true <;> simp [own, f]
  · intro g
    rcases h with h | h
    · rw [h] at g; cases g
    · exact h

/-- A poll that sees neither goes on to the next (R93). -/
theorem pollLoop_more (W : World) (n : Nat) (s : State) (hf : s.countdown.tmFlag = false)
    (hr : W.answer s.countdown.tr .rdy ≠ W.params.rdyReadyLevel) :
    pollLoop W (n + 1) s = pollLoop W n (s.countdown.polled (W.answer s.countdown.tr .rdy)) := by
  have c : (s.countdown.tmFlag || W.answer s.countdown.tr .rdy == W.params.rdyReadyLevel) = false := by
    rw [hf, beq_false_of_ne hr]; rfl
  conv_lhs => unfold pollLoop
  simp only [c, Bool.false_eq_true, if_false]

/-- The loop's bound is never what ends it: a poll loop entered with the flag set, or with a running countdown that
fires within the bound, ends by the flag or by a ready answer (R95, R96). -/
theorem poll_loop_ends_by_flag_or_ready (W : World) (n : Nat) (s : State)
    (h : s.tmFlag = true ∨ (s.tmRun = true ∧ s.fireIn ≤ n)) :
    ∃ g t polls added, pollLoop W n s = (g, t) ∧ Polled W.params.rdyReadyLevel s t g polls added := by
  induction n generalizing s with
  | zero =>
    refine pollLoop_exit W 0 s (.inl ?_)
    rcases h with h | ⟨h1, h2⟩
    · simp [h]
    · simp [State.fires, h1, Nat.le_zero.mp h2]
  | succ n ih =>
    by_cases c : s.countdown.tmFlag = true ∨ W.answer s.countdown.tr .rdy = W.params.rdyReadyLevel
    · exact pollLoop_exit W (n + 1) s c
    obtain ⟨hf, hr⟩ := not_or.mp c
    rw [Bool.not_eq_true] at hf
    rw [pollLoop_more W n s hf hr]
    generalize W.answer s.countdown.tr .rdy = r at hr
    have hs : s.tmFlag = false ∧ s.fires = false := by simpa using hf
    have hrun : s.tmRun = true ∧ s.fireIn ≤ n + 1 := h.resolve_left (by simp [hs.1])
    have hfire : s.fireIn ≠ 0 := fun e => by simp [State.fires, hrun.1, e] at hs
    have hin : (s.countdown.polled r).fireIn = s.fireIn - 1 := by simp [State.polled, hrun.1]
    obtain ⟨g, t, polls, added, eq, sp⟩ := ih (s.countdown.polled r)
      (.inr ⟨by simp [State.polled, hrun.1, hs.2], by omega⟩)
    obtain ⟨b, l, e, hb, hl⟩ := sp.fit
    obtain ⟨b', l', e'⟩ := sp.last
    refine ⟨g, t, r :: polls, .smp .rdy r :: added, eq, sp.dir, sp.lvl, Kept.trans (t := s.countdown.polled r)
      ⟨rfl, rfl, rfl, rfl, rfl, rfl, rfl, rfl, rfl, rfl, rfl⟩ sp.kept, ?_, sp.deadline, sp.stopped,
      sp.result, ?_, ?_, ⟨r :: b, l, by simp [e], ?_, hl⟩, .smp .rdy r :: b', l', by simp [e']⟩
    · rw [sp.trace]; simp [State.polled, hs.2]
    · rw [sp.flag]; simp [State.polled, hs.2]
    · simp [own, ← sp.events]
    · intro x hx
      rcases List.mem_cons.mp hx with rfl | hx
      · exact hr
      · exact hb x hx

/-- What a guard does between `s` and `t`: `early` before its `TM_ARM`, `late` after it. -/
structure Guarded (ready : Level) (s t : State) (g : GuardResult) (polls : List Level) (early late : List Event) :
    Prop where
  dir : t.dirOf = s.dirOf
  lvl : ∀ l, t.lvlOf l = if l = .protocol .wr then some true else s.lvlOf l
  kept : Kept s t
  trace : t.tr = s.tr ++ (early ++ .tmArm 200#16 :: late)
  before : early.filter own = []
  deadline : t.tmDeadline = 200#16
  stopped : t.tmRun = false
  result : g = guardResult t.tmFlag
  flag : t.tmFlag = decide (Event.tmFire ∈ late)
  events : GuardEvents polls ((early ++ .tmArm 200#16 :: late).filter own)
  fit : PollsFit ready polls g
  last : ∃ before r, late = before ++ [.smp .rdy r, .tmDisarm]

/-- What `TM_ARM(n)` does: the countdown's point, the event, the bits (R90). -/
theorem tmArm_spec (W : World) (n : BitVec 16) (s : State) :
    microStep W (.tmArm n) s = .ok ((s.countdown.did (.tmArm n)).armTimer W n) := rfl

/-- A guard goes through when `WR` is an output and `RDY` an input (R93). -/
theorem wrGuard_spec (W : World) {s : State} (hw : s.dirOf .wr = .output) (hr : s.dirOf .rdy = .input) :
    ∃ g t polls early late, wrGuard W s = .ok (g, t) ∧ Guarded W.params.rdyReadyLevel s t g polls early late := by
  generalize ha : (s.countdown.did (.tmArm Config.guardDeadlineMs)).armTimer W Config.guardDeadlineMs = a
  have da : a.dirOf = s.dirOf := by rw [← ha]; rfl
  have p : ∀ m ∈ [MicroStep.set (.protocol .wr) false, .set (.protocol .wr) true, .dly .wrSettle], m.plain = true := by
    decide
  obtain ⟨u, hu⟩ := runSteps_ok (W := W) (s := a) p (by rw [da]; exact ⟨hw, hw, trivial, trivial⟩)
  have ru := runSteps_ran p hu
  obtain ⟨mid, pm, fm⟩ := ru.passed
  have run : runSteps W commitSteps s = .ok u := by
    show (do let s ← microStep W (.tmArm Config.guardDeadlineMs) s; runSteps W _ s) = _
    rw [tmArm_spec, ha]
    exact hu
  have flagA : a.tmFlag = false ∧ a.tmRun = true ∧ a.tmDeadline = 200#16 := by rw [← ha]; exact ⟨rfl, rfl, rfl⟩
  have du : u.dirOf = s.dirOf := by rw [ru.dir, ← da]; rfl
  have armed : u.tmFlag = true ∨ (u.tmRun = true ∧ u.fireIn ≤ u.fireIn) := by
    rcases pm.armed (.inr flagA.2.1) with h | h
    · exact .inl h
    · exact .inr ⟨h, le_refl _⟩
  obtain ⟨g, t, polls, added, eq, sp⟩ := poll_loop_ends_by_flag_or_ready W u.fireIn u armed
  obtain ⟨b, l, e⟩ := sp.last
  have ka : Kept s a := by rw [← ha]; exact ⟨rfl, rfl, rfl, rfl, rfl, rfl, rfl, rfl, rfl, rfl, rfl⟩
  have ta : a.tr = s.tr ++ ((if s.fires then [.tmFire] else []) ++ [.tmArm 200#16]) := by
    rw [← ha]
    by_cases f : s.fires = true <;> simp [f, Config.guardDeadlineMs]
  have early : (if s.fires then [Event.tmFire] else []).filter own = [] := by split <;> simp [own]
  refine ⟨g, t, polls, if s.fires then [.tmFire] else [], mid ++ added, ?_, ?_, ?_, (ka.trans ru.kept).trans sp.kept, ?_,
    early, ?_, sp.stopped, sp.result, ?_, ?_, sp.fit, mid ++ b, l, by simp [e]⟩
  · simp only [wrGuard, run, bind, Except.bind, du, hr, if_true]
    exact congrArg Except.ok eq
  · rw [sp.dir, du]
  · intro l
    rw [sp.lvl, ru.lvl]
    have : lvlsAfter [.set (.protocol .wr) false, .set (.protocol .wr) true, .dly .wrSettle] a.lvlOf l =
        if Line.protocol .wr = l then some true else if Line.protocol .wr = l then some false else a.lvlOf l := rfl
    rw [this]
    have la : a.lvlOf = s.lvlOf := by rw [← ha]; rfl
    rw [la]
    by_cases h : l = .protocol .wr
    · simp [h]
    · have h' : ¬ Line.protocol .wr = l := fun e => h e.symm
      simp [h, h']
  · rw [sp.trace, pm.trace, ta]; simp
  · rw [sp.deadline, pm.deadline, flagA.2.2]
  · rw [sp.flag]
    rcases pm.aged with ⟨h1, h2, _⟩ | ⟨h1, _, h2, _⟩
    · rw [h2, flagA.1]; simp [h1]
    · rw [h2]; simp [h1]
  · rw [List.filter_append, early, List.filter_cons_of_pos (by simp [own]), List.filter_append, fm, sp.events]
    simp [GuardEvents, MicroStep.event]

/-- The result of the one guard in a longer part of the trace is decided by its own events (R95). -/
theorem Guarded.decided {ready : Level} {s t : State} {g : GuardResult} {polls : List Level} {early late : List Event}
    (h : Guarded ready s t g polls early late) (pre post : List Event) :
    GuardDecided (pre ++ (early ++ .tmArm 200#16 :: late) ++ post) g := by
  obtain ⟨before, r, e⟩ := h.last
  refine ⟨pre ++ early, before, post, r, by simp [e], ?_⟩
  rw [h.result, h.flag, e]
  simp [guardResult]

theorem Guarded.timedOut_iff {ready : Level} {s t : State} {g : GuardResult} {polls : List Level} {a b : List Event}
    (h : Guarded ready s t g polls a b) : g = .timedOut ↔ t.tmFlag = true := by
  rw [h.result]; cases t.tmFlag <;> simp [guardResult]

end Sys2Proof.Machine
end

