-- ==== Sys2Proof/Laws/Engine.lean ====
section
/-! SUPPORT. What the operation programs do, from a state without a session (43_engine_operations.md R107 to R119). -/

namespace Sys2Proof.Machine

/-- The lines as every exit path leaves them: all released, both supplies off (R65, R119). -/
structure Rested (t : State) : Prop where
  dir : ∀ l, t.dirOf l = .input
  lvl : ∀ l : PLine, t.lvlOf (.protocol l) = none
  vcc : t.lvlOf .vccEn = some false
  vpp : t.lvlOf .vppEn = some false
  session : t.session = false

theorem Quieted.rested {s t : State} {a : List Event} (h : Quieted s t a) : Rested t :=
  ⟨h.dir, h.lvl, h.vcc, h.vpp, h.kept.session⟩

theorem Rested.quiesced {t : State} (h : Rested t) : Quiesced t := ⟨h.vcc, h.vpp, h.dir⟩

/-! ### Reading -/

/-- What `READ_RAW(loc)` does between `s` and `t`; the byte is `t.rx` (R107). -/
structure ReadBack (p : Config.Params) (loc : FuseLocation) (s t : State) (added : List Event) : Prop where
  rested : Rested t
  kept : Kept { s with rx := t.rx, session := false } t
  passed : Passed s t added
  events : ReadRawEvents p loc t.rx (added.filter own)

theorem readPair_eq_readTable (loc : FuseLocation) : readPair loc = readTable loc := by cases loc <;> rfl

theorem bselSetSteps_form (p1 p0 : Level) :
    ∀ m ∈ bselSetSteps p1 p0, ∃ v, m = .set (.protocol .bs1) v ∨ m = .set (.protocol .bs0) v := by
  intro m hm
  simp only [bselSetSteps, List.mem_cons, List.not_mem_nil, or_false] at hm
  rcases hm with rfl | rfl
  · exact ⟨_, .inl rfl⟩
  · exact ⟨_, .inr rfl⟩

theorem writeSelectSteps_form (loc : FuseLocation) :
    ∀ m ∈ writeSelectSteps loc, ∃ v, m = .set (.protocol .bs1) v ∨ m = .set (.protocol .bs0) v := by
  cases loc with
  | lock =>
    intro m hm
    simp only [writeSelectSteps, writePair, bs1HighSteps, List.mem_cons, List.not_mem_nil, or_false] at hm
    exact ⟨true, .inl hm⟩
  | _ => exact bselSetSteps_form _ _

theorem writeSelectSteps_events (loc : FuseLocation) :
    (writeSelectSteps loc).map MicroStep.event = writeSelectEvents loc := by
  cases loc <;> rfl

theorem readRaw_spec (W : World) (loc : FuseLocation) {s : State} (h : s.session = false) :
    ∃ t added, readRaw W loc s = .ok t ∧ ReadBack W.params loc s t added := by
  obtain ⟨a, ea, ha, A⟩ := enterProg_spec W h
  obtain ⟨b, hb, B⟩ := frameSteps_ok W true false false W.params.cmdReadFuse A.controls
  obtain ⟨eb, pb, fb⟩ := B.passed
  have cb := (frameSteps_controls B).1 A.controls
  obtain ⟨c, hc, C, dc⟩ := selectSteps_ok W cb (bselSetSteps_form (readPair loc).1 (readPair loc).2)
  obtain ⟨ec, pc, fc⟩ := C.passed
  have oe : c.dirOf .oe = .output := by rw [dc]; exact cb _ (by decide)
  obtain ⟨d, ed, hd, D⟩ := receiveByte_spec W oe
  obtain ⟨t, et, ht, T⟩ := quiesceLines_spec W d
  have rx : t.rx = d.rx := T.kept.rx
  have kb := B.kept
  have kc := C.kept
  refine ⟨t, _, ?_, T.rested, ?_, (((A.passed.trans pb).trans pc).trans D.passed).trans T.passed, ?_⟩
  · have hb' : runSteps W (commandSteps W.params.cmdReadFuse) a = .ok b := hb
    simp only [readRaw, ha, hb', hc, hd, bind, Except.bind]
    exact ht
  · exact ⟨rfl, T.kept.acc.trans (D.kept.acc.trans (kc.acc.trans (kb.acc.trans A.kept.acc))),
      T.kept.att.trans (D.kept.att.trans (kc.att.trans (kb.att.trans A.kept.att))),
      T.kept.rb.trans (D.kept.rb.trans (kc.rb.trans (kb.rb.trans A.kept.rb))), T.kept.session,
      T.kept.engState.trans (D.kept.engState.trans (kc.engState.trans (kb.engState.trans A.kept.engState))),
      T.kept.sel.trans (D.kept.sel.trans (kc.sel.trans (kb.sel.trans A.kept.sel))),
      T.kept.modeInput.trans (D.kept.modeInput.trans (kc.modeInput.trans (kb.modeInput.trans A.kept.modeInput))),
      T.kept.startup.trans (D.kept.startup.trans (kc.startup.trans (kb.startup.trans A.kept.startup))),
      T.kept.issue.trans (D.kept.issue.trans (kc.issue.trans (kb.issue.trans A.kept.issue))),
      T.kept.result.trans (D.kept.result.trans (kc.result.trans (kb.result.trans A.kept.result)))⟩
  · refine ⟨_, _, _, _, enterSteps_events, frameSteps_events true false false W.params.cmdReadFuse,
      rx ▸ D.events, quiesceSteps_events, ?_⟩
    simp only [List.filter_append, A.events, fb, fc, T.events, ← readPair_eq_readTable]
    rfl

/-! ### Identification -/

/-- The events of reading signature bytes at the addresses `as`, giving the bytes `xs` (R110). -/
inductive SignatureEvents : List Byte → List Byte → List Event → Prop
  | nil : SignatureEvents [] [] []
  | cons (a x : Byte) (as xs : List Byte) (load receive more : List Event) (l : FrameEvents false false false a load)
      (r : ReceiveEvents x receive) (rest : SignatureEvents as xs more) :
      SignatureEvents (a :: as) (x :: xs) (load ++ receive ++ more)

/-- What reading the signature bytes does between `s` and `t` in a session. -/
structure SignatureRead (as xs : List Byte) (s t : State) (added : List Event) : Prop where
  controls : ControlsOut t
  acc : t.acc = xs.foldl foldSignature s.acc
  kept : Kept { s with rx := t.rx, acc := t.acc } t
  passed : Passed s t added
  events : SignatureEvents as xs (added.filter own)

theorem readSignature_spec (W : World) (as : List Byte) {s : State} (h : ControlsOut s) :
    ∃ t xs added, readSignature W as s = .ok t ∧ SignatureRead as xs s t added := by
  induction as generalizing s with
  | nil => exact ⟨s, [], [], rfl, h, rfl, Kept.refl s, Passed.refl s, .nil⟩
  | cons a as ih =>
    obtain ⟨b, hb, B⟩ := frameSteps_ok W false false false a h
    obtain ⟨eb, pb, fb⟩ := B.passed
    have cb := (frameSteps_controls B).1 h
    obtain ⟨c, ec, hc, C⟩ := receiveByte_spec W (s := b) (cb _ (by decide))
    have cc := C.controls.1 cb
    obtain ⟨t, xs, et, ht, T⟩ := ih (s := { c with acc := foldSignature c.acc c.rx }) cc
    have pt : Passed c t et := ⟨T.passed.trace, T.passed.deadline, T.passed.aged⟩
    have ka : c.acc = s.acc := C.kept.acc.trans B.kept.acc
    refine ⟨t, c.rx :: xs, _, ?_, T.controls, ?_, ?_, (pb.trans C.passed).trans pt, ?_⟩
    · have hb' : runSteps W (addressSteps a) s = .ok b := hb
      simp only [readSignature, hb', hc, bind, Except.bind]
      exact ht
    · rw [T.acc, List.foldl_cons, ← ka]
    · have k := T.kept
      have kb := B.kept
      have kc := C.kept
      exact ⟨rfl, rfl, k.att.trans (kc.att.trans kb.att), k.rb.trans (kc.rb.trans kb.rb),
        k.session.trans (kc.session.trans kb.session), k.engState.trans (kc.engState.trans kb.engState),
        k.sel.trans (kc.sel.trans kb.sel), k.modeInput.trans (kc.modeInput.trans kb.modeInput),
        k.startup.trans (kc.startup.trans kb.startup), k.issue.trans (kc.issue.trans kb.issue),
        k.result.trans (kc.result.trans kb.result)⟩
    · rw [List.filter_append, List.filter_append, fb]
      exact .cons a c.rx as xs _ _ _ (frameSteps_events _ _ _ _) C.events T.events

/-- Three folds from 0 put byte 0 in the most significant place (R43, R110 (a)). -/
theorem foldSignature_three (b0 b1 b2 : Byte) :
    foldSignature (foldSignature (foldSignature 0#24 b0) b1) b2 = (b0 ++ b1 ++ b2 : BitVec 24) := by
  apply BitVec.eq_of_getLsbD_eq
  intro i hi
  simp only [foldSignature, BitVec.getLsbD_or, BitVec.getLsbD_shiftLeft, BitVec.getLsbD_append,
    BitVec.truncate_eq_setWidth, BitVec.getLsbD_setWidth, BitVec.getLsbD_zero]
  by_cases h1 : i < 8
  · simp [h1, hi]
  · have h5 : i - 8 < 24 := by omega
    have e2 : BitVec.getLsbD b2 i = false := BitVec.getLsbD_of_ge b2 i (by omega)
    by_cases h2 : i < 16
    · simp [h1, hi, h5, e2, show i - 8 < 8 by omega]
    · have e1 : BitVec.getLsbD b1 (i - 8) = false := BitVec.getLsbD_of_ge b1 (i - 8) (by omega)
      simp [h1, hi, h5, e1, e2, show ¬ i - 8 < 8 by omega, show i - 8 - 8 < 24 by omega]

/-- What `IDENTIFY` does between `s` and `t` with the bytes `b0`, `b1`, `b2` (R110). -/
structure Identified (W : World) (s t : State) (b0 b1 b2 : Byte) (added : List Event) : Prop where
  rested : Rested t
  acc : t.acc = (b0 ++ b1 ++ b2 : BitVec 24)
  sel : t.sel = lookup W.params.registry t.acc
  engState : t.engState = if t.sel.isSome then .deviceKnown else .deviceUnknown
  kept : Kept { s with rx := t.rx, acc := t.acc, session := false, sel := t.sel, engState := t.engState } t
  passed : Passed s t added
  events : ∃ enter command reads exit, EnterEvents enter ∧
    FrameEvents true false false W.params.cmdReadSignature command ∧
    SignatureEvents [0#8, 1#8, 2#8] [b0, b1, b2] reads ∧ QuiesceEvents exit ∧
    added.filter own = enter ++ command ++ reads ++ exit

theorem SignatureEvents.three {as xs : List Byte} {e : List Event} (h : SignatureEvents as xs e) : xs.length = as.length := by
  induction h with
  | nil => rfl
  | cons => simp [*]

theorem identify_spec (W : World) {s : State} (h : s.session = false) :
    ∃ t b0 b1 b2 added, identify W s = .ok (.identified t.acc t.sel, t) ∧ Identified W s t b0 b1 b2 added := by
  obtain ⟨a, ea, ha, A⟩ := enterProg_spec W h
  obtain ⟨b, hb, B⟩ := frameSteps_ok W true false false W.params.cmdReadSignature A.controls
  obtain ⟨eb, pb, fb⟩ := B.passed
  have cb := (frameSteps_controls B).1 A.controls
  obtain ⟨c, xs, ec, hc, C⟩ := readSignature_spec W [0#8, 1#8, 2#8] (s := { b with acc := 0#24 }) cb
  obtain ⟨d, ed, hd, D⟩ := quiesceLines_spec W c
  have len := C.events.three
  obtain ⟨b0, b1, b2, rfl⟩ : ∃ b0 b1 b2, xs = [b0, b1, b2] := by
    match xs, len with
    | [b0, b1, b2], _ => exact ⟨b0, b1, b2, rfl⟩
  have acc : d.acc = (b0 ++ b1 ++ b2 : BitVec 24) := by
    rw [D.kept.acc, ← foldSignature_three]; exact C.acc
  have pc : Passed b c ec := ⟨C.passed.trace, C.passed.deadline, C.passed.aged⟩
  have p := ((A.passed.trans pb).trans pc).trans D.passed
  have ka := A.kept
  have kb := B.kept
  have kc := C.kept
  have kd := D.kept
  refine ⟨d.selectDevice (lookup W.params.registry d.acc), b0, b1, b2, _, ?_,
    ⟨D.dir, D.lvl, D.vcc, D.vpp, D.kept.session⟩, acc, rfl, rfl, ?_, ⟨p.trace, p.deadline, p.aged⟩,
    _, _, _, _, enterSteps_events, frameSteps_events true false false W.params.cmdReadSignature, C.events,
    quiesceSteps_events, ?_⟩
  · have hb' : runSteps W (commandSteps W.params.cmdReadSignature) a = .ok b := hb
    simp only [identify, ha, hb', hc, exitProg, hd, bind, Except.bind, pure, Except.pure, State.selectDevice_acc,
      State.selectDevice_sel]
  · exact ⟨rfl, rfl, kd.att.trans (kc.att.trans (kb.att.trans ka.att)),
      kd.rb.trans (kc.rb.trans (kb.rb.trans ka.rb)), kd.session, rfl, rfl,
      kd.modeInput.trans (kc.modeInput.trans (kb.modeInput.trans ka.modeInput)),
      kd.startup.trans (kc.startup.trans (kb.startup.trans ka.startup)),
      kd.issue.trans (kc.issue.trans (kb.issue.trans ka.issue)),
      kd.result.trans (kc.result.trans (kb.result.trans ka.result))⟩
  · simp only [List.filter_append, A.events, fb, D.events]

/-! ### Writing -/

/-- What holds after one attempt or several of a write or an erase, whatever happened before: the exit path has run,
the monitor is stopped and its flag is the last guard's (R99, R119). -/
structure Tried (s t : State) (g : GuardResult) : Prop where
  rested : Rested t
  kept : Kept { s with rx := t.rx, att := t.att, rb := t.rb, session := false } t
  deadline : t.tmDeadline = 200#16
  stopped : t.tmRun = false
  result : g = guardResult t.tmFlag

theorem guardResult_eq_timedOut (f : Bool) : guardResult f = .timedOut ↔ f = true := by cases f <;> simp [guardResult]

theorem guardResult_eq_ready (f : Bool) : guardResult f = .ready ↔ f = false := by cases f <;> simp [guardResult]

/-- One attempt of `WRITE_FUSE` or `WRITE_LOCK` (R112, R114). -/
theorem writeAttempt_spec (W : World) (cmd : Byte) (loc : FuseLocation) (value : Byte) {s : State}
    (h : s.session = false) :
    ∃ g t polls added, writeAttempt W cmd loc value s = .ok (g, t) ∧ Tried s t g ∧ t.att = s.att ∧ t.rb = t.rx ∧
      t.tr = s.tr ++ added ∧ WriteAttemptEvents W.params cmd loc value polls t.rb (sequencerEvents added) ∧
      PollsFit W.params.rdyReadyLevel polls g ∧ GuardDecided added g := by
  obtain ⟨z, hz⟩ := runSteps_ok (W := W) (ms := [.dly .preWrite]) (s := s) (by decide) ⟨trivial, trivial⟩
  have Z := runSteps_ran (ms := [.dly .preWrite]) (by decide) hz
  obtain ⟨ez, pz, fz⟩ := Z.passed
  obtain ⟨a, ea, ha, A⟩ := enterProg_spec W (Z.kept.session.trans h)
  obtain ⟨b, hb, B⟩ := frameSteps_ok W true false false cmd A.controls
  obtain ⟨eb, pb, fb⟩ := B.passed
  have cb := (frameSteps_controls B).1 A.controls
  obtain ⟨c, hc, C⟩ := frameSteps_ok W false true false value cb
  obtain ⟨ec, pc, fc⟩ := C.passed
  have cc := (frameSteps_controls C).1 cb
  have rc : c.dirOf .rdy = .input :=
    (frameSteps_controls C).2.trans ((frameSteps_controls B).2.trans A.rdy)
  obtain ⟨d, hd, D, dd⟩ := selectSteps_ok W cc (writeSelectSteps_form loc)
  obtain ⟨ed, pd, fd⟩ := D.passed
  obtain ⟨g, e, polls, early, late, he, E⟩ := wrGuard_spec W (s := d) (by rw [dd]; exact cc _ (by decide)) (by rw [dd]; exact rc)
  have ce : ControlsOut e := by intro l hl; rw [E.dir, dd]; exact cc l hl
  obtain ⟨f, hf, F, _⟩ := selectSteps_ok W ce (bselSetSteps_form false false)
  obtain ⟨ef, pf, ff⟩ := F.passed
  obtain ⟨q, eq, hq, Q⟩ := quiesceLines_spec W f
  obtain ⟨t, et, ht, T⟩ := readRaw_spec W loc (s := q) Q.kept.session
  have pre := ((((pz.trans A.passed).trans pb).trans pc).trans pd)
  have post := (pf.trans Q.passed).trans T.passed
  have quiet := post.quiet E.stopped
  have kz := Z.kept
  have ka := A.kept
  have kb := B.kept
  have kc := C.kept
  have kd := D.kept
  have ke := E.kept
  have kf := F.kept
  have kq := Q.kept
  have kt := T.kept
  refine ⟨g, { t with rb := t.rx }, polls, (ez ++ ea ++ eb ++ ec ++ ed) ++ (early ++ .tmArm 200#16 :: late) ++ (ef ++ eq ++ et), ?_, ⟨⟨T.rested.dir, T.rested.lvl, T.rested.vcc, T.rested.vpp, T.rested.session⟩,
    ⟨rfl, ?_, rfl, rfl, kt.session, ?_, ?_, ?_, ?_, ?_, ?_⟩, ?_, quiet.2.2, ?_⟩, ?_, rfl, ?_, ?_, E.fit, E.decided _ _⟩
  · have hb' : runSteps W (commandSteps cmd) a = .ok b := hb
    have hc' : runSteps W (dataSteps value) b = .ok c := hc
    have hf' : runSteps W bselClearSteps e = .ok f := hf
    have ht' : readRaw W loc q = .ok t := ht
    simp only [writeAttempt, hz, ha, hb', hc', hd, he, hf', exitProg, hq, ht', bind, Except.bind, pure, Except.pure]
  · exact kt.acc.trans (kq.acc.trans (kf.acc.trans (ke.acc.trans (kd.acc.trans (kc.acc.trans (kb.acc.trans (ka.acc.trans kz.acc)))))))
  · exact kt.engState.trans (kq.engState.trans (kf.engState.trans (ke.engState.trans (kd.engState.trans (kc.engState.trans
      (kb.engState.trans (ka.engState.trans kz.engState)))))))
  · exact kt.sel.trans (kq.sel.trans (kf.sel.trans (ke.sel.trans (kd.sel.trans (kc.sel.trans
      (kb.sel.trans (ka.sel.trans kz.sel)))))))
  · exact kt.modeInput.trans (kq.modeInput.trans (kf.modeInput.trans (ke.modeInput.trans (kd.modeInput.trans
      (kc.modeInput.trans (kb.modeInput.trans (ka.modeInput.trans kz.modeInput)))))))
  · exact kt.startup.trans (kq.startup.trans (kf.startup.trans (ke.startup.trans (kd.startup.trans
      (kc.startup.trans (kb.startup.trans (ka.startup.trans kz.startup)))))))
  · exact kt.issue.trans (kq.issue.trans (kf.issue.trans (ke.issue.trans (kd.issue.trans
      (kc.issue.trans (kb.issue.trans (ka.issue.trans kz.issue)))))))
  · exact kt.result.trans (kq.result.trans (kf.result.trans (ke.result.trans (kd.result.trans
      (kc.result.trans (kb.result.trans (ka.result.trans kz.result)))))))
  · exact post.deadline.trans E.deadline
  · show g = guardResult t.tmFlag
    rw [quiet.2.1]; exact E.result
  · exact kt.att.trans (kq.att.trans (kf.att.trans (ke.att.trans (kd.att.trans (kc.att.trans (kb.att.trans (ka.att.trans kz.att)))))))
  · show t.tr = _
    rw [post.trace, E.trace, pre.trace]
    simp only [List.append_assoc]
  · refine ⟨_, _, _, _, _, _, enterSteps_events, frameSteps_events true false false cmd,
      frameSteps_events false true false value, E.events, quiesceSteps_events, T.events, ?_⟩
    generalize early ++ .tmArm 200#16 :: late = mid
    simp only [List.filter_append, fz, A.events, fb, fc, fd, ff, Q.events, writeSelectSteps_events, List.append_assoc]
    rfl

theorem Tried.trans {s t u : State} {g k : GuardResult} (h : Tried s t g) (i : Tried t u k) : Tried s u k where
  rested := i.rested
  kept := ⟨rfl, i.kept.acc.trans h.kept.acc, rfl, rfl, i.kept.session, i.kept.engState.trans h.kept.engState,
    i.kept.sel.trans h.kept.sel, i.kept.modeInput.trans h.kept.modeInput, i.kept.startup.trans h.kept.startup,
    i.kept.issue.trans h.kept.issue, i.kept.result.trans h.kept.result⟩
  deadline := i.deadline
  stopped := i.stopped
  result := i.result

/-- Counting an attempt changes nothing an attempt is measured against. -/
theorem Tried.ofCount {s t : State} {g : GuardResult} {n : Nat} (h : Tried { s with att := n } t g) : Tried s t g :=
  ⟨h.rested, h.kept, h.deadline, h.stopped, h.result⟩

/-- What the attempts of a write do between `s` and `t`: the last one decides what is left (R112, R114). -/
structure Wrote (p : Config.Params) (cmd : Byte) (loc : FuseLocation) (value : Byte) (s t : State)
    (before : List Attempt) (last : Attempt) (added : List Event) : Prop where
  tried : Tried s t last.guard
  att : t.att = s.att + (before.length + 1)
  rb : t.rb = last.readBack
  rx : t.rx = last.readBack
  trace : t.tr = s.tr ++ added
  events : WriteAttemptsEvents p cmd loc value (before ++ [last]) added
  earlier : ∀ a ∈ before, a.guard = .ready ∧ a.readBack ≠ value
  ended : last.guard = .timedOut ∨ last.readBack = value ∨ t.att = 4

/-- The attempt loop with `n + 1` attempts left (R112). -/
theorem writeLoop_spec (W : World) (cmd : Byte) (loc : FuseLocation) (value : Byte) (n : Nat) {s : State}
    (h : s.session = false) (left : s.att + (n + 1) = 4) :
    ∃ t before last added, writeLoop W cmd loc value (n + 1) s = .ok t ∧
      Wrote W.params cmd loc value s t before last added := by
  induction n generalizing s with
  | zero =>
    obtain ⟨g, t, polls, added, ht, T, att, rb, tr, ev, fit, dec⟩ :=
      writeAttempt_spec W cmd loc value (s := { s with att := s.att + 1 }) h
    have four : t.att = 4 := att.trans left
    refine ⟨t, [], ⟨polls, g, t.rb⟩, added, ?_, T.ofCount, att, rfl, rb.symm, tr, ?_, by simp, .inr (.inr four)⟩
    · have c : g = .timedOut ∨ t.rb = value ∨ t.att = Config.attemptMax := .inr (.inr four)
      simp only [writeLoop, ht, bind, Except.bind, c, if_true]
      rfl
    · simpa using WriteAttemptsEvents.cons ⟨polls, g, t.rb⟩ [] _ [] ev fit dec .nil
  | succ n ih =>
    obtain ⟨g, t, polls, added, ht, T, att, rb, tr, ev, fit, dec⟩ :=
      writeAttempt_spec W cmd loc value (s := { s with att := s.att + 1 }) h
    have one := WriteAttemptsEvents.cons (p := W.params) (cmd := cmd) (loc := loc) (value := value) ⟨polls, g, t.rb⟩
    by_cases c : g = .timedOut ∨ t.rb = value ∨ t.att = Config.attemptMax
    · refine ⟨t, [], ⟨polls, g, t.rb⟩, added, ?_, T.ofCount, att, rfl, rb.symm, tr, ?_, by simp, c⟩
      · simp only [writeLoop, ht, bind, Except.bind, c, if_true]
        rfl
      · simpa using one [] _ [] ev fit dec .nil
    · have ready : g = .ready := by cases g <;> simp_all
      have count : t.att = s.att + 1 := att
      obtain ⟨u, before, last, more, hu, U⟩ := ih (s := t) T.rested.session (by omega)
      refine ⟨u, ⟨polls, g, t.rb⟩ :: before, last, added ++ more, ?_, T.ofCount.trans U.tried, ?_, U.rb, U.rx, ?_, ?_, ?_,
        U.ended⟩
      · conv_lhs => unfold writeLoop
        simp only [ht, bind, Except.bind, c, if_false]
        exact hu
      · rw [U.att, List.length_cons]; omega
      · rw [U.trace, tr, List.append_assoc]
      · exact one _ _ _ ev fit dec U.events
      · intro a ha
        rcases List.mem_cons.mp ha with rfl | ha
        · exact ⟨ready, fun e => c (.inr (.inl e))⟩
        · exact U.earlier a ha

theorem Wrote.policy {p : Config.Params} {cmd : Byte} {loc : FuseLocation} {value : Byte} {s t : State}
    {before : List Attempt} {last : Attempt} {added : List Event}
    (h : Wrote p cmd loc value s t before last added) (zero : s.att = 0) (most : t.att ≤ 4) :
    WritePolicy value (before ++ [last]) := by
  have e := h.att
  refine ⟨before, last, rfl, ?_, h.earlier, ?_⟩
  · simp; omega
  · simpa [show t.att = before.length + 1 by omega] using h.ended

theorem writeLoop_att (W : World) (cmd : Byte) (loc : FuseLocation) (value : Byte) (n : Nat) {s t : State}
    (h : s.session = false) (left : s.att + (n + 1) = 4) (ht : writeLoop W cmd loc value (n + 1) s = .ok t) : t.att ≤ 4 := by
  induction n generalizing s with
  | zero =>
    obtain ⟨u, before, last, added, hu, U⟩ := writeLoop_spec W cmd loc value 0 h left
    obtain ⟨g, v, polls, more, hv, T, att, _⟩ := writeAttempt_spec W cmd loc value (s := { s with att := s.att + 1 }) h
    have four : v.att = 4 := att.trans left
    have c : g = .timedOut ∨ v.rb = value ∨ v.att = Config.attemptMax := .inr (.inr four)
    simp only [writeLoop, hv, bind, Except.bind, c, if_true] at ht
    injection ht with ht
    rw [← ht, four]
  | succ n ih =>
    obtain ⟨g, v, polls, more, hv, T, att, _⟩ := writeAttempt_spec W cmd loc value (s := { s with att := s.att + 1 }) h
    have count : v.att = s.att + 1 := att
    by_cases c : g = .timedOut ∨ v.rb = value ∨ v.att = Config.attemptMax
    · simp only [writeLoop, hv, bind, Except.bind, c, if_true] at ht
      injection ht with ht
      rw [← ht]; omega
    · unfold writeLoop at ht
      simp only [hv, bind, Except.bind, c, if_false] at ht
      exact ih (s := v) T.rested.session (by omega) ht

/-- The whole body of `WRITE_FUSE` and `WRITE_LOCK` (R112, R114). -/
theorem writeLocation_spec (W : World) (cmd : Byte) (loc : FuseLocation) (value : Byte) {s : State}
    (h : s.session = false) :
    ∃ t before last added, writeLocation W cmd loc value s = .ok t ∧
      Wrote W.params cmd loc value { s with att := 0 } t before last added ∧ WritePolicy value (before ++ [last]) := by
  obtain ⟨t, before, last, added, ht, T⟩ := writeLoop_spec W cmd loc value 3 (s := { s with att := 0 }) h rfl
  exact ⟨t, before, last, added, ht, T, T.policy rfl (writeLoop_att W cmd loc value 3 (s := { s with att := 0 }) h rfl ht)⟩

/-! ### Default sets -/

/-- The bytes of `WRITE_FUSE_DEFAULTS` (R115): the writes performed, the status, and what the last guard left. -/
theorem writeDefaults_spec (W : World) (l : List (FuseLocation × Byte)) (ne : l ≠ []) {s : State} (h : s.session = false) :
    ∃ st t writes added last, writeDefaults W l s = .ok (st, t) ∧ DefaultsRun W.params l writes added ∧
      st = statusOfWrites writes ∧ Tried s t last.guard ∧ (writes.map (fun w => w.2.2)).getLast? = some last ∧
      t.rb = last.readBack ∧ t.tr = s.tr ++ added ∧ t.att ≤ 4 := by
  induction l generalizing s with
  | nil => exact absurd rfl ne
  | cons w l ih =>
    obtain ⟨loc, v⟩ := w
    obtain ⟨t, before, last, added, ht, T, policy⟩ := writeLocation_spec W W.params.cmdWriteFuse loc v h
    have four : t.att ≤ 4 := by
      have := T.att
      obtain ⟨b, l, e, le, _⟩ := policy
      simp at le this; omega
    have T' : Tried s t last.guard := T.tried.ofCount
    by_cases f : t.tmFlag = true
    · have g : last.guard = .timedOut := by rw [T'.result]; exact (guardResult_eq_timedOut _).mpr f
      refine ⟨.writeTimeout loc, t, [(loc, v, last)], added, last, ?_, .stopped loc v l before last _ policy T.events (.inl g),
        by simp [statusOfWrites, g], T', rfl, T.rb, T.trace, four⟩
      simp only [writeDefaults, ht, bind, Except.bind, f, if_true]
      rfl
    · have ready : last.guard = .ready := by
        rw [T'.result]; exact (guardResult_eq_ready _).mpr (by simpa using f)
      by_cases m : t.rb ≠ v
      · have m' : last.readBack ≠ v := T.rb ▸ m
        refine ⟨.verifyMismatch loc t.rb, t, [(loc, v, last)], added, last, ?_,
          .stopped loc v l before last _ policy T.events (.inr m'), by simp [statusOfWrites, ready, m', T.rb], T', rfl,
          T.rb, T.trace, four⟩
        simp only [writeDefaults, ht, bind, Except.bind, f]
        rw [if_neg (by simp), if_pos m]
        rfl
      · have took : last.guard = .ready ∧ last.readBack = v := ⟨ready, by rw [← T.rb]; exact not_not.mp m⟩
        have f' : t.tmFlag = false := by simpa using f
        have more : writeDefaults W ((loc, v) :: l) s = writeDefaults W l t := by
          conv_lhs => unfold writeDefaults
          simp only [ht, bind, Except.bind, f']
          rw [if_neg (by simp), if_neg m]
        match l, ih with
        | [], _ =>
          refine ⟨.ok, t, [(loc, v, last)], added ++ [], last, by rw [more]; rfl, ?_, by simp [statusOfWrites, took],
            T', rfl, T.rb, by rw [T.trace]; simp, four⟩
          exact .took loc v [] before last _ _ [] policy T.events took .done
        | w :: l, ih =>
          obtain ⟨st, u, writes, rest, end_, hu, run, hst, U, hl, rb, tr, att⟩ := ih (by simp) (s := t) T'.rested.session
          refine ⟨st, u, (loc, v, last) :: writes, added ++ rest, end_, by rw [more, hu], ?_, by simp [statusOfWrites, took, hst],
            T'.trans U, ?_, rb, by rw [tr, T.trace]; simp, att⟩
          · exact .took loc v _ before last _ _ writes policy T.events took run
          · rw [List.map_cons]
            cases writes with
            | nil => simp at hl
            | cons a b => simpa using hl

/-! ### Erasing -/

/-- One attempt of `ERASE_DEVICE` (R116). -/
theorem eraseAttempt_spec (W : World) {s : State} (h : s.session = false) :
    ∃ g t polls added, eraseAttempt W s = .ok (g, t) ∧ Tried s t g ∧ t.att = s.att ∧ t.rb = s.rb ∧ t.rx = s.rx ∧
      t.tr = s.tr ++ added ∧ EraseAttemptEvents W.params polls (sequencerEvents added) ∧
      PollsFit W.params.rdyReadyLevel polls g ∧ GuardDecided added g := by
  obtain ⟨a, ea, ha, A⟩ := enterProg_spec W h
  obtain ⟨b, hb, B⟩ := frameSteps_ok W true false false W.params.cmdChipErase A.controls
  obtain ⟨eb, pb, fb⟩ := B.passed
  have cb := (frameSteps_controls B).1 A.controls
  have rb : b.dirOf .rdy = .input := (frameSteps_controls B).2.trans A.rdy
  obtain ⟨g, c, polls, early, late, hc, C⟩ := wrGuard_spec W (s := b) (cb _ (by decide)) rb
  obtain ⟨t, et, ht, T⟩ := quiesceLines_spec W c
  have pre := A.passed.trans pb
  have quiet := T.passed.quiet C.stopped
  have ka := A.kept
  have kb := B.kept
  have kc := C.kept
  have kt := T.kept
  refine ⟨g, t, polls, (ea ++ eb) ++ (early ++ .tmArm 200#16 :: late) ++ et, ?_,
    ⟨T.rested, ⟨rfl, ?_, rfl, rfl, kt.session, ?_, ?_, ?_, ?_, ?_, ?_⟩, ?_, quiet.2.2, ?_⟩, ?_, ?_, ?_, ?_, ?_, C.fit, C.decided _ _⟩
  · have hb' : runSteps W (commandSteps W.params.cmdChipErase) a = .ok b := hb
    simp only [eraseAttempt, ha, hb', hc, exitProg, ht, bind, Except.bind, pure, Except.pure]
  · exact kt.acc.trans (kc.acc.trans (kb.acc.trans ka.acc))
  · exact kt.engState.trans (kc.engState.trans (kb.engState.trans ka.engState))
  · exact kt.sel.trans (kc.sel.trans (kb.sel.trans ka.sel))
  · exact kt.modeInput.trans (kc.modeInput.trans (kb.modeInput.trans ka.modeInput))
  · exact kt.startup.trans (kc.startup.trans (kb.startup.trans ka.startup))
  · exact kt.issue.trans (kc.issue.trans (kb.issue.trans ka.issue))
  · exact kt.result.trans (kc.result.trans (kb.result.trans ka.result))
  · exact T.passed.deadline.trans C.deadline
  · rw [quiet.2.1]; exact C.result
  · exact kt.att.trans (kc.att.trans (kb.att.trans ka.att))
  · exact kt.rb.trans (kc.rb.trans (kb.rb.trans ka.rb))
  · exact kt.rx.trans (kc.rx.trans (kb.rx.trans ka.rx))
  · rw [T.passed.trace, C.trace, pre.trace]
    simp only [List.append_assoc]
  · refine ⟨_, _, _, _, enterSteps_events, frameSteps_events true false false W.params.cmdChipErase, C.events,
      quiesceSteps_events, ?_⟩
    generalize early ++ .tmArm 200#16 :: late = mid
    simp only [List.filter_append, A.events, fb, T.events]

/-- What the attempts of an erase do between `s` and `t` (R116). -/
structure Erased (p : Config.Params) (s t : State) (before : List Attempt) (last : Attempt) (added : List Event) : Prop where
  tried : Tried s t last.guard
  att : t.att = s.att + (before.length + 1)
  rb : t.rb = s.rb
  rx : t.rx = s.rx
  trace : t.tr = s.tr ++ added
  events : EraseAttemptsEvents p (before ++ [last]) added
  earlier : ∀ a ∈ before, a.guard = .timedOut
  ended : last.guard = .ready ∨ t.att = 4
  most : t.att ≤ 4

/-- The erase loop with `n + 1` attempts left (R116). -/
theorem eraseLoop_spec (W : World) (n : Nat) (k : GuardResult) {s : State} (h : s.session = false)
    (left : s.att + (n + 1) = 4) :
    ∃ g t before last added, eraseLoop W (n + 1) k s = .ok (g, t) ∧ g = last.guard ∧
      Erased W.params s t before last added := by
  induction n generalizing s k with
  | zero =>
    obtain ⟨g, t, polls, added, ht, T, att, rb, rx, tr, ev, fit, dec⟩ := eraseAttempt_spec W (s := { s with att := s.att + 1 }) h
    have four : t.att = 4 := att.trans left
    refine ⟨g, t, [], ⟨polls, g, t.rb⟩, added, ?_, rfl, T.ofCount, att, rb, rx, tr, ?_, by simp, .inr four, four.le⟩
    · have c : g = .ready ∨ t.att = Config.attemptMax := .inr four
      simp only [eraseLoop, ht, bind, Except.bind, c, if_true]
      rfl
    · simpa using EraseAttemptsEvents.cons ⟨polls, g, t.rb⟩ [] _ [] ev fit dec .nil
  | succ n ih =>
    obtain ⟨g, t, polls, added, ht, T, att, rb, rx, tr, ev, fit, dec⟩ := eraseAttempt_spec W (s := { s with att := s.att + 1 }) h
    have one := EraseAttemptsEvents.cons (p := W.params) ⟨polls, g, t.rb⟩
    have count : t.att = s.att + 1 := att
    by_cases c : g = .ready ∨ t.att = Config.attemptMax
    · refine ⟨g, t, [], ⟨polls, g, t.rb⟩, added, ?_, rfl, T.ofCount, att, rb, rx, tr, ?_, by simp, c, by omega⟩
      · simp only [eraseLoop, ht, bind, Except.bind, c, if_true]
        rfl
      · simpa using one [] _ [] ev fit dec .nil
    · have timedOut : g = .timedOut := by cases g <;> simp_all
      obtain ⟨g', u, before, last, more, hu, hg, U⟩ := ih g (s := t) T.rested.session (by omega)
      refine ⟨g', u, ⟨polls, g, t.rb⟩ :: before, last, added ++ more, ?_, hg, T.ofCount.trans U.tried, ?_, U.rb.trans rb,
        U.rx.trans rx, ?_, ?_, ?_, U.ended, U.most⟩
      · conv_lhs => unfold eraseLoop
        simp only [ht, bind, Except.bind, c, if_false]
        exact hu
      · rw [U.att, List.length_cons]; omega
      · rw [U.trace, tr, List.append_assoc]
      · exact one _ _ _ ev fit dec U.events
      · intro a ha
        rcases List.mem_cons.mp ha with rfl | ha
        · exact timedOut
        · exact U.earlier a ha

theorem Erased.policy {p : Config.Params} {s t : State} {before : List Attempt} {last : Attempt} {added : List Event}
    (h : Erased p s t before last added) (zero : s.att = 0) : ErasePolicy (before ++ [last]) := by
  have e := h.att
  have m := h.most
  refine ⟨before, last, rfl, ?_, h.earlier, ?_⟩
  · simp; omega
  · simpa [show t.att = before.length + 1 by omega] using h.ended

end Sys2Proof.Machine
end

