-- ==== Sys2Proof/Laws/Operations.lean ====
section
/-! SUPPORT. What an operation that is a list of micro-steps of the lines answers: where it completes, with what, and where it faults. -/

namespace Sys2Proof.Machine

theorem Passed.onlyFires {s t : State} {a : List Event} (h : Passed s t a) : MonitorOnlyFires s t := by
  refine ⟨h.deadline, ?_⟩
  rcases h.aged with ⟨_, h2, h3⟩ | ⟨_, h2, h3, h4⟩
  · exact .inl ⟨h2, h3⟩
  · exact .inr ⟨h2, h3, h4⟩

/-- What a completed list of micro-steps leaves, as an operation. -/
structure Completed (ms : List MicroStep) (r : OpResult) (s t : State) : Prop where
  result : t.result = r
  idle : t.seq = none
  dir : t.dirOf = dirsAfter ms s.dirOf
  lvl : t.lvlOf = lvlsAfter ms s.lvlOf
  performed : Performed s t (ms.map MicroStep.event)
  flags : FlagsKept s t
  rx : t.rx = s.rx
  acc : t.acc = s.acc
  att : t.att = s.att
  rb : t.rb = s.rb
  modeInput : t.modeInput = s.modeInput
  startup : t.startup = s.startup
  issue : t.issue = s.issue

/-- An operation of line micro-steps completes where each is allowed when it comes (R27, R61). -/
theorem perform_steps (i : Instr) {ms : List MicroStep} {s : State} (p : ∀ m ∈ ms, m.plain = true)
    (h : allAllowed ms s.dirOf) :
    ∃ t, perform i (returning .done (runSteps Config.world ms)) s = .next t ∧ Completed ms .done s t := by
  obtain ⟨u, hu⟩ := runSteps_ok (W := Config.world) (s := s.begin i) p h
  have r := runSteps_ran p hu
  obtain ⟨a, pa, fa⟩ := r.passed
  have k := r.kept
  refine ⟨u.finish .done, by simp only [perform, returning, hu, bind, Except.bind, pure, Except.pure], rfl, rfl, r.dir, r.lvl,
    ⟨a, pa.trace, fa⟩, ⟨k.session, k.engState, k.sel, pa.onlyFires⟩, k.rx, k.acc, k.att, k.rb, k.modeInput, k.startup, k.issue⟩

/-- The lines a list of micro-steps `SET`s before it has driven or released them itself. -/
def firstBlocked : List MicroStep → (PLine → Dir) → Option PLine
  | [], _ => none
  | .set (.protocol k) v :: ms, f =>
    if f k = .output then firstBlocked ms (MicroStep.dirAfter (.set (.protocol k) v) f) else some k
  | m :: ms, f => firstBlocked ms (m.dirAfter f)

/-- An operation of line micro-steps faults at the first `SET` of a line that is not an output (R61, R124). -/
theorem runSteps_blocked {W : World} {ms : List MicroStep} {s : State} {l : PLine} (p : ∀ m ∈ ms, m.plain = true)
    (h : firstBlocked ms s.dirOf = some l) : ∃ left, runSteps W ms s = .error (.lineDirection (.protocol l) left) := by
  induction ms generalizing s with
  | nil => cases h
  | cons m ms ih =>
    have step : ∀ u, microStep W m s = .ok u → firstBlocked ms (m.dirAfter s.dirOf) = some l →
        ∃ left, runSteps W (m :: ms) s = .error (.lineDirection (.protocol l) left) := by
      intro u hu hb
      have r := microStep_ran (p m (by simp)) hu
      have d : u.dirOf = m.dirAfter s.dirOf := r.dir
      obtain ⟨left, e⟩ := ih (s := u) (fun m hm => p m (by simp [hm])) (d ▸ hb)
      exact ⟨left, by simp only [runSteps, hu, bind, Except.bind]; exact e⟩
    cases m with
    | set k v =>
      cases k with
      | protocol k =>
        simp only [firstBlocked] at h
        split at h
        · rename_i hk
          obtain ⟨u, hu⟩ := microStep_ok (W := W) (m := .set (.protocol k) v) (s := s) hk
          exact step u hu h
        · rename_i hk
          injection h with h; subst h
          refine ⟨s.countdown, ?_⟩
          simp [runSteps, microStep, State.canSet, hk, bind, Except.bind]
      | vccEn => exact step _ rfl h
      | vppEn => exact step _ rfl h
    | drv k v => exact step _ rfl h
    | rel k => exact step _ rfl h
    | dly q => exact step _ rfl h
    | tmArm n => exact (Bool.false_ne_true (p _ List.mem_cons_self)).elim
    | tmDisarm => exact (Bool.false_ne_true (p _ List.mem_cons_self)).elim

theorem perform_blocked (i : Instr) {ms : List MicroStep} {s : State} {l : PLine} (p : ∀ m ∈ ms, m.plain = true)
    (h : firstBlocked ms s.dirOf = some l) :
    ∃ left, perform i (returning .done (runSteps Config.world ms)) s = .fault (.lineDirection (.protocol l) left) := by
  obtain ⟨left, e⟩ := runSteps_blocked (W := Config.world) (s := s.begin i) p h
  exact ⟨left, by simp only [perform, returning, e, bind, Except.bind]⟩

end Sys2Proof.Machine
end

