-- ==== Sys2Proof/Laws/PerInstr.lean ====
section
/-! SUPPORT. One lemma per constructor of Instr: its operation word stands in a row of the table. -/

namespace Sys2Proof.Laws.InTable

/-- The operation word of a well-formed instruction, if it has one, is in a row of the table of `OPW24` (R56). -/
def Statement (i : Instr) : Prop :=
  i.wellFormed = true → ∀ w, encode i = .opw24 w → opw24Rows.any (fun r => r.covers w) = true

/-- A word with a given row of the table is in the table. -/
theorem of_row {w : Word24} (r : OpRow) (m : r ∈ opw24Rows) (h : r.covers w = true) :
    opw24Rows.any (fun r => r.covers w) = true :=
  List.any_eq_true.mpr ⟨r, m, h⟩

/-- The words whose operand is any byte `b`. -/
theorem byte_row (name : String) (op b : Byte) (m : ⟨name, packOpw24 op 0#8 0#8, packOpw24 0xFF#8 0xFF#8 0#8⟩ ∈ opw24Rows) :
    opw24Rows.any (fun r => r.covers (packOpw24 op 0#8 b)) = true := by
  refine of_row _ m ?_
  rw [covers_pack]
  simp [show ∀ x : Byte, x &&& 0xFF#8 = x by decide]

theorem quiesce : Statement .quiesce := by
  intro _ w h
  cases h
  decide

theorem arm : Statement .arm := by
  intro _ w h
  cases h
  decide

theorem enterProg : Statement .enterProg := by
  intro _ w h
  cases h
  decide

theorem exitProg : Statement .exitProg := by
  intro _ w h
  cases h
  decide

theorem loadCommand (c : Byte) : Statement (.loadCommand c) := by
  intro _ w h
  cases h
  exact byte_row "LOAD_COMMAND" _ _ (by decide)

theorem loadAddressLow (a : Byte) : Statement (.loadAddressLow a) := by
  intro _ w h
  cases h
  exact byte_row "LOAD_ADDRESS_LOW" _ _ (by decide)

theorem loadData (d : Byte) : Statement (.loadData d) := by
  intro _ w h
  cases h
  exact byte_row "LOAD_DATA" _ _ (by decide)

theorem transmitByte (v : Byte) : Statement (.transmitByte v) := by
  intro _ w h
  cases h
  exact byte_row "TRANSMIT_BYTE" _ _ (by decide)

theorem receiveByte : Statement .receiveByte := by
  intro _ w h
  cases h
  decide

theorem bselSet (p1 : Level) (p0 : Level) : Statement (.bselSet p1 p0) := by
  intro _ w h
  cases h
  revert p1 p0
  decide

theorem bselClear : Statement .bselClear := by
  intro _ w h
  cases h
  decide

theorem bs1High : Statement .bs1High := by
  intro _ w h
  cases h
  decide

theorem tmArm (n : BitVec 16) : Statement (.tmArm n) := by
  intro _ w h
  cases h
  refine of_row ⟨"TM_ARM", packOpw24 0x20#8 0#8 0#8, packOpw24 0xFF#8 0#8 0#8⟩ (by decide) ?_
  rw [covers_pack]
  simp

theorem tmDisarm : Statement .tmDisarm := by
  intro _ w h
  cases h
  decide

theorem tmTimedOut : Statement .tmTimedOut := by
  intro _ w h
  cases h
  decide

theorem wrGuard : Statement .wrGuard := by
  intro _ w h
  cases h
  decide

theorem identify : Statement .identify := by
  intro _ w h
  cases h
  decide

theorem readFuse (loc : FuseLocation) : Statement (.readFuse loc) := by
  intro _ w h
  cases h
  cases loc <;> decide

theorem writeFuse (loc : FuseLocation) (value : Byte) : Statement (.writeFuse loc value) := by
  intro _ w h
  cases h
  refine of_row ⟨"WRITE_FUSE", packOpw24 0x32#8 0#8 0#8, packOpw24 0xFF#8 0xFC#8 0#8⟩ (by decide) ?_
  rw [covers_pack]
  cases loc <;> simp <;> decide

theorem writeLock (value : Byte) : Statement (.writeLock value) := by
  intro _ w h
  cases h
  exact byte_row "WRITE_LOCK" _ _ (by decide)

theorem writeFuseDefaults (useBootloaderSet : Bool) : Statement (.writeFuseDefaults useBootloaderSet) := by
  intro _ w h
  cases h
  revert useBootloaderSet
  decide

theorem eraseDevice : Statement .eraseDevice := by
  intro _ w h
  cases h
  decide

theorem frameCommand (d : Byte) : Statement (.frameCommand d) := by
  intro _ w h
  cases h

theorem frameAddressLow (d : Byte) : Statement (.frameAddressLow d) := by
  intro _ w h
  cases h

theorem frameData (d : Byte) : Statement (.frameData d) := by
  intro _ w h
  cases h

theorem bselRdLow : Statement .bselRdLow := by
  intro _ w h
  cases h

theorem bselRdHigh : Statement .bselRdHigh := by
  intro _ w h
  cases h

theorem bselRdExtended : Statement .bselRdExtended := by
  intro _ w h
  cases h

theorem bselRdLock : Statement .bselRdLock := by
  intro _ w h
  cases h

theorem bselWrLow : Statement .bselWrLow := by
  intro _ w h
  cases h

theorem bselWrHigh : Statement .bselWrHigh := by
  intro _ w h
  cases h

theorem bselWrExtended : Statement .bselWrExtended := by
  intro _ w h
  cases h

theorem bselWrLock (u : Level) : Statement (.bselWrLock u) := by
  intro _ w h
  cases h

theorem cmdChipErase : Statement .cmdChipErase := by
  intro _ w h
  cases h

theorem cmdWriteFuse : Statement .cmdWriteFuse := by
  intro _ w h
  cases h

theorem cmdWriteLock : Statement .cmdWriteLock := by
  intro _ w h
  cases h

theorem cmdReadSignature : Statement .cmdReadSignature := by
  intro _ w h
  cases h

theorem cmdReadFuse : Statement .cmdReadFuse := by
  intro _ w h
  cases h

end Sys2Proof.Laws.InTable
end

