-- ==== Sys2Proof/Tests/Slice0.lean ====
section
/-! SUPPORT. The model's own tests: words of the encodings, one step on a small state, and for each statement with hypotheses
a state that meets them. Expected values come from the rules and from `spec/95_test_vectors.md`, named V... and P... . -/

namespace Sys2Proof.Tests

open Machine Config

/-! ### Well-formedness and decoding -/

/-- The write table has no Lock row (R53, C7). -/
theorem test_write_fuse_lock_is_ill_formed : (Instr.writeFuse .lock 0x62#8).wellFormed = false := by decide

/-- V30.27: its word is refused by the decoder. -/
theorem test_write_fuse_lock_word : decode (.opw24 0x320362#24) = .error .lockNotInWriteTable := by decide

/-- V30.9, V30.10 and V30.11, `op` bits 23 to 16 written out. -/
theorem test_words_without_operand :
    decode (.opw24 0b00000001_00000000_00000000#24) = .ok .quiesce ∧
    decode (.opw24 0b00000010_00000000_00000000#24) = .ok .arm ∧
    decode (.opw24 0b00010000_00000000_00000000#24) = .ok .enterProg ∧
    decode (.opw24 0b00010001_00000000_00000000#24) = .ok .exitProg ∧
    decode (.opw24 0b00010110_00000000_00000000#24) = .ok .receiveByte ∧
    decode (.opw24 0b00011000_00000000_00000000#24) = .ok .bselClear ∧
    decode (.opw24 0b00011001_00000000_00000000#24) = .ok .bs1High := by decide

/-- V30.12 to V30.16. -/
theorem test_words_of_the_framer :
    decode (.opw24 0b00010010_00000000_00000100#24) = .ok (.loadCommand 0x04#8) ∧
    decode (.opw24 0b00010011_00000000_00000010#24) = .ok (.loadAddressLow 0x02#8) ∧
    decode (.opw24 0b00010100_00000000_01100010#24) = .ok (.loadData 0x62#8) ∧
    decode (.opw24 0b00010101_00000000_10100101#24) = .ok (.transmitByte 0xA5#8) ∧
    decode (.opw24 0x170003#24) = .ok (.bselSet true true) ∧ decode (.opw24 0x170002#24) = .ok (.bselSet true false) ∧
    decode (.opw24 0x170001#24) = .ok (.bselSet false true) := by decide

/-- V30.18 to V30.20. -/
theorem test_words_of_the_monitor :
    decode (.opw24 0b00100000_00000000_11001000#24) = .ok (.tmArm 200#16) ∧
    decode (.opw24 0x2003E8#24) = .ok (.tmArm 1000#16) ∧ decode (.opw24 0x210000#24) = .ok .tmDisarm ∧
    decode (.opw24 0x220000#24) = .ok .tmTimedOut ∧ decode (.opw24 0x280000#24) = .ok .wrGuard := by decide

/-- V30.21 to V30.26. -/
theorem test_words_of_the_engine :
    decode (.opw24 0x300000#24) = .ok .identify ∧ decode (.opw24 0x310000#24) = .ok (.readFuse .low) ∧
    decode (.opw24 0x310100#24) = .ok (.readFuse .high) ∧ decode (.opw24 0x310300#24) = .ok (.readFuse .lock) ∧
    decode (.opw24 0b00110010_00000001_11011001#24) = .ok (.writeFuse .high 0xD9#8) ∧
    decode (.opw24 0x3202FF#24) = .ok (.writeFuse .extended 0xFF#8) ∧
    decode (.opw24 0x3300FF#24) = .ok (.writeLock 0xFF#8) ∧ decode (.opw24 0x340000#24) = .ok (.writeFuseDefaults false) ∧
    decode (.opw24 0x340001#24) = .ok (.writeFuseDefaults true) ∧ decode (.opw24 0x350000#24) = .ok .eraseDevice := by
  decide

/-- V30.1 to V30.5 and the patterns of R51. -/
theorem test_words_of_frame11 :
    decode (.frame11 0b10000001000#11) = .ok (.frameCommand 0x08#8) ∧
    decode (.frame11 0b00000000010#11) = .ok (.frameAddressLow 0x02#8) ∧
    decode (.frame11 0b01001100010#11) = .ok (.frameData 0x62#8) ∧
    decode (.frame11 0b11000000000#11) = .error .noSuchFrame ∧ decode (.frame11 0b01100000000#11) = .error .noSuchFrame := by
  decide

/-- The tables of R52 and R53; the pair (1,1) is in no write table. -/
theorem test_words_of_bsel2 :
    decode (.bselRead 0b00#2) = .ok .bselRdLow ∧ decode (.bselRead 0b11#2) = .ok .bselRdHigh ∧
    decode (.bselRead 0b01#2) = .ok .bselRdExtended ∧ decode (.bselRead 0b10#2) = .ok .bselRdLock ∧
    decode (.bselWriteFuse 0b00#2) = .ok .bselWrLow ∧ decode (.bselWriteFuse 0b10#2) = .ok .bselWrHigh ∧
    decode (.bselWriteFuse 0b01#2) = .ok .bselWrExtended ∧ decode (.bselWriteFuse 0b11#2) = .error .noSuchPair ∧
    decode (.bselWriteLock 0b10#2) = .ok (.bselWrLock false) ∧ decode (.bselWriteLock 0b11#2) = .ok (.bselWrLock true) := by
  decide

/-- The configured byte of a command is its word, whatever it is (R54). -/
theorem test_words_of_cmd8 : decode (.cmd8 params.cmdWriteLock) = .ok .cmdWriteLock := decode_configured_command.2.2.1

/-- The numbers of the CMD8 rows of the opcode table, the defaults of R54, name those rows. -/
theorem test_printed_commands :
    decodeTableWord 8 0b10000000 = some .cmdChipErase ∧ decodeTableWord 8 0b01000000 = some .cmdWriteFuse ∧
    decodeTableWord 8 0b00100000 = some .cmdWriteLock ∧ decodeTableWord 8 0b00001000 = some .cmdReadSignature ∧
    decodeTableWord 8 0b00000100 = some .cmdReadFuse := by decide

/-- V30.28 to V30.32. -/
theorem test_illegal_words :
    decode (.opw24 0x310400#24) = .error .noSuchLocation ∧ decode (.opw24 0x000000#24) = .error .noSuchOperation ∧
    decode (.opw24 0x360000#24) = .error .noSuchOperation ∧ decode (.opw24 0xFF0000#24) = .error .noSuchOperation ∧
    decode (.opw24 0x010001#24) = .error .unusedOperandNotZero ∧
    decode (.opw24 0x170004#24) = .error .reservedBitsNotZero ∧
    decode (.opw24 0x340002#24) = .error .reservedBitsNotZero := by decide

/-- Numbers as the opcode table writes them. -/
theorem test_table_words :
    decodeTableWord 24 0x3201D9 = some (.writeFuse .high 0xD9#8) ∧ decodeTableWord 16 0x262 = some (.frameData 0x62#8) ∧
    decodeTableWord 8 0x03 = some .bselRdHigh ∧ decodeTableWord 8 0x10 = none ∧
    decodeTableWord 24 0x320362 = none := by decide

/-! ### States and targets -/

/-- After the startup `QUIESCE` (R31). -/
def quiesced : State :=
  { State.reset with
    dir := Vector.replicate 16 .input
    lvl := #v[none, none, none, none, none, none, none, none, none, none, none, none, none, none, none, none,
      some false, some false]
    startup := .ended }

/-- The start state of programs P2 to P6. -/
def known : State := { quiesced with engState := .deviceKnown, sel := some atmega328p }

/-- A fresh session (R70, `InSession`). -/
def inSession : State :=
  { known with
    dir := #v[.input, .input, .input, .input, .input, .input, .input, .input,
      .output, .output, .output, .output, .output, .output, .output, .input]
    lvl := #v[none, none, none, none, none, none, none, none,
      some true, some true, some false, some false, some false, some false, some false, none, some true, some true]
    session := true }

/-- A target whose answers are listed in the order of the samples, and a countdown whose delays are listed in the
order of the arms; specified parameters. -/
def scripted (answers : List Level) (delays : List Nat) : World where
  params := Params.specDefaults
  answer := fun tr _ => answers.getD (tr.countP fun e => match e with | .smp _ _ => true | _ => false) false
  fireDelay := fun tr => delays.getD ((tr.countP fun e => match e with | .tmArm _ => true | _ => false) - 1) 1000

/-- The samples of a byte, line 7 first (R76). -/
def samples (x : Byte) : List Level := [7, 6, 5, 4, 3, 2, 1, 0].map fun i => x.getLsbD i

/-- What a program leaves meets a test. -/
def leaves {α : Type} (o : Except Fault α) (p : α → Bool) : Bool :=
  match o with
  | .ok a => p a
  | .error _ => false

/-- What an operation leaves meets a test. -/
def next (o : Host.Outcome State Fault Refusal) (p : State → Bool) : Bool :=
  match o with
  | .next t => p t
  | _ => false

/-- An operation ends in a fault that meets a test. -/
def faults (o : Host.Outcome State Fault Refusal) (p : Fault → Bool) : Bool :=
  match o with
  | .fault f => p f
  | _ => false

/-! ### Lines and SignalController -/

/-- V40.2: `DRV` just after reset. -/
theorem test_drv : leaves (microStep (scripted [] []) (.drv .wr true) State.reset)
    (fun t => t.dirOf .wr == .output && t.lvlOf (.protocol .wr) == some true) = true := by decide

/-- V40.4: `SET` to the level already driven is still an event. -/
theorem test_set_same_level : leaves (microStep (scripted [] []) (.set (.protocol .clk) false) inSession)
    (fun t => t.lvlOf (.protocol .clk) == some false && t.tr == [.set (.protocol .clk) false]) = true := by decide

/-- V40.9: sampling an output faults. -/
theorem test_smp_output : sample (scripted [] []) .wr inSession = .error (.lineDirection (.protocol .wr) inSession) := by decide

/-- V40.11: from the unspecified reset state, 18 events, power first. -/
theorem test_quiesce : next (exec .quiesce State.reset)
    (fun t => decide (Quiesced t) && t.tr.length == 18 && t.tr.take 2 == [.set .vccEn false, .set .vppEn false]) = true := by
  decide

/-- V40.15: the monitor is not touched. -/
theorem test_quiesce_leaves_monitor : next (exec .quiesce { inSession with tmRun := true, fireIn := 1000 })
    (fun t => t.tmRun && !t.session) = true := by decide

/-- V40.14: the data lines stay inputs and the supplies off. -/
theorem test_arm : next (exec .arm quiesced)
    (fun t => decide (Armed t) && t.dirOf (.d 0) == .input && t.lvlOf .vccEn == some false && t.tr.length == 8) = true := by
  decide

/-! ### Byte framer -/

/-- V41.9: `ENTER_PROG`, events 27 to 32 of P1 after its `ARM`. -/
theorem test_enter_prog : next (exec .enterProg quiesced)
    (fun t => decide (InSession t) && t.tr.drop 8 ==
      [.set .vccEn true, .dly .enter1, .set .vppEn true, .dly .enter2, .rel .rdy, .dly .enter3]) = true := by decide

/-- V41.10: a second session. -/
theorem test_enter_prog_twice : faults (exec .enterProg inSession)
    (fun f => match f with | .sessionActive t => t.tr == [] | _ => false) = true := by decide

/-- V41.12: `EXIT_PROG` without a session. -/
theorem test_exit_prog : next (exec .exitProg quiesced) (fun t => decide (Quiesced t) && t.tr.length == 18) = true := by decide

/-- V41.13: the frame of a command. -/
theorem test_load_command : next (exec (.loadCommand 0x08#8) inSession)
    (fun t => t.frame == some 0x408#11 && t.tr.length == 15) = true := by decide

/-- V41.16, P8: outside a session it faults at `MS[1]`, before any event. -/
theorem test_load_command_outside : faults (exec (.loadCommand 0x04#8) quiesced)
    (fun f => match f with | .lineDirection l t => l == .protocol .ms1 && t.tr == [] | _ => false) = true := by decide

/-- V30.3: the frame of an address. -/
theorem test_load_address_low : next (exec (.loadAddressLow 0x02#8) inSession) (fun t => t.frame == some 0x002#11) = true := by
  decide

/-- V41.22: a pair set too early is lost. -/
theorem test_load_data : next (exec (.loadData 0x62#8) { inSession with lvl := inSession.lvl.set 10 (some true) })
    (fun t => t.frame == some 0x262#11 && t.byteSelect == some 0b00#2) = true := by decide

/-- V41.5: bit i on line i. -/
theorem test_transmit_byte : next (exec (.transmitByte 0xA5#8) inSession)
    (fun t => t.drivenByte == some 0xA5#8 && t.lvlOf (.protocol (.d 1)) == some false && t.tr.take 1 == [.drv (.d 0) true]) =
      true := by decide

/-- V41.6, V41.17: samples 0 0 0 1 1 1 1 0 from line 7 down. -/
theorem test_receive_byte : leaves
    (receiveByte (scripted [false, false, false, true, true, true, true, false] []) inSession)
    (fun t => t.rx == 0x1E#8 && t.tr.length == 19 &&
      t.tr.take 3 == [.set (.protocol .oe) false, .rel (.d 7), .smp (.d 7) false]) = true := by decide

/-- V41.7: the first sample is bit 7. -/
theorem test_receive_byte_order : leaves (receiveByte (scripted [true] []) inSession) (fun t => t.rx == 0x80#8) = true := by decide

/-- V41.19. -/
theorem test_bsel_set : next (exec (.bselSet true true) inSession)
    (fun t => t.tr == [.set (.protocol .bs1) true, .set (.protocol .bs0) true]) = true := by decide

/-- V41.20. -/
theorem test_bsel_clear : next (exec .bselClear { inSession with lvl := inSession.lvl.set 10 (some true) })
    (fun t => t.byteSelect == some 0b00#2) = true := by decide

/-- V41.21: line 0 stays. -/
theorem test_bs1_high : next (exec .bs1High inSession)
    (fun t => t.byteSelect == some 0b10#2 && t.tr == [.set (.protocol .bs1) true]) = true := by decide

/-! ### Line-level encodings -/

/-- V30.2 and R51, R54: frames on the wires. The command byte is the configured one. -/
theorem test_frame_rows :
    next (exec (.frameCommand 0x80#8) inSession) (fun t => t.frame == some 0x480#11) = true ∧
    next (exec (.frameAddressLow 0x01#8) inSession) (fun t => t.frame == some 0x001#11) = true ∧
    next (exec (.frameData 0xFF#8) inSession) (fun t => t.frame == some 0x2FF#11) = true := by decide

/-- The read table of R52 on the wires, (`BS[1]`, `BS[0]`). -/
theorem test_read_table :
    next (exec .bselRdLow inSession) (fun t => t.byteSelect == some 0b00#2) = true ∧
    next (exec .bselRdHigh inSession) (fun t => t.byteSelect == some 0b11#2) = true ∧
    next (exec .bselRdExtended inSession) (fun t => t.byteSelect == some 0b01#2) = true ∧
    next (exec .bselRdLock inSession) (fun t => t.byteSelect == some 0b10#2) = true := by decide

/-- The write table of R53 on the wires; the lock row leaves line 0 as it was. -/
theorem test_write_table :
    next (exec .bselWrLow inSession) (fun t => t.byteSelect == some 0b00#2) = true ∧
    next (exec .bselWrHigh inSession) (fun t => t.byteSelect == some 0b10#2) = true ∧
    next (exec .bselWrExtended inSession) (fun t => t.byteSelect == some 0b01#2) = true ∧
    next (exec (.bselWrLock false) { inSession with lvl := inSession.lvl.set 11 (some true) })
      (fun t => t.byteSelect == some 0b11#2) = true := by decide

/-- The command rows frame a command: the mode lines stand at (1,0). -/
theorem test_command_rows :
    [Instr.cmdChipErase, .cmdWriteFuse, .cmdWriteLock, .cmdReadSignature, .cmdReadFuse].all (fun i =>
      next (exec i inSession) (fun t => t.lvlOf (.protocol .ms1) == some true && t.lvlOf (.protocol .ms0) == some false &&
        t.tr.length == 15)) = true := by decide

/-! ### TimeoutMonitor and guard -/

/-- V42.2 and V42.5a. -/
theorem test_tm_arm : next (exec (.tmArm 200#16) { quiesced with tmFlag := true })
    (fun t => !t.tmFlag && t.tmRun && t.tmDeadline == 200#16) = true := by decide

/-- V42.5: the flag is untouched. -/
theorem test_tm_disarm : next (exec .tmDisarm { quiesced with tmFlag := true }) (fun t => t.tmFlag && !t.tmRun) = true := by
  decide

/-- V42.5d: reading does not clear. -/
theorem test_tm_timed_out : next (exec .tmTimedOut { quiesced with tmFlag := true })
    (fun t => t.result == .flag true && t.tmFlag && t.tr == []) = true := by decide

/-- V42.6: two polls busy, then ready. -/
theorem test_wr_guard_ready : leaves (wrGuard (scripted [false, false, true] []) inSession)
    (fun r => r.1 == .ready && !r.2.tmFlag && !r.2.tmRun && r.2.tr ==
      [.tmArm 200#16, .set (.protocol .wr) false, .set (.protocol .wr) true, .dly .wrSettle,
       .smp .rdy false, .smp .rdy false, .smp .rdy true, .tmDisarm]) = true := by decide

/-- V42.9: the flag wins over a ready line in the same poll. -/
theorem test_wr_guard_timed_out : leaves (wrGuard (scripted [false, false, true] [5]) inSession)
    (fun r => r.1 == .timedOut && r.2.tmFlag && !r.2.tmRun && r.2.tr.drop 4 ==
      [.smp .rdy false, .smp .rdy false, .tmFire, .smp .rdy true, .tmDisarm]) = true := by decide

/-- V42.13: outside a session a fault at `WR`, the monitor left running. -/
theorem test_wr_guard_outside : (match wrGuard (scripted [] []) quiesced with
    | .error (.lineDirection l t) => l == .protocol .wr && t.tmRun && t.tr == [.tmArm 200#16]
    | _ => false) = true := by decide

/-! ### Engine operations -/

/-- P1, V43.1: the signature of the ATmega328P; 149 events. -/
theorem test_identify : leaves
    (identify (scripted (samples 0x1E#8 ++ samples 0x95#8 ++ samples 0x0F#8) []) quiesced)
    (fun r => r.1 == .identified 0x1E950F#24 (some atmega328p) && r.2.engState == .deviceKnown &&
      r.2.tr.length == 149 && decide (Quiesced r.2)) = true := by decide +kernel

/-- V43.4, V43.6: reversed bytes match nothing, and the selection is dropped. -/
theorem test_identify_unknown : leaves
    (identify (scripted (samples 0x0F#8 ++ samples 0x95#8 ++ samples 0x1E#8) []) known)
    (fun r => r.1 == .identified 0x0F951E#24 none && r.2.engState == .deviceUnknown && r.2.sel == none) = true := by
  decide +kernel

/-- V43.8: the read table's pair for High; 68 events. -/
theorem test_read_fuse : leaves (readRaw (scripted (samples 0x99#8) []) .high known)
    (fun t => t.rx == 0x99#8 && t.tr.length == 68 &&
      (t.tr.drop 29).take 2 == [.set (.protocol .bs1) true, .set (.protocol .bs0) true]) = true := by decide +kernel

/-- V43.11: refused outside `DeviceKnown`. -/
theorem test_read_fuse_refused : exec (.readFuse .low) quiesced = .next (quiesced.refuse .unknownDevice) := rfl

/-- P2: success at the first attempt, 143 events. -/
theorem test_write_fuse : leaves
    (writeLocation (scripted ([false, false, true] ++ samples 0x62#8) []) 0x40#8 .low 0x62#8 known)
    (fun t => t.rb == 0x62#8 && t.att == 1 && t.tr.length == 143 && !t.tmFlag && decide (Quiesced t)) = true := by
  decide +kernel

/-- P3: a target never ready, one attempt, the read-back performed, the fire as event 55. -/
theorem test_write_fuse_timeout : leaves
    (writeLocation (scripted ([false, false, false, false] ++ samples 0x99#8) [6]) 0x40#8 .high 0xD9#8 known)
    (fun t => t.rb == 0x99#8 && t.att == 1 && t.tr.length == 145 && t.tmFlag && !t.tmRun &&
      (t.tr.drop 54).take 1 == [.tmFire]) = true := by decide +kernel

/-- V43.13 for the lock register (R114): a mismatch, then a match; 141 events an attempt with two polls (P5). -/
theorem test_write_lock : leaves
    (writeLocation (scripted ([false, true] ++ samples 0xFC#8 ++ [false, true] ++ samples 0xFF#8) []) 0x20#8 .lock 0xFF#8 known)
    (fun t => t.rb == 0xFF#8 && t.att == 2 && t.tr.length == 282 && commitPulses t.tr == 2) = true := by decide +kernel

/-- V43.24: Low times out, High and Extended are not attempted. -/
theorem test_write_fuse_defaults : leaves
    (writeDefaults (scripted ([false] ++ samples 0xFF#8) [3]) (defaultWrites (defaultSet atmega328p false)) known)
    (fun r => r.1 == .writeTimeout .low && r.2.tmFlag && commitPulses r.2.tr == 1) = true := by decide +kernel

/-- V43.26: refused outside `DeviceKnown`. -/
theorem test_write_fuse_defaults_refused : next (exec (.writeFuseDefaults false) quiesced)
    (fun t => t.result == .refused .unknownDevice && t.tr == []) = true := by decide

/-- P4: a timeout is retried, 110 events. -/
theorem test_erase_device : leaves
    (eraseLoop (scripted [false, false, false, false, true] [5]) 4 .timedOut { known with att := 0 })
    (fun r => r.1 == .ready && r.2.att == 2 && r.2.tr.length == 110 && !r.2.tmFlag) = true := by decide +kernel

/-- V43.30: four timeouts. -/
theorem test_erase_device_timeout : leaves
    (eraseLoop (scripted [] [4, 4, 4, 4]) 4 .timedOut { known with att := 0 })
    (fun r => r.1 == .timedOut && r.2.att == 4 && r.2.tmFlag) = true := by decide +kernel

/-! ### The step -/

/-- P7: the word of `ERASE_DEVICE` after reset is fetched and refused. -/
theorem test_step_refuses : next (step (State.reset.withFetchWord 24 0x350000))
    (fun t => t.result == .refused .unknownDevice && t.issue == [] && t.tr == []) = true := by decide

/-- V30.29: an illegal word. -/
theorem test_step_illegal : next (step (State.reset.withFetchWord 24 0xFF0000))
    (fun t => t.result == .refused .illegalOperation && t.tr == []) = true := by decide

/-! ### Witnesses: for each statement with hypotheses, states that meet them -/

theorem witness_encode_of_decode : decode (.opw24 0x3202FF#24) = .ok (.writeFuse .extended 0xFF#8) := by decide

theorem witness_decode_of_encode : (Instr.writeFuse .extended 0xFF#8).wellFormed = true := by decide

/-- For `StepRunsTheDecodedInstruction` and `IllegalWordIsRefused`. -/
theorem witness_step :
    (∃ s : State, s.seq = none ∧ s.startup = .ended ∧ s.issue = [.opw24 0x310300#24] ∧
      decode (.opw24 0x310300#24) = .ok (.readFuse .lock)) ∧
    (∃ s : State, s.seq = none ∧ s.startup = .ended ∧ s.issue = [.opw24 0x310400#24] ∧
      decode (.opw24 0x310400#24) = .error .noSuchLocation) :=
  ⟨⟨{ known with issue := [.opw24 0x310300#24] }, rfl, rfl, rfl, by decide⟩,
   ⟨{ known with issue := [.opw24 0x310400#24] }, rfl, rfl, rfl, by decide⟩⟩

theorem witness_step_runs_the_table_word : decodeTableWord 24 0x350000 = some .eraseDevice := by decide

/-- For `StartupProgram` and `OtherModeIsStuck`. -/
theorem witness_startup :
    (State.reset.seq = none ∧ State.reset.startup = .sampleModeInput ∧ State.reset.modeInput = true ∧
      State.reset.tmRun = false) ∧
    (∃ s : State, s.seq = none ∧ s.startup = .sampleModeInput ∧ s.modeInput = false) :=
  ⟨by decide, { State.reset with modeInput := false }, by decide⟩

/-- For `FaultStopsAtTheMicroStep`: a line fault and a session fault. -/
theorem witness_fault :
    (∃ f, exec (.loadCommand 0x04#8) quiesced = .fault f) ∧ (∃ f, exec .enterProg inSession = .fault f) :=
  ⟨⟨_, rfl⟩, ⟨_, rfl⟩⟩

/-- For `SetRule`: both clauses, a power-enable line among them. -/
theorem witness_set :
    (∀ p, Line.vppEn = .protocol p → quiesced.dirOf p = .output) ∧ inSession.dirOf .clk = .output ∧
    quiesced.dirOf .clk ≠ .output ∧ State.reset.dirOf .clk ≠ .output :=
  ⟨fun _ h => (nomatch h), by decide, by decide, by decide⟩

/-- For `SmpRule`: an input, an output, a line not set since reset. -/
theorem witness_smp :
    inSession.dirOf .rdy = .input ∧ inSession.dirOf .wr ≠ .input ∧ State.reset.dirOf (.d 3) ≠ .input := by decide

theorem witness_countdown : ∃ s : State, s.tmRun = true ∧ s.fireIn = 3 := ⟨{ known with tmRun := true, fireIn := 3 }, rfl, rfl⟩

/-- For `EnterProgRule` and `IdentifyRule`: without and with a session. -/
theorem witness_session : quiesced.session = false ∧ inSession.session = true := by decide

/-- For the load operations and their rows: the outputs of a session, and for the fault each of the four lines as
the one that is no output. -/
theorem witness_framing :
    FramingOutputs inSession ∧
    ∀ l ∈ ([.ms1, .ms0, .bs1, .clk] : List PLine), ∃ k ∈ ([.ms1, .ms0, .bs1, .clk] : List PLine),
      State.dirOf { inSession with dir := inSession.dir.set l.slot.val .input } k ≠ .output := by decide

/-- For `FrameStandsAtTheClockPulse`. -/
theorem witness_framed_byte :
    framedByte (.loadData 0x62#8) = some (false, true, false, 0x62#8) ∧ FramingOutputs inSession := by decide

/-- For `TransmitByteRule`, `ReceiveByteRule` and the byte-select statements: completion and fault. -/
theorem witness_lines :
    inSession.dirOf .clk = .output ∧ inSession.dirOf .oe = .output ∧ inSession.dirOf .bs1 = .output ∧
    inSession.dirOf .bs0 = .output ∧ quiesced.dirOf .clk ≠ .output ∧ quiesced.dirOf .oe ≠ .output ∧
    quiesced.dirOf .bs1 ≠ .output ∧
    State.dirOf { inSession with dir := inSession.dir.set 11 .input } .bs0 ≠ .output := by decide

/-- For `WrGuardRule`: a session; no output at `WR`; `WR` an output and `RDY` still driven, as `ARM` leaves it. -/
theorem witness_wr_guard :
    (inSession.dirOf .wr = .output ∧ inSession.dirOf .rdy = .input) ∧ quiesced.dirOf .wr ≠ .output ∧
    (∃ s : State, s.dirOf .wr = .output ∧ s.dirOf .rdy ≠ .input) :=
  ⟨by decide, by decide, { inSession with dir := inSession.dir.set 15 .output }, by decide⟩

/-- A time before the deadline. -/
theorem before_due {t d : Nat} (h : t < d) : BeforeDeadline (some d) t := by
  rintro _ ⟨⟩
  exact h

/-- For `TimedGuard`: a guard whose last poll comes in time and its disarm at the deadline, with times that keep the
waits (log 29). -/
theorem witness_timed_guard_ready : ∃ (t : State) (st : Stamped),
    wrGuard (scripted [false, true] []) inSession = .ok (.ready, t) ∧ st.map Prod.snd = t.tr ∧
    TimedRun Params.specDefaults st := by
  refine ⟨_, [(0, .tmArm 200#16), (0, .set (.protocol .wr) false), (0, .set (.protocol .wr) true), (0, .dly .wrSettle),
    (1, .smp .rdy false), (199999, .smp .rdy true), (200000, .tmDisarm)], rfl, by decide, by decide, ?_, none, ?_⟩
  · exact ⟨by decide, by decide, by decide, by decide, by decide, by decide, by decide, trivial⟩
  · exact ⟨fun _ h => (nomatch h), before_due (by decide), before_due (by decide), before_due (by decide),
      before_due (by decide), before_due (by decide), .inl rfl, trivial⟩

/-- For `TimedGuard`: a guard whose countdown elapses at 200 ms, exactly. -/
theorem witness_timed_guard_timed_out : ∃ (t : State) (st : Stamped),
    wrGuard (scripted [] [4]) inSession = .ok (.timedOut, t) ∧ st.map Prod.snd = t.tr ∧
    TimedRun Params.specDefaults st := by
  refine ⟨_, [(0, .tmArm 200#16), (0, .set (.protocol .wr) false), (0, .set (.protocol .wr) true), (0, .dly .wrSettle),
    (1, .smp .rdy false), (200000, .tmFire), (200000, .smp .rdy false), (200000, .tmDisarm)], rfl, by decide, by decide,
    ?_, none, ?_⟩
  · exact ⟨by decide, by decide, by decide, by decide, by decide, by decide, by decide, trivial⟩
  · exact ⟨fun _ h => (nomatch h), before_due (by decide), before_due (by decide), before_due (by decide),
      before_due (by decide), ⟨_, rfl, by decide⟩, fun _ h => (nomatch h), .inl rfl, trivial⟩

/-- R97, D13: a disarm that no poll precedes does not outlast the deadline without the firing; before it, it may stand. -/
theorem test_lone_disarm :
    ¬ TimedRun Params.specDefaults [(0, .tmArm 200#16), (300000, .tmDisarm)] ∧
    TimedRun Params.specDefaults [(0, .tmArm 200#16), (199999, .tmDisarm)] := by
  constructor
  · rintro ⟨-, -, armed, -, late, -⟩
    rcases late with h | h
    · cases h
    · exact absurd (h 200000 rfl) (by decide)
  · exact ⟨by decide, ⟨by decide, by decide, trivial⟩, none, fun _ h => (nomatch h), .inr (before_due (by decide)), trivial⟩

/-- For the engine statements: known, selected, no session, no countdown. -/
theorem witness_known :
    known.engState = .deviceKnown ∧ known.session = false ∧ known.sel = some atmega328p ∧ known.tmRun = false := by decide

/-- For the statements over `singleWrite`: each of its four kinds. -/
theorem witness_single_write :
    singleWrite (.writeFuse .low 0x62#8) = some (params.cmdWriteFuse, .low, 0x62#8) ∧
    singleWrite (.writeFuse .high 0xD9#8) = some (params.cmdWriteFuse, .high, 0xD9#8) ∧
    singleWrite (.writeFuse .extended 0xFF#8) = some (params.cmdWriteFuse, .extended, 0xFF#8) ∧
    singleWrite (.writeLock 0xFF#8) = some (params.cmdWriteLock, .lock, 0xFF#8) := ⟨rfl, rfl, rfl, rfl⟩

/-- For `GateRule`, `EngineOperationsEndQuiesced` and `EngineOperationInASessionFaults`. -/
theorem witness_gate :
    (engineOperation .eraseDevice = true ∧ Instr.eraseDevice ≠ .identify ∧ Instr.eraseDevice.wellFormed = true) ∧
    quiesced.engState ≠ .deviceKnown ∧ (known.engState = .deviceKnown ∧ known.sel.isSome = true ∧ known.session = false) ∧
    (inSession.session = true ∧ inSession.engState = .deviceKnown ∧ inSession.sel.isSome = true) := by decide

/-- For `AtMostFourCommitPulses`: a write and an erase. -/
theorem witness_commit_pulses :
    ((∃ w, singleWrite (.writeLock 0xFF#8) = some w) ∨ Instr.writeLock 0xFF#8 = .eraseDevice) ∧
    ((∃ w, singleWrite .eraseDevice = some w) ∨ Instr.eraseDevice = .eraseDevice) := ⟨.inl ⟨_, rfl⟩, .inr rfl⟩

/-- For the frames and the other statements about a next state: an operation of each shape that answers one. -/
theorem witness_next :
    (∃ t, exec .arm quiesced = .next t) ∧ (∃ t, exec (.loadData 0x62#8) inSession = .next t) ∧
    (∃ t, exec (.tmArm 200#16) known = .next t) ∧ (∃ t, exec (.bselSet true false) inSession = .next t) :=
  ⟨⟨_, rfl⟩, ⟨_, rfl⟩, ⟨_, rfl⟩, ⟨_, rfl⟩⟩

/-- For `SamplesAreTheEnvironmentsAnswers`: an operation that samples. -/
theorem witness_samples : ∃ t, exec .receiveByte inSession = .next t ∧ ∃ v, .smp (.d 7) v ∈ t.tr :=
  ⟨_, rfl, _, List.mem_cons_of_mem _ (List.mem_cons_of_mem _ List.mem_cons_self)⟩

/-- For `StepKeepsCoherent`: a state after startup from which an operation is performed. -/
theorem witness_coherent : ∃ s t : State, Coherent s ∧ step s = .next t ∧ t.tr.length = 8 :=
  ⟨{ quiesced with issue := [.opw24 0x020000#24] }, _,
    ⟨rfl, by decide, by decide, by decide, by decide, by decide, by decide, fun _ h => (nomatch h), by decide⟩, rfl, by decide⟩

/-- For `StepKeepsTraceExplained` and `StepKeepsPowerOrder`: reset with a session about to be opened. -/
theorem witness_explained : ∃ s t : State, TraceExplains s ∧ SupplyFirst s.tr ∧ step s = .next t ∧ t.session = true :=
  ⟨State.reset.withFetchWord 24 0x100000, _,
    ⟨fun _ => rfl, fun _ => rfl, rfl⟩, fun b a h => absurd h (by cases b <;> exact fun h => (nomatch h)), rfl, rfl⟩

/-- For `EngineHostStaysQuiesced`: a host that issues a read. -/
theorem witness_restful : ∃ s : State, Restful s ∧ s.issue = [.opw24 0x310100#24] := by
  refine ⟨{ known with issue := [.opw24 0x310100#24] }, ⟨rfl, rfl, ?_, by decide, rfl, rfl⟩, rfl⟩
  intro w hw i h
  simp only [List.mem_cons, List.not_mem_nil, or_false] at hw
  subst hw
  have e : decode (.opw24 0x310100#24) = .ok (.readFuse .high) := by decide
  rw [e] at h
  injection h with h
  exact .inl (h ▸ rfl)

end Sys2Proof.Tests
end

section
/-! PROOFS. The configuration: the parameters meet what R8 and R118 require of them, and so the lookup of R10 is exact. -/

namespace Sys2Proof.Config

open Machine

/-- The defaults of R8 bind the 18 lines to the numbers 0 to 17 in the order of `allLines`. -/
theorem specDefaults_lineBinding_allLines : allLines.map Params.specDefaults.lineBinding = List.range 18 := by
  decide

theorem specDefaults_lineBinding_nodup : (allLines.map Params.specDefaults.lineBinding).Nodup :=
  specDefaults_lineBinding_allLines ▸ List.nodup_range

theorem specDefaults_commands_nodup : Params.specDefaults.commands.Nodup := by decide

theorem specDefaults_signatures_nodup : (Params.specDefaults.registry.map DeviceDescriptor.signature).Nodup :=
  List.nodup_singleton _

/-- Valid parameters exist: the defaults of R8. -/
theorem specDefaults_valid : Params.specDefaults.Valid := by
  refine ⟨specDefaults_lineBinding_nodup, ?_, ?_, ?_, ?_, ?_, ?_, ?_, ?_,
    specDefaults_commands_nodup, specDefaults_signatures_nodup⟩ <;> decide

/-- The parameters are valid whatever the configuration gives: `params` keeps a given record only when it is valid. -/
theorem params_valid : params.Valid := by
  unfold params
  split
  case isTrue given_valid => exact given_valid
  case isFalse => exact specDefaults_valid

/-- The signatures are pairwise distinct (R118). -/
theorem params_signatures_nodup : (params.registry.map DeviceDescriptor.signature).Nodup := by
  obtain ⟨-, -, -, -, -, -, -, -, -, -, signatures_nodup⟩ := params_valid
  exact signatures_nodup

end Sys2Proof.Config

namespace Sys2Proof.Machine

open Config (DeviceDescriptor)

variable {registry : List DeviceDescriptor} {signature : Word24} {d : DeviceDescriptor}

theorem mem_of_lookup_eq_some (h : lookup registry signature = some d) : d ∈ registry :=
  List.mem_of_find?_eq_some h

theorem signature_of_lookup_eq_some (h : lookup registry signature = some d) : d.signature = signature :=
  beq_iff_eq.mp (List.find?_some (p := fun e : DeviceDescriptor => e.signature == signature) h)

theorem exists_lookup_of_mem (hd : d ∈ registry) : ∃ e, lookup registry d.signature = some e :=
  Option.isSome_iff_exists.mp (List.find?_isSome.mpr ⟨d, hd, beq_self_eq_true _⟩)

/-- Where the signatures are distinct, the entry the lookup finds for the signature of a registry entry can be no other. -/
theorem lookup_signature_of_mem (distinct : (registry.map DeviceDescriptor.signature).Nodup) (hd : d ∈ registry) :
    lookup registry d.signature = some d := by
  obtain ⟨e, found⟩ := exists_lookup_of_mem hd
  have same : e = d :=
    List.inj_on_of_nodup_map distinct (mem_of_lookup_eq_some found) hd (signature_of_lookup_eq_some found)
  exact same ▸ found

theorem lookup_eq_some_iff (distinct : (registry.map DeviceDescriptor.signature).Nodup) :
    lookup registry signature = some d ↔ d ∈ registry ∧ d.signature = signature := by
  constructor
  · intro found
    exact ⟨mem_of_lookup_eq_some found, signature_of_lookup_eq_some found⟩
  · rintro ⟨hd, rfl⟩
    exact lookup_signature_of_mem distinct hd

end Sys2Proof.Machine

namespace Sys2Proof

/-- Settles O48: given parameters are kept only when valid, and the defaults that replace them are valid. -/
theorem parametersAreValid : Obligations.ParametersAreValid := Config.params_valid

/-- Settles O49: the lookup is exact on a registry of distinct signatures, which the parameters' registry is. -/
theorem lookupIsExact : Obligations.LookupIsExact := fun _ _ =>
  Machine.lookup_eq_some_iff Config.params_signatures_nodup

end Sys2Proof
end

section
/-! PROOFS. What a program of the machine can do, said once: every program, to its end or to its fault, is a run of elementary
acts, and writes no register but those its operation names (10_state.md R10, R27, R28, R47). -/

namespace Sys2Proof.Machine

/-! ### Acts and runs -/

/-- One elementary act of a program in the world `W` that may write the registers `R`: the countdown's point, a micro-step's
effect with its event, a sample of `RDY` or a data line with its event, or the write of a register. -/
inductive Act (W : World) (R : List Register) : State → State → Prop
  | point (s : State) : Act W R s s.countdown
  | drv (l : PLine) (v : Level) (s : State) : Act W R s ((s.drive l v).did (.drv l v))
  | set (l : Line) (v : Level) (s : State) (allowed : s.canSet l = true) :
      Act W R s ((s.level l (some v)).did (.set l v))
  | rel (l : PLine) (s : State) : Act W R s ((s.release l).did (.rel l))
  | dly (q : TimeParam) (s : State) : Act W R s (s.did (.dly q))
  | smp (l : PLine) (s : State) (line : l = .rdy ∨ l ∈ dataLines) : Act W R s (s.did (.smp l (W.answer s.tr l)))
  | arm (n : BitVec 16) (s : State) (may : .monitor ∈ R) : Act W R s ((s.did (.tmArm n)).armTimer W n)
  | disarm (s : State) (may : .monitor ∈ R) : Act W R s (s.disarmTimer.did .tmDisarm)
  | rx (x : Byte) (s : State) (may : .rx ∈ R) : Act W R s { s with rx := x }
  | acc (a : Word24) (s : State) (may : .acc ∈ R) : Act W R s { s with acc := a }
  | att (n : Nat) (s : State) (may : .att ∈ R) : Act W R s { s with att := n }
  | rb (x : Byte) (s : State) (may : .rb ∈ R) : Act W R s { s with rb := x }
  | session (b : Bool) (s : State) (may : .session ∈ R) : Act W R s { s with session := b }
  | select (d : Option Config.DeviceDescriptor) (s : State) (may : .engine ∈ R) : Act W R s (s.selectDevice d)

/-- Acts one after another. -/
abbrev Runs (W : World) (R : List Register) : State → State → Prop := Relation.ReflTransGen (Act W R)

variable {W : World} {R : List Register} {α β : Type} {p : α → State} {q : β → State} {s t u : State}

/-- A micro-step is an act after the countdown's point (R47). -/
theorem Runs.afterPoint (h : Act W R s.countdown t) : Runs W R s t := .tail (.single (.point s)) h

/-- What holds between a state and itself, composes, and holds across every act, holds across a run. -/
theorem Runs.relates {P : State → State → Prop} (refl : ∀ s, P s s) (trans : ∀ {s t u}, P s t → P t u → P s u)
    (act : ∀ {s t}, Act W R s t → P s t) (h : Runs W R s t) : P s t := by
  induction h with
  | refl => exact refl s
  | tail _ last ih => exact trans ih (act last)

/-- What every act keeps, a run keeps. -/
theorem Runs.keeps {P : State → Prop} (act : ∀ {s t}, Act W R s t → P s → P t) (h : Runs W R s t) : P s → P t :=
  Runs.relates (P := fun s t => P s → P t) (fun _ => id) (fun f g => g ∘ f) act h

/-- What a program answers from `s`, to its end or to its fault, it came to by a run. -/
inductive Follows (W : World) (R : List Register) (p : α → State) (s : State) : Except Fault α → Prop
  | pure {a : α} (run : Runs W R s (p a)) : Follows W R p s (.ok a)
  | fault {f : Fault} (run : Runs W R s f.left) : Follows W R p s (.error f)

theorem Follows.after {o : Except Fault α} (first : Runs W R s t) (h : Follows W R p t o) : Follows W R p s o := by
  cases h with
  | pure run => exact .pure (first.trans run)
  | fault run => exact .fault (first.trans run)

theorem Follows.bind {o : Except Fault α} {k : α → Except Fault β} (first : Follows W R p s o)
    (next : ∀ a, Follows W R q (p a) (k a)) : Follows W R q s (o >>= k) := by
  cases first with
  | pure run => exact (next _).after run
  | fault run => exact .fault run

theorem Follows.returning {r : OpResult} {program : State → Except Fault State} (h : Follows W R id s (program s)) :
    Follows W R Prod.snd s (Machine.returning r program s) :=
  h.bind fun _ => .pure .refl

/-! ### Straight lines and samples -/

theorem follows_microStep (m : MicroStep) (may : m.plain = false → .monitor ∈ R) (s : State) :
    Follows W R id s (microStep W m s) := by
  cases m with
  | drv l v => exact .pure (.afterPoint (.drv l v _))
  | set l v =>
    unfold microStep
    by_cases allowed : s.countdown.canSet l = true
    · simp only [allowed, if_true]
      exact .pure (.afterPoint (.set l v _ allowed))
    · simp only [allowed]
      exact .fault (.single (.point s))
  | rel l => exact .pure (.afterPoint (.rel l _))
  | dly q => exact .pure (.afterPoint (.dly q _))
  | tmArm n => exact .pure (.afterPoint (.arm n _ (may rfl)))
  | tmDisarm => exact .pure (.afterPoint (.disarm _ (may rfl)))

theorem follows_runSteps (ms : List MicroStep) (may : ∀ m ∈ ms, m.plain = false → .monitor ∈ R) (s : State) :
    Follows W R id s (runSteps W ms s) := by
  induction ms generalizing s with
  | nil => exact .pure .refl
  | cons m ms ih =>
    exact (follows_microStep m (may m (by simp)) s).bind fun u => ih (fun m hm => may m (by simp [hm])) u

theorem follows_plainSteps {ms : List MicroStep} (plain : ∀ m ∈ ms, m.plain = true) (s : State) :
    Follows W R id s (runSteps W ms s) :=
  follows_runSteps ms (fun m hm h => absurd (plain m hm) (by simp [h])) s

theorem follows_sample {l : PLine} (line : l = .rdy ∨ l ∈ dataLines) (s : State) :
    Follows W R Prod.snd s (sample W l s) := by
  unfold sample
  by_cases input : s.countdown.dirOf l = .input
  · simp only [input, if_true]
    exact .pure (.afterPoint (.smp l _ line))
  · simp only [input, if_false]
    exact .fault (.single (.point s))

theorem data_mem_dataLines (i : Fin 8) : .d i ∈ dataLines := by revert i; decide

/-! ### The framer's programs -/

theorem follows_quiesceLines (session : .session ∈ R) (s : State) : Follows W R id s (quiesceLines W s) :=
  (follows_plainSteps (by decide) s).bind fun u => .pure (.single (.session false u session))

theorem follows_exitProg (session : .session ∈ R) (s : State) : Follows W R id s (exitProg W s) :=
  follows_quiesceLines session s

theorem follows_enterProg (session : .session ∈ R) (s : State) : Follows W R id s (enterProg W s) := by
  unfold enterProg
  split
  · exact .fault .refl
  · exact (follows_plainSteps (by decide) s).bind fun u => .pure (.single (.session true u session))

theorem follows_frameSteps (m1 m0 b1 : Level) (x : Byte) (s : State) :
    Follows W R id s (runSteps W (frameSteps m1 m0 b1 x) s) :=
  follows_plainSteps (frameSteps_plain m1 m0 b1 x) s

theorem follows_sampleBits (rx : .rx ∈ R) (is : List (Fin 8)) (s : State) :
    Follows W R id s (sampleBits W is s) := by
  induction is generalizing s with
  | nil => exact .pure .refl
  | cons i is ih =>
    exact (follows_microStep (.rel (.d i)) nofun s).bind fun u =>
      (follows_sample (.inr (data_mem_dataLines i)) u).bind fun ⟨v, w⟩ =>
        .after (.single (.rx (writeBit w.rx i v) w rx)) (ih _)

theorem follows_receiveByte (rx : .rx ∈ R) (s : State) : Follows W R id s (receiveByte W s) :=
  (follows_microStep (.set (.protocol .oe) false) nofun s).bind fun u =>
    .after (.single (.rx 0#8 u rx)) ((follows_sampleBits rx receiveOrder _).bind fun v =>
      follows_plainSteps (by decide) v)

theorem follows_bselSetSteps (p1 p0 : Level) (s : State) : Follows W R id s (runSteps W (bselSetSteps p1 p0) s) :=
  follows_plainSteps (by cases p1 <;> cases p0 <;> decide) s

theorem follows_writeSelectSteps (loc : FuseLocation) (s : State) :
    Follows W R id s (runSteps W (writeSelectSteps loc) s) :=
  follows_plainSteps (by cases loc <;> decide) s

/-! ### The guard -/

theorem runs_pollLoop (monitor : .monitor ∈ R) (n : Nat) (s : State) : Runs W R s (pollLoop W n s).2 := by
  have poll : ∀ s, Runs W R s (s.countdown.polled (W.answer s.countdown.tr .rdy)) := fun s =>
    .afterPoint (.smp .rdy _ (.inl rfl))
  induction n generalizing s with
  | zero =>
    unfold pollLoop
    simp only
    split <;> exact (poll s).tail (.disarm _ monitor)
  | succ n ih =>
    unfold pollLoop
    simp only
    split
    · exact (poll s).tail (.disarm _ monitor)
    · exact (poll s).trans (ih _)

theorem follows_wrGuard (monitor : .monitor ∈ R) (s : State) : Follows W R Prod.snd s (wrGuard W s) := by
  refine (follows_runSteps commitSteps (fun _ _ _ => monitor) s).bind fun u => ?_
  split
  · exact .pure (runs_pollLoop monitor u.fireIn u)
  · exact .fault (.single (.point u))

/-! ### The engine's programs -/

theorem follows_readSignature (rx : .rx ∈ R) (acc : .acc ∈ R) (as : List Byte) (s : State) :
    Follows W R id s (readSignature W as s) := by
  induction as generalizing s with
  | nil => exact .pure .refl
  | cons a as ih =>
    exact (follows_frameSteps false false false a s).bind fun u => (follows_receiveByte rx u).bind fun v =>
      .after (.single (.acc (foldSignature v.acc v.rx) v acc)) (ih _)

section

variable (rx : .rx ∈ R) (session : .session ∈ R)
include rx session

theorem follows_readRaw (loc : FuseLocation) (s : State) : Follows W R id s (readRaw W loc s) :=
  (follows_enterProg session s).bind fun u => (follows_frameSteps true false false _ u).bind fun v =>
    (follows_bselSetSteps _ _ v).bind fun w => (follows_receiveByte rx w).bind fun x => follows_exitProg session x

theorem follows_identify (acc : .acc ∈ R) (engine : .engine ∈ R) (s : State) :
    Follows W R Prod.snd s (identify W s) :=
  (follows_enterProg session s).bind fun u => (follows_frameSteps true false false _ u).bind fun v =>
    .after (.single (.acc 0#24 v acc)) ((follows_readSignature rx acc _ _).bind fun w =>
      (follows_exitProg session w).bind fun x => .pure (.single (.select _ x engine)))

theorem follows_writeAttempt (rb : .rb ∈ R) (monitor : .monitor ∈ R) (cmd : Byte) (loc : FuseLocation) (value : Byte)
    (s : State) : Follows W R Prod.snd s (writeAttempt W cmd loc value s) := by
  refine (follows_plainSteps (by decide) s).bind fun a => ?_
  refine (follows_enterProg session a).bind fun b => ?_
  refine (follows_frameSteps true false false cmd b).bind fun c => ?_
  refine (follows_frameSteps false true false value c).bind fun d => ?_
  refine (follows_writeSelectSteps loc d).bind fun e => ?_
  refine (follows_wrGuard monitor e).bind fun ⟨_, f⟩ => ?_
  refine (follows_bselSetSteps false false f).bind fun g => ?_
  refine (follows_exitProg session g).bind fun h => ?_
  exact (follows_readRaw rx session loc h).bind fun x => .pure (.single (.rb x.rx x rb))

end

/-- What a write may write besides the lines (R112, R114, R115). -/
abbrev writeRegisters : List Register := [.rx, .att, .rb, .monitor, .session]

theorem follows_writeLocation (may : writeRegisters ⊆ R) (cmd : Byte) (loc : FuseLocation) (value : Byte) (s : State) :
    Follows W R id s (writeLocation W cmd loc value s) := by
  have loop : ∀ n s, Follows W R id s (writeLoop W cmd loc value n s) := by
    intro n
    induction n with
    | zero => exact fun _ => .pure .refl
    | succ n ih =>
      intro s
      refine .after (.single (.att (s.att + 1) s (may (by decide)))) ((follows_writeAttempt (may (by decide)) (may (by decide))
        (may (by decide)) (may (by decide)) cmd loc value _).bind fun ⟨g, u⟩ => ?_)
      simp only
      split
      · exact .pure .refl
      · exact ih u
  exact .after (.single (.att 0 s (may (by decide)))) (loop _ _)

theorem follows_writeDefaults (may : writeRegisters ⊆ R) (l : List (FuseLocation × Byte)) (s : State) :
    Follows W R Prod.snd s (writeDefaults W l s) := by
  induction l generalizing s with
  | nil => exact .pure .refl
  | cons w l ih =>
    refine (follows_writeLocation may W.params.cmdWriteFuse w.1 w.2 s).bind fun u => ?_
    simp only [id]
    split
    · exact .pure .refl
    · split
      · exact .pure .refl
      · exact ih u

theorem follows_eraseAttempt (session : .session ∈ R) (monitor : .monitor ∈ R) (s : State) :
    Follows W R Prod.snd s (eraseAttempt W s) :=
  (follows_enterProg session s).bind fun a => (follows_frameSteps true false false _ a).bind fun b =>
    (follows_wrGuard monitor b).bind fun ⟨_, c⟩ => (follows_exitProg session c).bind fun _ => .pure .refl

theorem follows_eraseLoop (session : .session ∈ R) (att : .att ∈ R) (monitor : .monitor ∈ R) (n : Nat) (g : GuardResult)
    (s : State) : Follows W R Prod.snd s (eraseLoop W n g s) := by
  induction n generalizing g s with
  | zero => exact .pure .refl
  | succ n ih =>
    refine .after (.single (.att (s.att + 1) s att)) ((follows_eraseAttempt session monitor _).bind fun ⟨g, u⟩ => ?_)
    simp only
    split
    · exact .pure .refl
    · exact ih g u

end Sys2Proof.Machine
end

section
/-! PROOFS. What every instruction does, said once: it is refused, or it performs a program that runs within the registers
its rule names (R10, R105, R106, R121). -/

namespace Sys2Proof.Machine

variable {i : Instr} {ms : List MicroStep} {s t : State}

/-- What an operation performs, with its result (R10). -/
abbrev Program := State → Except Fault (OpResult × State)

/-! ### Straight lines -/

/-- The straight lines of which an operation of the framer consists. -/
inductive LineProgram : List MicroStep → Prop
  | arm : LineProgram armSteps
  | frame (m1 m0 b1 : Level) (x : Byte) : LineProgram (frameSteps m1 m0 b1 x)
  | transmit (x : Byte) : LineProgram (transmitSteps x)
  | select (p1 p0 : Level) : LineProgram (bselSetSteps p1 p0)
  | bs1High : LineProgram bs1HighSteps

theorem LineProgram.plain (h : LineProgram ms) : ∀ m ∈ ms, m.plain = true := by
  cases h with
  | arm => decide
  | frame m1 m0 b1 x => exact frameSteps_plain m1 m0 b1 x
  | transmit x => exact transmitSteps_plain x
  | select p1 p0 => cases p1 <;> cases p0 <;> decide
  | bs1High => decide

/-- The straight line an instruction performs, if it is one: `ARM`, the framed bytes and the byte-select steps. -/
def lineSteps : Instr → Option (List MicroStep)
  | .arm => some armSteps
  | .loadCommand x => some (frameSteps true false false x)
  | .loadAddressLow x => some (frameSteps false false false x)
  | .loadData x => some (frameSteps false true false x)
  | .transmitByte x => some (transmitSteps x)
  | .bselSet p1 p0 => some (bselSetSteps p1 p0)
  | .bselClear => some (bselSetSteps false false)
  | .bs1High => some bs1HighSteps
  | .frameCommand x => some (frameSteps true false false x)
  | .frameAddressLow x => some (frameSteps false false false x)
  | .frameData x => some (frameSteps false true false x)
  | .bselRdLow => some (bselSetSteps false false)
  | .bselRdHigh => some (bselSetSteps true true)
  | .bselRdExtended => some (bselSetSteps false true)
  | .bselRdLock => some (bselSetSteps true false)
  | .bselWrLow => some (bselSetSteps false false)
  | .bselWrHigh => some (bselSetSteps true false)
  | .bselWrExtended => some (bselSetSteps false true)
  | .bselWrLock _ => some bs1HighSteps
  | .cmdChipErase => some (frameSteps true false false Config.params.cmdChipErase)
  | .cmdWriteFuse => some (frameSteps true false false Config.params.cmdWriteFuse)
  | .cmdWriteLock => some (frameSteps true false false Config.params.cmdWriteLock)
  | .cmdReadSignature => some (frameSteps true false false Config.params.cmdReadSignature)
  | .cmdReadFuse => some (frameSteps true false false Config.params.cmdReadFuse)
  | _ => none

theorem lineSteps_lineProgram (h : lineSteps i = some ms) : LineProgram ms := by
  cases i <;> cases h <;> constructor

theorem exec_of_lineSteps (h : lineSteps i = some ms) (s : State) :
    exec i s = perform i (returning .done (runSteps Config.world ms)) s := by
  cases i <;> cases h <;> rfl

theorem perform_ok {program : Program} {r : OpResult}
    (h : program (s.begin i) = .ok (r, t)) : perform i program s = .next (t.finish r) := by
  simp only [perform, h]

theorem perform_error {program : Program} {f : Fault}
    (h : program (s.begin i) = .error f) : perform i program s = .fault f := by
  simp only [perform, h]

/-! ### The other programs of the framer and the guard -/

/-- The program of `RECEIVE_BYTE` (R76). -/
def receiveProgram : Program := fun s =>
  receiveByte Config.world s >>= fun s => pure (.byte s.rx, s)

/-- The program of `WR_GUARD` (R93). -/
def guardProgram : Program := fun s =>
  wrGuard Config.world s >>= fun r => pure (.guard r.1, r.2)

theorem exec_receiveByte (s : State) : exec .receiveByte s = perform .receiveByte receiveProgram s := rfl

theorem exec_wrGuard (s : State) : exec .wrGuard s = perform .wrGuard guardProgram s := rfl

theorem exec_tmArm (n : BitVec 16) (s : State) :
    exec (.tmArm n) s = perform (.tmArm n) (returning .done (runSteps Config.world [.tmArm n])) s := rfl

theorem exec_tmDisarm (s : State) :
    exec .tmDisarm s = perform .tmDisarm (returning .done (runSteps Config.world [.tmDisarm])) s := rfl

theorem exec_tmTimedOut (s : State) :
    exec .tmTimedOut s = perform .tmTimedOut (fun s => .ok (.flag s.tmFlag, s)) s := rfl

/-! ### The gate and the engine's programs -/

theorem gated_of_known {program : Program} (h : s.engState = .deviceKnown) :
    gated i program s = perform i program s := if_pos h

theorem gated_of_not_known {program : Program} (h : s.engState ≠ .deviceKnown) :
    gated i program s = .next (s.refuse .unknownDevice) := if_neg h

/-- The program of `READ_FUSE(loc)` (R111). -/
def readProgram (loc : FuseLocation) (s : State) : Except Fault (OpResult × State) :=
  readRaw Config.world loc s >>= fun s => pure (.byte s.rx, s)

/-- The program of `WRITE_FUSE` and `WRITE_LOCK` (R112, R114). -/
def writeProgram (cmd : Byte) (loc : FuseLocation) (value : Byte) (s : State) : Except Fault (OpResult × State) :=
  writeLocation Config.world cmd loc value s >>= fun s => pure (.byte s.rb, s)

/-- The program of `WRITE_FUSE_DEFAULTS` with the bytes `set` (R115). -/
def defaultsProgram (set : Config.FuseSet) (s : State) : Except Fault (OpResult × State) :=
  writeDefaults Config.world (defaultWrites set) s >>= fun r => pure (.defaults r.1, r.2)

/-- The program of `ERASE_DEVICE` (R116). -/
def eraseProgram : Program := fun s =>
  eraseLoop Config.world Config.attemptMax .timedOut { s with att := 0 } >>= fun r => pure (.guard r.1, r.2)

theorem exec_singleWrite {cmd : Byte} {loc : FuseLocation} {value : Byte} (h : singleWrite i = some (cmd, loc, value))
    (s : State) : exec i s = gated i (writeProgram cmd loc value) s := by
  unfold singleWrite at h
  split at h <;> cases h <;> rfl

theorem exec_writeFuse_lock (value : Byte) (s : State) :
    exec (.writeFuse .lock value) s = .next (s.refuse .illegalOperation) := rfl

theorem exec_eraseDevice (s : State) : exec .eraseDevice s = gated .eraseDevice eraseProgram s := rfl

theorem exec_writeFuseDefaults_of_selected (b : Bool) {d : Config.DeviceDescriptor} (h : s.sel = some d) :
    exec (.writeFuseDefaults b) s = gated (.writeFuseDefaults b) (defaultsProgram (defaultSet d b)) s := by
  show execWriteFuseDefaults b s = _
  rw [execWriteFuseDefaults, h]
  rfl

theorem exec_writeFuseDefaults_of_none (b : Bool) (h : s.sel = none) :
    exec (.writeFuseDefaults b) s = .next (s.refuse .unknownDevice) := by
  show execWriteFuseDefaults b s = _
  rw [execWriteFuseDefaults, h]

/-! ### Answers -/

/-- What `i` can answer from `s`: a refusal, or what a program that satisfies `Q` answers. -/
inductive Answers (Q : Program → Prop) (i : Instr) (s : State)
    (o : Host.Outcome State Fault Refusal) : Prop
  | refused (e : RefusalReason) (answer : o = .next (s.refuse e)) : Answers Q i s o
  | performed (program : Program) (answer : o = perform i program s) (law : Q program) :
      Answers Q i s o

theorem Answers.gated {Q : Program → Prop}
    {program : Program} (law : Q program) : Answers Q i s (gated i program s) := by
  by_cases known : s.engState = .deviceKnown
  · exact .performed program (gated_of_known known) law
  · exact .refused _ (gated_of_not_known known)

/-- A program that keeps within the registers of `i`, wherever it begins. -/
abbrev Within (i : Instr) (program : Program) : Prop :=
  ∀ u, Follows Config.world (writtenRegisters i) Prod.snd u (program u)

theorem within_writeProgram {cmd : Byte} {loc : FuseLocation} {value : Byte} (write : writtenRegisters i = writeRegisters) :
    Within i (writeProgram cmd loc value) := fun u =>
  (follows_writeLocation (write ▸ fun _ => id) cmd loc value u).bind fun _ => .pure .refl

/-- Every instruction is refused, or performs a program within its registers (R10, R121). -/
theorem exec_answers (i : Instr) (s : State) : Answers (Within i) i s (exec i s) := by
  cases straight : lineSteps i with
  | some ms =>
    exact .performed _ (exec_of_lineSteps straight s) fun u =>
      (follows_plainSteps (lineSteps_lineProgram straight).plain u).returning
  | none =>
    cases i with
    | quiesce => exact .performed _ rfl fun u => (follows_quiesceLines (by decide) u).returning
    | exitProg => exact .performed _ rfl fun u => (follows_exitProg (by decide) u).returning
    | enterProg => exact .performed _ rfl fun u => (follows_enterProg (by decide) u).returning
    | receiveByte =>
      exact .performed _ (exec_receiveByte s) fun u => (follows_receiveByte (by decide) u).bind fun v => .pure .refl
    | tmArm n =>
      exact .performed _ (exec_tmArm n s) fun u => (follows_runSteps _ (fun _ _ _ => .head _) u).returning
    | tmDisarm =>
      exact .performed _ (exec_tmDisarm s) fun u => (follows_runSteps _ (fun _ _ _ => .head _) u).returning
    | tmTimedOut => exact .performed _ (exec_tmTimedOut s) fun u => .pure .refl
    | wrGuard =>
      exact .performed _ (exec_wrGuard s) fun u => (follows_wrGuard (by decide) u).bind fun v => .pure .refl
    | identify =>
      exact .performed _ rfl fun u => follows_identify (by decide) (by decide) (by decide) (by decide) u
    | readFuse loc =>
      exact .gated (program := readProgram loc) fun u =>
        (follows_readRaw (.head _) (.tail _ (.head _)) loc u).bind fun v => .pure .refl
    | writeFuse loc value =>
      cases loc with
      | lock => exact .refused _ (exec_writeFuse_lock value s)
      | low => exact .gated (within_writeProgram rfl)
      | high => exact .gated (within_writeProgram rfl)
      | extended => exact .gated (within_writeProgram rfl)
    | writeLock value => exact .gated (within_writeProgram rfl)
    | writeFuseDefaults b =>
      cases selected : s.sel with
      | none => exact .refused _ (exec_writeFuseDefaults_of_none b selected)
      | some d =>
        exact exec_writeFuseDefaults_of_selected b selected ▸ .gated fun u =>
          (follows_writeDefaults (fun _ => id) _ u).bind fun v => .pure .refl
    | eraseDevice =>
      exact .gated (program := eraseProgram) fun u => .after (.single (.att 0 u (by decide)))
        ((follows_eraseLoop (by decide) (by decide) (by decide) Config.attemptMax .timedOut _).bind fun v => .pure .refl)
    | _ => cases straight

end Sys2Proof.Machine
end

section
/-! PROOFS. The registers an operation leaves alone, the events that explain its changes, the samples, and where a fault stops:
each holds across every act of a program and so between the states before and after (R15, R22, R27, R28, R63, R124). -/

namespace Sys2Proof.Machine

variable {W : World} {R : List Register} {i : Instr} {s t u : State}

/-! ### What an answer of `exec` came to -/

theorem perform_eq_next {program : Program} (h : perform i program s = .next t) :
    ∃ r u, program (s.begin i) = .ok (r, u) ∧ t = u.finish r := by
  unfold perform at h
  split at h
  next r u ran => exact ⟨r, u, ran, (Host.Outcome.next.inj h).symm⟩
  next => cases h

theorem perform_eq_fault {program : Program} {f : Fault}
    (h : perform i program s = .fault f) : program (s.begin i) = .error f := by
  unfold perform at h
  split at h
  next => cases h
  next g stopped => exact Host.Outcome.fault.inj h ▸ stopped

/-- A next state is that of a refusal, or the end of a run within the instruction's registers. -/
theorem exec_eq_next (h : exec i s = .next t) :
    (∃ e, t = s.refuse e) ∨ ∃ r u, Runs Config.world (writtenRegisters i) (s.begin i) u ∧ t = u.finish r := by
  rcases exec_answers i s with ⟨e, answer⟩ | ⟨program, answer, within⟩
  · exact .inl ⟨e, Host.Outcome.next.inj (h.symm.trans answer)⟩
  · obtain ⟨r, u, ran, rfl⟩ := perform_eq_next (answer.symm.trans h)
    have follows := within (s.begin i)
    rw [ran] at follows
    cases follows with
    | pure run => exact .inr ⟨r, u, run, rfl⟩

/-- The state a fault leaves is where a run within the instruction's registers stands. -/
theorem exec_eq_fault {f : Fault} (h : exec i s = .fault f) :
    Runs Config.world (writtenRegisters i) (s.begin i) f.left := by
  rcases exec_answers i s with ⟨e, answer⟩ | ⟨program, answer, within⟩
  · cases h.symm.trans answer
  · have follows := within (s.begin i)
    rw [perform_eq_fault (answer.symm.trans h)] at follows
    cases follows with
    | fault run => exact run

/-- What holds across every act, and across the beginning, the end and the refusal of an operation, holds between the states
before and after an instruction. -/
theorem exec_relates {P : State → State → Prop} (refl : ∀ s, P s s) (trans : ∀ {s t u}, P s t → P t u → P s u)
    (act : ∀ {s t}, Act Config.world (writtenRegisters i) s t → P s t) (begins : ∀ s, P s (s.begin i))
    (finishes : ∀ s r, P s (s.finish r)) (refuses : ∀ s e, P s (s.refuse e)) (h : exec i s = .next t) : P s t := by
  rcases exec_eq_next h with ⟨e, rfl⟩ | ⟨r, u, run, rfl⟩
  · exact refuses s e
  · exact trans (trans (begins s) (run.relates refl trans act)) (finishes u r)

/-! ### The frame of the registers -/

theorem MonitorOnlyFires.of_eq (deadline : t.tmDeadline = s.tmDeadline) (flag : t.tmFlag = s.tmFlag)
    (run : t.tmRun = s.tmRun) : MonitorOnlyFires s t := ⟨deadline, .inl ⟨flag, run⟩⟩

theorem MonitorOnlyFires.trans (h : MonitorOnlyFires s t) (k : MonitorOnlyFires t u) : MonitorOnlyFires s u := by
  obtain ⟨deadline, aged⟩ := h
  obtain ⟨deadline', aged'⟩ := k
  refine ⟨deadline'.trans deadline, ?_⟩
  rcases aged with ⟨flag, run⟩ | ⟨running, fired, stopped⟩
  · exact flag ▸ run ▸ aged'
  · rcases aged' with ⟨flag, run⟩ | ⟨running', -, -⟩
    · exact .inr ⟨running, flag.trans fired, run.trans stopped⟩
    · exact absurd running' (by simp [stopped])

/-- From `s` to `t` no register outside `R` is written, and no field of the host's side. -/
def RegistersKeptBut (R : List Register) (s t : State) : Prop :=
  (∀ r : Register, r ∉ R → r.KeptIn s t) ∧ t.modeInput = s.modeInput ∧ t.startup = s.startup ∧ t.issue = s.issue

theorem Register.KeptIn.refl (r : Register) (s : State) : r.KeptIn s s := by
  cases r with
  | monitor => exact .of_eq rfl rfl rfl
  | engine => exact ⟨rfl, rfl⟩
  | _ => rfl

theorem Register.KeptIn.trans {r : Register} (h : r.KeptIn s t) (k : r.KeptIn t u) : r.KeptIn s u := by
  cases r with
  | monitor => exact MonitorOnlyFires.trans h k
  | engine => exact ⟨k.1.trans h.1, k.2.trans h.2⟩
  | _ => exact Eq.trans k h

theorem RegistersKeptBut.refl (R : List Register) (s : State) : RegistersKeptBut R s s :=
  ⟨fun r _ => .refl r s, rfl, rfl, rfl⟩

theorem RegistersKeptBut.trans (h : RegistersKeptBut R s t) (k : RegistersKeptBut R t u) : RegistersKeptBut R s u := by
  obtain ⟨kept, mode, startup, issue⟩ := h
  obtain ⟨kept', mode', startup', issue'⟩ := k
  exact ⟨fun r out => (kept r out).trans (kept' r out), mode'.trans mode, startup'.trans startup, issue'.trans issue⟩

/-- An act that writes one register of `R` keeps those outside `R`. -/
theorem RegistersKeptBut.ofWrite {w : Register} (may : w ∈ R) (others : ∀ r, r ≠ w → r.KeptIn s t)
    (mode : t.modeInput = s.modeInput) (startup : t.startup = s.startup) (issue : t.issue = s.issue) :
    RegistersKeptBut R s t :=
  ⟨fun r out => others r fun same => out (same ▸ may), mode, startup, issue⟩

/-- An act writes no register but one of `R`. -/
theorem Act.registers (h : Act W R s t) : RegistersKeptBut R s t := by
  have same := fun r => Register.KeptIn.refl r s
  cases h with
  | point =>
    refine ⟨fun r _ => ?_, rfl, rfl, rfl⟩
    have kept := same r
    cases r with
    | monitor => exact (countdown_passed s).onlyFires
    | _ => exact kept
  | drv | set | rel | dly | smp =>
    refine ⟨fun r _ => ?_, rfl, rfl, rfl⟩
    have kept := same r
    cases r <;> exact kept
  | arm _ _ may | disarm _ may =>
    refine .ofWrite may (fun r ne => ?_) rfl rfl rfl
    have kept := same r
    cases r with
    | monitor => exact absurd rfl ne
    | _ => exact kept
  | rx _ _ may =>
    refine .ofWrite may (fun r ne => ?_) rfl rfl rfl
    have kept := same r
    cases r with
    | rx => exact absurd rfl ne
    | _ => exact kept
  | acc _ _ may =>
    refine .ofWrite may (fun r ne => ?_) rfl rfl rfl
    have kept := same r
    cases r with
    | acc => exact absurd rfl ne
    | _ => exact kept
  | att _ _ may =>
    refine .ofWrite may (fun r ne => ?_) rfl rfl rfl
    have kept := same r
    cases r with
    | att => exact absurd rfl ne
    | _ => exact kept
  | rb _ _ may =>
    refine .ofWrite may (fun r ne => ?_) rfl rfl rfl
    have kept := same r
    cases r with
    | rb => exact absurd rfl ne
    | _ => exact kept
  | session _ _ may =>
    refine .ofWrite may (fun r ne => ?_) rfl rfl rfl
    have kept := same r
    cases r with
    | session => exact absurd rfl ne
    | _ => exact kept
  | select _ _ may =>
    refine .ofWrite may (fun r ne => ?_) rfl rfl rfl
    have kept := same r
    cases r with
    | engine => exact absurd rfl ne
    | _ => exact kept

/-- An instruction writes no register but those its rule names. -/
theorem exec_registers (h : exec i s = .next t) : RegistersKeptBut (writtenRegisters i) s t :=
  exec_relates (RegistersKeptBut.refl _) .trans Act.registers (RegistersKeptBut.refl _) (fun s _ => .refl _ s)
    (fun s _ => .refl _ s) h

/-! ### The trace -/

theorem replayDir_append (d : Dir) (l : PLine) (a b : List Event) :
    replayDir d l (a ++ b) = replayDir (replayDir d l a) l b := List.foldl_append

theorem replayLvl_append (v : Latch) (l : Line) (a b : List Event) :
    replayLvl v l (a ++ b) = replayLvl (replayLvl v l a) l b := List.foldl_append

theorem replayMonitor_append (m : Bool × Bool) (a b : List Event) :
    replayMonitor m (a ++ b) = replayMonitor (replayMonitor m a) b := List.foldl_append

theorem Explained.trans {a b : List Event} (h : Explained s t a) (k : Explained t u b) : Explained s u (a ++ b) := by
  obtain ⟨dir, lvl, monitor⟩ := h
  obtain ⟨dir', lvl', monitor'⟩ := k
  refine ⟨fun l => ?_, fun l => ?_, ?_⟩
  · rw [dir' l, dir l, replayDir_append]
  · rw [lvl' l, lvl l, replayLvl_append]
  · rw [monitor', monitor, replayMonitor_append]

/-- What is untouched needs no event. -/
theorem Explained.nil (dir : t.dir = s.dir) (lvl : t.lvl = s.lvl) (flag : t.tmFlag = s.tmFlag) (run : t.tmRun = s.tmRun) :
    Explained s t [] := by
  refine ⟨fun l => ?_, fun l => ?_, ?_⟩
  · exact congrArg (fun d : Vector Dir 16 => d[l.slot]) dir
  · exact congrArg (fun v : Vector Latch 18 => v[l.slot]) lvl
  · exact congrArg₂ Prod.mk flag run

/-- The trace grows, and its new events explain the lines and the monitor. -/
def Grows (s t : State) : Prop := ∃ added, t.tr = s.tr ++ added ∧ Explained s t added

theorem Grows.trans (h : Grows s t) (k : Grows t u) : Grows s u := by
  obtain ⟨a, trace, explained⟩ := h
  obtain ⟨b, trace', explained'⟩ := k
  exact ⟨a ++ b, by rw [trace', trace, List.append_assoc], explained.trans explained'⟩

theorem Grows.nil (trace : t.tr = s.tr) (dir : t.dir = s.dir) (lvl : t.lvl = s.lvl) (flag : t.tmFlag = s.tmFlag)
    (run : t.tmRun = s.tmRun) : Grows s t := ⟨[], by simp [trace], .nil dir lvl flag run⟩

theorem Grows.refl (s : State) : Grows s s := .nil rfl rfl rfl rfl rfl

theorem countdown_grows (s : State) : Grows s s.countdown := by
  by_cases fires : s.fires = true
  · rw [countdown_eq_tmFire fires]
    exact ⟨[.tmFire], rfl, fun _ => rfl, fun _ => rfl, rfl⟩
  · refine .nil ?_ rfl rfl ?_ ?_ <;> simp [fires]

/-- An act explains itself: at most one event, and it says what changed. -/
theorem Act.grows (h : Act W R s t) : Grows s t := by
  cases h with
  | point => exact countdown_grows s
  | drv l v =>
    exact ⟨[.drv l v], rfl, fun k => by simp [State.drive_dirOf, replayDir], fun k => by simp [State.drive_lvlOf, replayLvl],
      rfl⟩
  | set l v => exact ⟨[.set l v], rfl, fun _ => rfl, fun k => by simp [State.level_lvlOf, replayLvl], rfl⟩
  | rel l =>
    exact ⟨[.rel l], rfl, fun k => by simp [State.release_dirOf, replayDir], fun k => by simp [State.release_lvlOf, replayLvl],
      rfl⟩
  | dly q => exact ⟨[.dly q], rfl, fun _ => rfl, fun _ => rfl, rfl⟩
  | smp l => exact ⟨[.smp l _], rfl, fun _ => rfl, fun _ => rfl, rfl⟩
  | arm n => exact ⟨[.tmArm n], rfl, fun _ => rfl, fun _ => rfl, rfl⟩
  | disarm => exact ⟨[.tmDisarm], rfl, fun _ => rfl, fun _ => rfl, rfl⟩
  | rx | acc | att | rb | session | select => exact .nil rfl rfl rfl rfl rfl

theorem exec_grows (h : exec i s = .next t) : Grows s t :=
  exec_relates Grows.refl .trans Act.grows (fun _ => .nil rfl rfl rfl rfl rfl) (fun _ _ => .nil rfl rfl rfl rfl rfl)
    (fun _ _ => .nil rfl rfl rfl rfl rfl) h

/-! ### The samples -/

/-- Every sample among the events `added` after the history `tr` carries the answer to the whole history before it, and is
of `RDY` or a data line (R28, R63). -/
def SamplesAnswered (answer : List Event → PLine → Level) (tr added : List Event) : Prop :=
  ∀ before l v after, added = before ++ .smp l v :: after → v = answer (tr ++ before) l ∧ (l = .rdy ∨ l ∈ dataLines)

theorem SamplesAnswered.append {answer : List Event → PLine → Level} {tr a b : List Event}
    (h : SamplesAnswered answer tr a) (k : SamplesAnswered answer (tr ++ a) b) : SamplesAnswered answer tr (a ++ b) := by
  intro before l v after e
  rcases List.append_eq_append_iff.mp e with ⟨c, rfl, eb⟩ | ⟨c, ea, ec⟩
  · rw [← List.append_assoc]
    exact k c l v after eb
  · cases c with
    | nil =>
      rw [List.append_nil] at ea
      have := k [] l v after ec.symm
      rwa [List.append_nil, ea] at this
    | cons x c =>
      obtain ⟨rfl, -⟩ := List.cons.inj ec
      exact h before l v c ea

theorem samplesAnswered_nil (answer : List Event → PLine → Level) (tr : List Event) : SamplesAnswered answer tr [] := by
  intro before l v after e
  simp at e

/-- One event that is no sample. -/
theorem samplesAnswered_single (answer : List Event → PLine → Level) (tr : List Event) {e : Event}
    (h : ∀ l v, e = .smp l v → v = answer tr l ∧ (l = .rdy ∨ l ∈ dataLines)) : SamplesAnswered answer tr [e] := by
  intro before l v after eq
  cases before with
  | nil =>
    obtain ⟨rfl, -⟩ := List.cons.inj eq
    simpa using h l v rfl
  | cons x before => simp at eq

/-- The trace grows, and its new samples are the world's answers. -/
def Samples (W : World) (s t : State) : Prop := ∃ added, t.tr = s.tr ++ added ∧ SamplesAnswered W.answer s.tr added

theorem Samples.trans (h : Samples W s t) (k : Samples W t u) : Samples W s u := by
  obtain ⟨a, trace, answered⟩ := h
  obtain ⟨b, trace', answered'⟩ := k
  exact ⟨a ++ b, by rw [trace', trace, List.append_assoc], answered.append (trace ▸ answered')⟩

theorem Samples.nil (trace : t.tr = s.tr) : Samples W s t := ⟨[], by simp [trace], samplesAnswered_nil _ _⟩

theorem Samples.event {e : Event} (trace : t.tr = s.tr ++ [e]) (other : ∀ l v, e ≠ .smp l v) : Samples W s t :=
  ⟨[e], trace, samplesAnswered_single _ _ fun l v same => absurd same (other l v)⟩

theorem Act.samples (h : Act W R s t) : Samples W s t := by
  cases h with
  | point =>
    by_cases fires : s.fires = true
    · exact .event (e := .tmFire) (by simp [fires]) nofun
    · exact .nil (by simp [fires])
  | smp l _ line =>
    refine ⟨[.smp l _], rfl, samplesAnswered_single _ _ fun k v same => ?_⟩
    obtain ⟨rfl, rfl⟩ := Event.smp.inj same
    exact ⟨rfl, line⟩
  | drv | set | rel | dly | arm | disarm => exact .event rfl nofun
  | rx | acc | att | rb | session | select => exact .nil rfl

theorem exec_samples (h : exec i s = .next t) : Samples Config.world s t :=
  exec_relates (fun _ => .nil rfl) .trans Act.samples (fun _ => .nil rfl) (fun _ _ => .nil rfl) (fun _ _ => .nil rfl) h

/-! ### Where a fault stops -/

/-- The sequencer's index grows by one with each of its events (R27). -/
def Counted (s t : State) : Prop :=
  ∃ evs, Performed s t evs ∧ t.seq = s.seq.map (fun p => { p with index := p.index + evs.length })

theorem Performed.trans {a b : List Event} (h : Performed s t a) (k : Performed t u b) : Performed s u (a ++ b) := by
  obtain ⟨x, trace, rfl⟩ := h
  obtain ⟨y, trace', rfl⟩ := k
  exact ⟨x ++ y, by rw [trace', trace, List.append_assoc], List.filter_append _ _⟩

theorem Counted.trans (h : Counted s t) (k : Counted t u) : Counted s u := by
  obtain ⟨a, performed, seq⟩ := h
  obtain ⟨b, performed', seq'⟩ := k
  exact ⟨a ++ b, performed.trans performed', by rw [seq', seq]; cases s.seq <;> simp [Nat.add_assoc]⟩

theorem Counted.nil (trace : t.tr = s.tr) (seq : t.seq = s.seq) : Counted s t :=
  ⟨[], ⟨[], by simp [trace], rfl⟩, by rw [seq]; cases s.seq <;> rfl⟩

theorem Counted.event {e : Event} (trace : t.tr = s.tr ++ [e]) (own : e ≠ .tmFire)
    (seq : t.seq = s.seq.map (fun p => { p with index := p.index + 1 })) : Counted s t :=
  ⟨[e], ⟨[e], trace, by simp [own]⟩, seq⟩

theorem Act.counted (h : Act W R s t) : Counted s t := by
  cases h with
  | point =>
    refine ⟨[], ⟨if s.fires then [.tmFire] else [], (countdown_passed s).trace, ?_⟩, by cases h : s.seq <;> simp [h]⟩
    split <;> simp
  | drv | set | rel | dly | smp | arm | disarm => exact .event rfl nofun rfl
  | rx | acc | att | rb | session | select => exact .nil rfl rfl

theorem step_of_busy {pos : SeqPos} (h : s.seq = some pos) : step s = .fault (.halted s) := by
  simp only [step, h]

end Sys2Proof.Machine

namespace Sys2Proof

open Machine

/-- Settles O51: every act of the instruction's program writes a register its rule names, or none. -/
theorem unwrittenRegistersKeep : Obligations.UnwrittenRegistersKeep := fun _ _ _ => exec_registers

/-- Settles O52: every act of a program adds the event of what it changes, and replaying composes. -/
theorem changesHaveEvents : Obligations.ChangesHaveEvents := fun _ _ _ => exec_grows

/-- Settles O53: an act that adds a sample asks the environment with the trace before it. -/
theorem samplesAreTheEnvironmentsAnswers : Obligations.SamplesAreTheEnvironmentsAnswers := fun _ _ _ => exec_samples

/-- Settles O11: the run to the fault counts the sequencer's events from the operation's beginning, and a state inside an
operation has no step. -/
theorem faultStopsAtTheMicroStep : Obligations.FaultStopsAtTheMicroStep := by
  intro i s f h
  obtain ⟨evs, performed, seq⟩ :=
    (exec_eq_fault h).relates (fun _ => Counted.nil rfl rfl) Counted.trans Act.counted
  have inside : f.left.seq = some { op := i, index := evs.length } := by simpa using seq
  exact ⟨evs, performed, inside, step_of_busy inside⟩

end Sys2Proof
end

section
/-! PROOFS. One step of the machine, said once: a point of the countdown, then an instruction or a change on the host's side
alone. From it the step's rule, the values at reset, and that the trace explains every reachable state (R13, R28, R31, R105). -/

namespace Sys2Proof.Machine

variable {i : Instr} {s t u : State} {w : CodeWord} {rest : List CodeWord}

/-! ### The step between operations -/

theorem step_of_started (idle : s.seq = none) (started : s.startup = .ended) : step s = nextOperation s.countdown := by
  simp only [step, idle, betweenOperations, State.countdown_startup, started]

theorem nextOperation_nil (h : s.issue = []) : nextOperation s = .next s := by
  simp only [nextOperation, h]

theorem nextOperation_decoded (h : s.issue = w :: rest) (decoded : decode w = .ok i) :
    nextOperation s = exec i { s with issue := rest } := by
  simp only [nextOperation, h, decoded]

theorem nextOperation_illegal {e : DecodeError} (h : s.issue = w :: rest) (illegal : decode w = .error e) :
    nextOperation s = .next (State.refuse .illegalOperation { s with issue := rest }) := by
  simp only [nextOperation, h, illegal]

/-- `t` is `s` but for the startup position, the issued words and the last result. -/
def HostSide (s t : State) : Prop :=
  ∃ startup issue result, t = { s with startup := startup, issue := issue, result := result }

theorem HostSide.refl (s : State) : HostSide s s := ⟨_, _, _, rfl⟩

theorem startupOperation_eq_next {next : Startup} (h : startupOperation i next s = .next t) :
    ∃ u, exec i s = .next u ∧ HostSide u t := by
  unfold startupOperation at h
  split at h
  next u ran => exact ⟨u, ran, _, _, _, (Host.Outcome.next.inj h).symm⟩
  next => cases h
  next => cases h

theorem nextOperation_eq_next (h : nextOperation s = .next t) :
    HostSide s t ∨ ∃ i c, HostSide s c ∧ exec i c = .next t := by
  unfold nextOperation at h
  split at h
  next => exact .inl ⟨_, _, _, (Host.Outcome.next.inj h).symm⟩
  next rest _ =>
    split at h
    next i _ => exact .inr ⟨i, _, ⟨_, rest, _, rfl⟩, h⟩
    next => exact .inl ⟨_, rest, _, (Host.Outcome.next.inj h).symm⟩

/-- What a step can do: after a point of the countdown, a change on the host's side alone, or an instruction (R13, R105, R142). -/
theorem step_eq_next (h : step s = .next t) :
    s.seq = none ∧ (HostSide s.countdown t ∨
      ∃ i c u, HostSide s.countdown c ∧ exec i c = .next u ∧ HostSide u t) := by
  unfold step at h
  split at h
  next => cases h
  next idle =>
    refine ⟨idle, ?_⟩
    have startup : ∀ {i next}, startupOperation i next s.countdown = .next t →
        ∃ i c u, HostSide s.countdown c ∧ exec i c = .next u ∧ HostSide u t := fun h => by
      obtain ⟨u, ran, host⟩ := startupOperation_eq_next h
      exact ⟨_, _, u, .refl _, ran, host⟩
    unfold betweenOperations at h
    split at h
    next =>
      split at h
      · exact .inl ⟨_, _, _, (Host.Outcome.next.inj h).symm⟩
      · cases h
    next => exact .inr (startup h)
    next => exact .inr (startup h)
    next =>
      rcases nextOperation_eq_next h with host | ⟨i, c, host, ran⟩
      · exact .inl host
      · exact .inr ⟨i, c, t, host, ran, .refl t⟩

/-- What the host's side, a point of the countdown and every instruction keep, every step keeps. -/
theorem step_keeps {P : State → Prop} (host : ∀ {s t}, HostSide s t → P s → P t) (point : ∀ s, P s → P s.countdown)
    (op : ∀ {i s t}, P s → exec i s = .next t → P t) (before : P s) (h : step s = .next t) : P t := by
  have c := point s before
  obtain ⟨-, side | ⟨i, b, u, side, ran, side'⟩⟩ := step_eq_next h
  · exact host side c
  · exact host side' (op (host side c) ran)

/-! ### The trace explains the state -/

theorem TraceExplains.grows (h : TraceExplains s) (g : Grows s t) : TraceExplains t := by
  obtain ⟨added, trace, explained⟩ := g
  unfold TraceExplains
  rw [trace]
  exact Explained.trans h explained

theorem TraceExplains.host (h : TraceExplains s) (side : HostSide s t) : TraceExplains t := by
  obtain ⟨_, _, _, rfl⟩ := side
  exact h

theorem reset_traceExplains : TraceExplains State.reset := .nil rfl rfl rfl rfl

/-! ### Reset -/

theorem reset_coherent : Coherent State.reset where
  idle := rfl
  latches l := by simp [State.reset_dirOf, State.reset_lvlOf]
  strobes := by simp [State.reset_lvlOf]
  power := ⟨by simp [State.reset_lvlOf], by simp [State.reset_lvlOf]⟩
  attempts := Nat.zero_le 4
  monitor := by simp [State.reset]
  known := by simp [State.reset]
  entry := nofun
  notIdle := nofun

theorem supplyFirst_nil : SupplyFirst [] := fun before after h => by simp at h

end Sys2Proof.Machine

namespace Sys2Proof

open Machine

/-- Settles O6: between operations the step is the next operation, which for a decoded word is `exec`. -/
theorem stepRunsTheDecodedInstruction : Obligations.StepRunsTheDecodedInstruction :=
  fun _ _ _ _ idle started issued decoded =>
    (step_of_started idle started).trans (nextOperation_decoded issued decoded)

/-- Settles O55: a step's new events explain its changes, and so the longer trace explains the new state. -/
theorem stepKeepsTraceExplained : Obligations.StepKeepsTraceExplained := fun _ _ =>
  step_keeps (fun side h => h.host side) (fun s h => h.grows (countdown_grows s)) (fun h ran => h.grows (exec_grows ran))

/-- Settles O12: the values of reset, read off. -/
theorem resetValues : Obligations.ResetValues := ⟨rfl, rfl, rfl, rfl, rfl, rfl, rfl⟩

/-- Settles O57: at reset no line has a direction or a level, nothing is selected and the trace is empty. -/
theorem resetMeetsTheInvariants : Obligations.ResetMeetsTheInvariants :=
  ⟨reset_coherent, reset_traceExplains, supplyFirst_nil⟩

end Sys2Proof
end

section
/-! PROOFS. The engine's operations as instructions: without a session every one completes or is refused, in a session it is
refused or faults; and a write or an erase pulses the write strobe once an attempt (R105, R106, R112 to R119, R145). -/

namespace Sys2Proof.Machine

variable {W : World} {i : Instr} {s t : State} {cmd : Byte} {loc : FuseLocation} {value : Byte}

/-! ### Opening a session in a session -/

theorem readRaw_in_session (W : World) (loc : FuseLocation) (h : s.session = true) :
    readRaw W loc s = .error (.sessionActive s) := by
  simp only [readRaw, enterProg_in_session W h, bind, Except.bind]

theorem identify_in_session (W : World) (h : s.session = true) : identify W s = .error (.sessionActive s) := by
  simp only [identify, enterProg_in_session W h, bind, Except.bind]

theorem eraseAttempt_in_session (W : World) (h : s.session = true) : eraseAttempt W s = .error (.sessionActive s) := by
  simp only [eraseAttempt, enterProg_in_session W h, bind, Except.bind]

theorem writeAttempt_in_session (W : World) (cmd : Byte) (loc : FuseLocation) (value : Byte) (h : s.session = true) :
    ∃ left, writeAttempt W cmd loc value s = .error (.sessionActive left) := by
  obtain ⟨u, waited⟩ := runSteps_ok (W := W) (ms := [.dly .preWrite]) (s := s) (by decide) ⟨trivial, trivial⟩
  have kept := (runSteps_ran (by decide) waited).kept
  exact ⟨u, by simp only [writeAttempt, waited, enterProg_in_session W (kept.session.trans h), bind, Except.bind]⟩

theorem writeLocation_in_session (W : World) (cmd : Byte) (loc : FuseLocation) (value : Byte) (h : s.session = true) :
    ∃ left, writeLocation W cmd loc value s = .error (.sessionActive left) := by
  obtain ⟨left, stopped⟩ := writeAttempt_in_session W cmd loc value (s := { s with att := 0 + 1 }) h
  exact ⟨left, by simp only [writeLocation, Config.attemptMax, writeLoop, stopped, bind, Except.bind]⟩

theorem writeDefaults_in_session (W : World) (first : FuseLocation × Byte) (more : List (FuseLocation × Byte))
    (h : s.session = true) : ∃ left, writeDefaults W (first :: more) s = .error (.sessionActive left) := by
  obtain ⟨left, stopped⟩ := writeLocation_in_session W W.params.cmdWriteFuse first.1 first.2 h
  exact ⟨left, by simp only [writeDefaults, stopped, bind, Except.bind]⟩

/-! ### Completing without a session -/

/-- `ENG.STATE` and `SEL` fit together, and `SEL` is of the registry (R26). -/
structure SelectionSound (s : State) : Prop where
  known : s.engState = .deviceKnown ↔ s.sel.isSome = true
  entry : ∀ d, s.sel = some d → d ∈ Config.params.registry
  notIdle : s.engState ≠ .idle

/-- What an engine operation that completes leaves, whichever it is (R119). -/
structure EngineDone (s t : State) : Prop where
  rested : Rested t
  monitor : s.tmRun = false → t.tmRun = false
  attempts : t.att ≤ 4 ∨ t.att = s.att
  selection : (t.engState = s.engState ∧ t.sel = s.sel) ∨ SelectionSound t

theorem Passed.staysStopped {added : List Event} (passed : Passed s t added) (stopped : s.tmRun = false) :
    t.tmRun = false := (passed.quiet stopped).2.2

theorem Tried.engineDone {g : GuardResult} (tried : Tried s t g) (most : t.att ≤ 4) : EngineDone s t :=
  ⟨tried.rested, fun _ => tried.stopped, .inl most, .inl ⟨tried.kept.engState, tried.kept.sel⟩⟩

theorem ReadBack.engineDone {added : List Event} (read : ReadBack W.params loc s t added) : EngineDone s t :=
  ⟨read.rested, fun quiet => read.passed.staysStopped quiet, .inr read.kept.att,
    .inl ⟨read.kept.engState, read.kept.sel⟩⟩

theorem Identified.selectionSound {b0 b1 b2 : Byte} {added : List Event}
    (found : Identified Config.world s t b0 b1 b2 added) : SelectionSound t := by
  have state := found.engState
  refine ⟨?_, fun d h => mem_of_lookup_eq_some (found.sel.symm.trans h), ?_⟩ <;>
    cases selected : t.sel <;> simp [state, selected]

theorem Identified.engineDone {b0 b1 b2 : Byte} {added : List Event}
    (found : Identified Config.world s t b0 b1 b2 added) : EngineDone s t :=
  ⟨found.rested, fun quiet => found.passed.staysStopped quiet, .inr found.kept.att, .inr found.selectionSound⟩

theorem WritePolicy.length_le {attempts : List Attempt} (h : WritePolicy value attempts) : attempts.length ≤ 4 := by
  obtain ⟨_, _, -, most, -⟩ := h
  exact most

/-- A write from `ATT = 0` counts its attempts in `ATT` (R20, R112). -/
theorem Wrote.att_eq {p : Config.Params} {before : List Attempt} {last : Attempt} {added : List Event}
    (wrote : Wrote p cmd loc value { s with att := 0 } t before last added) : t.att = (before ++ [last]).length := by
  simpa using wrote.att

/-! ### The engine's programs as a whole -/

/-- A program as the engine's are: it completes without a session, and in one it stops at the opening of its own (R70, R119). -/
structure EngineProgram (program : Program) : Prop where
  completes : ∀ u : State, u.session = false → ∃ r t, program u = .ok (r, t) ∧ EngineDone u t
  stops : ∀ u : State, u.session = true → ∃ left, program u = .error (.sessionActive left)

theorem engineProgram_identify : EngineProgram (identify Config.world) where
  completes u free := by
    obtain ⟨t, _, _, _, _, ran, found⟩ := identify_spec Config.world free
    exact ⟨_, t, ran, found.engineDone⟩
  stops u active := ⟨u, identify_in_session _ active⟩

theorem engineProgram_read (loc : FuseLocation) : EngineProgram (readProgram loc) where
  completes u free := by
    obtain ⟨t, _, ran, read⟩ := readRaw_spec Config.world loc free
    exact ⟨.byte t.rx, t, by simp only [readProgram, ran]; rfl, read.engineDone⟩
  stops u active := ⟨u, by simp only [readProgram, readRaw_in_session _ loc active]; rfl⟩

theorem engineProgram_write (cmd : Byte) (loc : FuseLocation) (value : Byte) :
    EngineProgram (writeProgram cmd loc value) where
  completes u free := by
    obtain ⟨t, _, _, _, ran, wrote, policy⟩ := writeLocation_spec Config.world cmd loc value free
    exact ⟨.byte t.rb, t, by simp only [writeProgram, ran]; rfl,
      wrote.tried.ofCount.engineDone (wrote.att_eq ▸ policy.length_le)⟩
  stops u active := by
    obtain ⟨left, stopped⟩ := writeLocation_in_session Config.world cmd loc value active
    exact ⟨left, by simp only [writeProgram, stopped]; rfl⟩

theorem engineProgram_defaults (set : Config.FuseSet) : EngineProgram (defaultsProgram set) where
  completes u free := by
    obtain ⟨st, t, _, _, _, ran, -, -, tried, -, -, -, most⟩ :=
      writeDefaults_spec Config.world (defaultWrites set) (List.cons_ne_nil _ _) free
    exact ⟨.defaults st, t, by simp only [defaultsProgram, ran]; rfl, tried.engineDone most⟩
  stops u active := by
    obtain ⟨left, stopped⟩ := writeDefaults_in_session Config.world (.low, set.low)
      [(.high, set.high), (.extended, set.extended)] active
    exact ⟨left, by simp only [defaultsProgram, defaultWrites, stopped]; rfl⟩

theorem engineProgram_erase : EngineProgram eraseProgram where
  completes u free := by
    obtain ⟨g, t, _, _, _, ran, -, erased⟩ := eraseLoop_spec Config.world 3 .timedOut (s := { u with att := 0 }) free rfl
    exact ⟨.guard g, t, by simp only [eraseProgram, Config.attemptMax, ran]; rfl,
      erased.tried.ofCount.engineDone erased.most⟩
  stops u active := by
    have stopped := eraseAttempt_in_session Config.world (s := { u with att := 0 + 1 }) active
    exact ⟨_, by simp only [eraseProgram, Config.attemptMax, eraseLoop, stopped]; rfl⟩

/-- Every engine operation is refused or performs an engine program (R105, R106). -/
theorem engineOperation_answers (op : engineOperation i = true) (s : State) : Answers EngineProgram i s (exec i s) := by
  cases i with
  | identify => exact .performed _ rfl engineProgram_identify
  | readFuse loc => exact .gated (engineProgram_read loc)
  | writeFuse loc value =>
    cases loc with
    | lock => exact .refused _ (exec_writeFuse_lock value s)
    | low => exact .gated (engineProgram_write _ .low value)
    | high => exact .gated (engineProgram_write _ .high value)
    | extended => exact .gated (engineProgram_write _ .extended value)
  | writeLock value => exact .gated (engineProgram_write _ .lock value)
  | writeFuseDefaults b =>
    cases selected : s.sel with
    | none => exact .refused _ (exec_writeFuseDefaults_of_none b selected)
    | some d => exact exec_writeFuseDefaults_of_selected b selected ▸ .gated (engineProgram_defaults (defaultSet d b))
  | eraseDevice => exact .gated engineProgram_erase
  | _ => cases op

/-- An engine operation without a session is refused, or completes (R119, R124). -/
theorem engineOperation_completes (op : engineOperation i = true) (free : s.session = false) :
    (∃ e, exec i s = .next (s.refuse e)) ∨ ∃ r t, exec i s = .next (State.finish r t) ∧ EngineDone s t := by
  rcases engineOperation_answers op s with ⟨e, answer⟩ | ⟨program, answer, law⟩
  · exact .inl ⟨e, answer⟩
  · obtain ⟨r, t, ran, rested, monitor, attempts, selection⟩ := law.completes (s.begin i) free
    exact .inr ⟨r, t, answer.trans (perform_ok ran), rested, monitor, attempts, selection⟩

/-- An engine operation in a session is refused, or faults as it opens its own (R70, R145). -/
theorem engineOperation_in_session (op : engineOperation i = true) (active : s.session = true) :
    (∃ e, exec i s = .next (s.refuse e)) ∨ ∃ left, exec i s = .fault (.sessionActive left) := by
  rcases engineOperation_answers op s with ⟨e, answer⟩ | ⟨program, answer, law⟩
  · exact .inl ⟨e, answer⟩
  · obtain ⟨left, stopped⟩ := law.stops (s.begin i) active
    exact .inr ⟨left, answer.trans (perform_error stopped)⟩

/-- The next state of an engine operation is that of a refusal, or what a completed one leaves. -/
theorem engineOperation_eq_next (op : engineOperation i = true) (h : exec i s = .next t) :
    (∃ e, t = s.refuse e) ∨ ∃ r u, t = State.finish r u ∧ EngineDone s u := by
  cases session : s.session with
  | false =>
    rcases engineOperation_completes op session with ⟨e, answer⟩ | ⟨r, u, answer, ended⟩
    · exact .inl ⟨e, Host.Outcome.next.inj (h.symm.trans answer)⟩
    · exact .inr ⟨r, u, Host.Outcome.next.inj (h.symm.trans answer), ended⟩
  | true =>
    rcases engineOperation_in_session op session with ⟨e, answer⟩ | ⟨left, answer⟩
    · exact .inl ⟨e, Host.Outcome.next.inj (h.symm.trans answer)⟩
    · cases h.symm.trans answer

/-! ### Commit pulses -/

theorem commitPulses_append (a b : List Event) : commitPulses (a ++ b) = commitPulses a + commitPulses b :=
  List.count_append

/-- The countdown's events are no pulses. -/
theorem commitPulses_sequencerEvents (evs : List Event) : commitPulses (sequencerEvents evs) = commitPulses evs :=
  List.count_filter (by decide)

theorem QuiesceEvents.commitPulses {evs : List Event} (h : QuiesceEvents evs) : commitPulses evs = 0 := by
  obtain ⟨power, released, rfl, perm, perm'⟩ := h
  rw [commitPulses_append, Machine.commitPulses, Machine.commitPulses, perm.count_eq, perm'.count_eq]
  decide

theorem EnterEvents.commitPulses {evs : List Event} (h : EnterEvents evs) : commitPulses evs = 0 := by
  obtain ⟨armed, perm, rfl⟩ := h
  rw [commitPulses_append, Machine.commitPulses, perm.count_eq]
  decide

theorem TransmitEvents.commitPulses {x : Byte} {evs : List Event} (h : TransmitEvents x evs) : commitPulses evs = 0 := by
  obtain ⟨data, perm, rfl⟩ := h
  have none : Event.set (.protocol .wr) true ∉ data := fun pulse => by simpa using perm.mem_iff.mp pulse
  rw [commitPulses_append, Machine.commitPulses, List.count_eq_zero.mpr none]
  decide

theorem FrameEvents.commitPulses {m1 m0 b1 : Level} {x : Byte} {evs : List Event} (h : FrameEvents m1 m0 b1 x evs) :
    commitPulses evs = 0 := by
  obtain ⟨tuple, byte, rfl, transmit, perm⟩ := h
  rw [commitPulses_append, transmit.commitPulses, Machine.commitPulses, perm.count_eq]
  simp

theorem ReceiveEvents.commitPulses {x : Byte} {evs : List Event} (h : ReceiveEvents x evs) : commitPulses evs = 0 := by
  rw [ReceiveEvents] at h
  simp [h, Machine.commitPulses, sampleEvents]

theorem GuardEvents.commitPulses {polls : List Level} {evs : List Event} (h : GuardEvents polls evs) :
    commitPulses evs = 1 := by
  have none : Event.set (.protocol .wr) true ∉ polls.map (Event.smp .rdy) := by simp
  rw [h, commitPulses_append, commitPulses_append, Machine.commitPulses, Machine.commitPulses,
    List.count_eq_zero.mpr none]
  decide

theorem commitPulses_pairEvents (p1 p0 : Level) : commitPulses (pairEvents p1 p0) = 0 := by
  cases p1 <;> cases p0 <;> decide

theorem commitPulses_writeSelectEvents (loc : FuseLocation) : commitPulses (writeSelectEvents loc) = 0 := by
  cases loc <;> decide

theorem ReadRawEvents.commitPulses {p : Config.Params} {x : Byte} {evs : List Event} (h : ReadRawEvents p loc x evs) :
    commitPulses evs = 0 := by
  obtain ⟨enter, command, receive, exit, hEnter, hCommand, hReceive, hExit, rfl⟩ := h
  simp only [commitPulses_append, hEnter.commitPulses, hCommand.commitPulses, hReceive.commitPulses, hExit.commitPulses,
    commitPulses_pairEvents]

/-- An attempt of a write has one pulse, its guard's (R93, R112). -/
theorem WriteAttemptEvents.commitPulses {p : Config.Params} {polls : List Level} {x : Byte} {evs : List Event}
    (h : WriteAttemptEvents p cmd loc value polls x evs) : commitPulses evs = 1 := by
  obtain ⟨enter, command, data, guard, exit, back, hEnter, hCommand, hData, hGuard, hExit, hBack, rfl⟩ := h
  have wait : Machine.commitPulses [.dly .preWrite] = 0 := by decide
  simp only [commitPulses_append, wait, hEnter.commitPulses, hCommand.commitPulses, hData.commitPulses, hGuard.commitPulses,
    hExit.commitPulses, hBack.commitPulses, commitPulses_pairEvents, commitPulses_writeSelectEvents]

/-- An attempt of an erase has one pulse, its guard's (R93, R116). -/
theorem EraseAttemptEvents.commitPulses {p : Config.Params} {polls : List Level} {evs : List Event}
    (h : EraseAttemptEvents p polls evs) : commitPulses evs = 1 := by
  obtain ⟨enter, command, guard, exit, hEnter, hCommand, hGuard, hExit, rfl⟩ := h
  simp only [commitPulses_append, hEnter.commitPulses, hCommand.commitPulses, hGuard.commitPulses, hExit.commitPulses]

theorem WriteAttemptsEvents.commitPulses {p : Config.Params} {attempts : List Attempt} {added : List Event}
    (h : WriteAttemptsEvents p cmd loc value attempts added) : commitPulses added = attempts.length := by
  induction h with
  | nil => rfl
  | cons a rest added more one _ _ _ ih =>
    rw [commitPulses_append, ih, ← commitPulses_sequencerEvents, one.commitPulses, List.length_cons, Nat.add_comm]

theorem EraseAttemptsEvents.commitPulses {p : Config.Params} {attempts : List Attempt} {added : List Event}
    (h : EraseAttemptsEvents p attempts added) : commitPulses added = attempts.length := by
  induction h with
  | nil => rfl
  | cons a rest added more one _ _ _ ih =>
    rw [commitPulses_append, ih, ← commitPulses_sequencerEvents, one.commitPulses, List.length_cons, Nat.add_comm]

/-- What the statement on commit pulses asks of an instruction from `s`. -/
def PulsesCounted (i : Instr) (s : State) : Prop :=
  ∃ t added, exec i s = .next t ∧ t.tr = s.tr ++ added ∧ commitPulses added = t.att ∧ 1 ≤ t.att ∧ t.att ≤ 4

theorem singleWrite_pulsesCounted (write : singleWrite i = some (cmd, loc, value)) (known : s.engState = .deviceKnown)
    (free : s.session = false) : PulsesCounted i s := by
  obtain ⟨t, before, last, added, ran, wrote, policy⟩ :=
    writeLocation_spec Config.world cmd loc value (s := s.begin i) free
  have count := wrote.att_eq
  have ran' : writeProgram cmd loc value (s.begin i) = .ok (.byte t.rb, t) := by simp only [writeProgram, ran]; rfl
  refine ⟨t.finish (.byte t.rb), added, ?_, wrote.trace, wrote.events.commitPulses.trans count.symm, ?_, ?_⟩
  · rw [exec_singleWrite write, gated_of_known known, perform_ok ran']
  · simp [count]
  · exact count ▸ policy.length_le

theorem eraseDevice_pulsesCounted (known : s.engState = .deviceKnown) (free : s.session = false) :
    PulsesCounted .eraseDevice s := by
  obtain ⟨g, t, before, last, added, ran, -, erased⟩ :=
    eraseLoop_spec Config.world 3 .timedOut (s := { s.begin .eraseDevice with att := 0 }) free rfl
  have count : t.att = (before ++ [last]).length := by simpa using erased.att
  have ran' : eraseProgram (s.begin .eraseDevice) = .ok (.guard g, t) := by
    simp only [eraseProgram, Config.attemptMax, ran]; rfl
  refine ⟨t.finish (.guard g), added, ?_, erased.trace, erased.events.commitPulses.trans count.symm, ?_, erased.most⟩
  · rw [exec_eraseDevice, gated_of_known known, perform_ok ran']
  · simp [count]

end Sys2Proof.Machine

namespace Sys2Proof

open Machine

/-- Settles O47: each attempt pulses the strobe once, in its guard, and `ATT` counts the attempts, of which there are one to
four. -/
theorem atMostFourCommitPulses : Obligations.AtMostFourCommitPulses := by
  rintro i s (⟨⟨cmd, loc, value⟩, write⟩ | rfl) known free
  · exact singleWrite_pulsesCounted write known free
  · exact eraseDevice_pulsesCounted known free

end Sys2Proof
end

section
/-! PROOFS. The invariant of the state between operations (R15, R20, R26, R27, R32, R81), and the rest of a host that issues the
engine's operations and `QUIESCE` alone (R33, R119). -/

namespace Sys2Proof.Machine

variable {W : World} {R : List Register} {i : Instr} {ms : List MicroStep} {s t u : State}

/-! ### What every act keeps -/

/-- A protocol line has a level exactly while it is an output (R15). -/
def LatchesAgree (s : State) : Prop := ∀ l, s.dirOf l = .output ↔ (s.lvlOf (.protocol l)).isSome = true

theorem Act.latchesAgree (h : Act W R s t) (agree : LatchesAgree s) : LatchesAgree t := by
  intro k
  have before := agree k
  cases h with
  | drv l v => by_cases same : l = k <;> simp [State.drive_dirOf, State.drive_lvlOf, same, before]
  | rel l => by_cases same : l = k <;> simp [State.release_dirOf, State.release_lvlOf, same, before]
  | set l v _ allowed =>
    by_cases same : l = .protocol k
    · subst same
      have output : s.dirOf k = .output := by simpa [State.canSet] using allowed
      simp [State.level_lvlOf, output]
    · simpa [State.level_lvlOf, same] using before
  | _ => exact before

/-- A countdown that runs has not fired (R90, R94). -/
def UnfiredWhileRunning (s : State) : Prop := ¬(s.tmRun = true ∧ s.tmFlag = true)

theorem countdown_unfiredWhileRunning (unfired : UnfiredWhileRunning s) : UnfiredWhileRunning s.countdown := by
  by_cases fires : s.fires = true
  · simp [UnfiredWhileRunning, fires]
  · simpa [UnfiredWhileRunning, fires] using unfired

theorem Act.unfiredWhileRunning (h : Act W R s t) (unfired : UnfiredWhileRunning s) : UnfiredWhileRunning t := by
  cases h with
  | point => exact countdown_unfiredWhileRunning unfired
  | arm | disarm => simp [UnfiredWhileRunning]
  | _ => exact unfired

/-! ### The levels at rest -/

/-- The levels between operations: the strobes inactive and the clock low where they are driven, and the supplies and the
session's outputs as `SESSION` says (R32, R81). -/
structure LevelsRest (session : Bool) (lvl : Line → Latch) : Prop where
  wr : lvl (.protocol .wr) ≠ some false
  oe : lvl (.protocol .oe) ≠ some false
  clk : lvl (.protocol .clk) ≠ some true
  power : if session then
      (∀ l ∈ sessionOutputs, (lvl (.protocol l)).isSome = true) ∧ lvl .vccEn = some true ∧ lvl .vppEn = some true
    else lvl .vccEn ≠ some true ∧ lvl .vppEn ≠ some true

theorem Rested.finish (rested : Rested t) (r : OpResult) : Rested (t.finish r) :=
  ⟨rested.dir, rested.lvl, rested.vcc, rested.vpp, rested.session⟩

theorem Rested.levelsRest (rested : Rested t) : LevelsRest t.session t.lvlOf where
  wr := by simp [rested.lvl]
  oe := by simp [rested.lvl]
  clk := by simp [rested.lvl]
  power := by simp [rested.session, rested.vcc, rested.vpp]

/-- From the levels `f` to `g` a strobe is as it was or inactive, the clock as it was or low, the supplies as they were, and
no output of a session has lost its level. -/
structure Settles (f g : Line → Latch) : Prop where
  wr : g (.protocol .wr) = f (.protocol .wr) ∨ g (.protocol .wr) = some true
  oe : g (.protocol .oe) = f (.protocol .oe) ∨ g (.protocol .oe) = some true
  clk : g (.protocol .clk) = f (.protocol .clk) ∨ g (.protocol .clk) = some false
  vcc : g .vccEn = f .vccEn
  vpp : g .vppEn = f .vppEn
  outputs : ∀ l ∈ sessionOutputs, (f (.protocol l)).isSome = true → (g (.protocol l)).isSome = true

theorem Settles.levelsRest {session : Bool} {f g : Line → Latch} (settles : Settles f g) (rest : LevelsRest session f) :
    LevelsRest session g := by
  have kept : ∀ {v w : Latch} {b : Level}, v = w ∨ v = some (!b) → w ≠ some b → v ≠ some b := by
    rintro v w b (rfl | rfl) ne
    · exact ne
    · simp
  obtain ⟨wr, oe, clk, power⟩ := rest
  refine ⟨kept settles.wr wr, kept settles.oe oe, kept settles.clk clk, ?_⟩
  rw [settles.vcc, settles.vpp]
  cases session with
  | false => exact power
  | true =>
    obtain ⟨outputs, supplies⟩ := power
    exact ⟨fun l hl => settles.outputs l hl (outputs l hl), supplies⟩

theorem Settles.refl (f : Line → Latch) : Settles f f := ⟨.inl rfl, .inl rfl, .inl rfl, rfl, rfl, fun _ _ => id⟩

/-- A line that no micro-step releases keeps having a level. -/
theorem lvlsAfter_isSome {f : Line → Latch} {l : PLine} (held : .rel l ∉ ms) (h : (f (.protocol l)).isSome = true) :
    (lvlsAfter ms f (.protocol l)).isSome = true := by
  induction ms generalizing f with
  | nil => exact h
  | cons m ms ih =>
    obtain ⟨other, held⟩ := List.ne_and_not_mem_of_not_mem_cons held
    refine ih held ?_
    cases m with
    | drv k v => by_cases same : k = l <;> simp [MicroStep.lvlAfter, same, h]
    | set k v => by_cases same : k = .protocol l <;> simp [MicroStep.lvlAfter, same, h]
    | rel k =>
      have ne : ¬k = l := fun same => other (same ▸ rfl)
      simpa [MicroStep.lvlAfter, ne] using h
    | _ => exact h

/-- The straight lines of the framer release nothing. -/
theorem LineProgram.holds (h : LineProgram ms) (l : PLine) : .rel l ∉ ms := by
  cases h with
  | arm => simp [armSteps]
  | frame m1 m0 b1 x => simp [frameSteps, tupleSel, transmitSteps]
  | transmit x => simp [transmitSteps]
  | select p1 p0 => simp [bselSetSteps]
  | bs1High => simp [bs1HighSteps]

/-- The straight lines of the framer end with the strobes inactive and the clock low (R66, R75). -/
theorem LineProgram.settles (h : LineProgram ms) (f : Line → Latch) : Settles f (lvlsAfter ms f) := by
  have outputs : ∀ l ∈ sessionOutputs, (f (.protocol l)).isSome = true → (lvlsAfter ms f (.protocol l)).isSome = true :=
    fun l _ => lvlsAfter_isSome (h.holds l)
  cases h with
  | arm => exact ⟨.inr rfl, .inr rfl, .inr rfl, rfl, rfl, outputs⟩
  | frame | transmit => exact ⟨.inl rfl, .inl rfl, .inr rfl, rfl, rfl, outputs⟩
  | select | bs1High => exact ⟨.inl rfl, .inl rfl, .inl rfl, rfl, rfl, outputs⟩

theorem Entered.levelsRest {added : List Event} (entered : Entered s t added) : LevelsRest t.session t.lvlOf := by
  rw [entered.kept.session, entered.lvl]
  refine ⟨nofun, nofun, nofun, fun l hl => ?_, rfl, rfl⟩
  simp only [sessionOutputs, List.mem_cons, List.not_mem_nil, or_false] at hl
  rcases hl with rfl | rfl | rfl | rfl | rfl | rfl | rfl <;> rfl

theorem sessionOutputs_not_data : ∀ l ∈ sessionOutputs, l ∉ dataLines := by decide

theorem Received.settles {added : List Event} (received : Received s t added) : Settles s.lvlOf t.lvlOf := by
  have lvl := received.lvl
  refine ⟨.inl ?_, .inr ?_, .inl ?_, ?_, ?_, fun l hl some => ?_⟩
  · simp [lvl, dataLines]
  · simp [lvl]
  · simp [lvl, dataLines]
  · simp [lvl]
  · simp [lvl]
  · have control := sessionOutputs_not_data l hl
    by_cases oe : l = .oe <;> simp [lvl, oe, control, some]

theorem Guarded.settles {ready : Level} {g : GuardResult} {polls : List Level} {early late : List Event}
    (guarded : Guarded ready s t g polls early late) : Settles s.lvlOf t.lvlOf := by
  have lvl := guarded.lvl
  refine ⟨.inr ?_, .inl ?_, .inl ?_, ?_, ?_, fun l hl some => ?_⟩
  · simp [lvl]
  · simp [lvl]
  · simp [lvl]
  · simp [lvl]
  · simp [lvl]
  · by_cases wr : l = .wr <;> simp [lvl, wr, some]

/-! ### What a completed program has ended -/

theorem bind_eq_ok {α β : Type} {x : Except Fault α} {k : α → Except Fault β} {b : β} (h : (x >>= k) = .ok b) :
    ∃ a, x = .ok a ∧ k a = .ok b := by
  cases x with
  | ok a => exact ⟨a, rfl, h⟩
  | error f => cases h

theorem perform_returning_eq_next {r : OpResult} {program : State → Except Fault State}
    (h : perform i (returning r program) s = .next t) : ∃ u, program (s.begin i) = .ok u ∧ t = u.finish r := by
  obtain ⟨r', u, ran, rfl⟩ := perform_eq_next h
  obtain ⟨v, ran', same⟩ := bind_eq_ok ran
  cases same
  exact ⟨_, ran', rfl⟩

theorem microStep_allowed {m : MicroStep} (h : microStep W m s = .ok t) : m.allowed s.dirOf := by
  unfold microStep at h
  cases m with
  | set l v =>
    cases l with
    | protocol k =>
      by_cases output : s.dirOf k = .output
      · exact output
      · simp [State.canSet, output] at h
    | _ => trivial
  | _ => trivial

theorem quiesceLines_eq_ok (h : quiesceLines W s = .ok t) : ∃ added, Quieted s t added := by
  obtain ⟨u, added, ran, quieted⟩ := quiesceLines_spec W s
  cases h.symm.trans ran
  exact ⟨added, quieted⟩

theorem enterProg_eq_ok (h : enterProg W s = .ok t) : ∃ added, Entered s t added := by
  cases session : s.session with
  | false =>
    obtain ⟨u, added, ran, entered⟩ := enterProg_spec W session
    cases h.symm.trans ran
    exact ⟨added, entered⟩
  | true => cases h.symm.trans (enterProg_in_session W session)

theorem receiveByte_eq_ok (h : receiveByte W s = .ok t) : ∃ added, Received s t added := by
  obtain ⟨_, lowered, -⟩ := bind_eq_ok h
  obtain ⟨u, added, ran, received⟩ := receiveByte_spec W (microStep_allowed lowered)
  cases h.symm.trans ran
  exact ⟨added, received⟩

theorem wrGuard_eq_ok {g : GuardResult} (h : wrGuard W s = .ok (g, t)) :
    ∃ ready polls early late, Guarded ready s t g polls early late := by
  obtain ⟨u, committed, polled⟩ := bind_eq_ok h
  obtain ⟨a, armed, pulsed⟩ := bind_eq_ok committed
  cases armed
  obtain ⟨b, lowered, -⟩ := bind_eq_ok pulsed
  have wr : s.dirOf .wr = .output := microStep_allowed lowered
  have dir : u.dirOf = s.dirOf := (runSteps_ran (by decide) pulsed).dir
  have rdy : s.dirOf .rdy = .input := by
    by_contra other
    simp [dir, other, throw, throwThe, MonadExceptOf.throw] at polled
  obtain ⟨_, v, polls, early, late, ran, guarded⟩ := wrGuard_spec W wr rdy
  cases h.symm.trans ran
  exact ⟨_, polls, early, late, guarded⟩

/-! ### The levels after an instruction -/

/-- Every instruction that answers a next state leaves the levels at rest (R32, R66, R70, R75, R76, R81, R93, R119). -/
theorem exec_levelsRest (rest : LevelsRest s.session s.lvlOf) (h : exec i s = .next t) : LevelsRest t.session t.lvlOf := by
  have unopened : .session ∉ writtenRegisters i → Settles s.lvlOf t.lvlOf → LevelsRest t.session t.lvlOf :=
    fun out settles => by
      have session : t.session = s.session := (exec_registers h).1 .session out
      exact session ▸ settles.levelsRest rest
  cases straight : lineSteps i with
  | some ms =>
    have program := lineSteps_lineProgram straight
    obtain ⟨u, ran, rfl⟩ := perform_returning_eq_next ((exec_of_lineSteps straight s).symm.trans h)
    have ended := runSteps_ran program.plain ran
    have settles : Settles s.lvlOf u.lvlOf := ended.lvl ▸ program.settles s.lvlOf
    have session : u.session = s.session := ended.kept.session
    exact session ▸ settles.levelsRest rest
  | none =>
    cases i with
    | quiesce | exitProg =>
      obtain ⟨u, ran, rfl⟩ := perform_returning_eq_next (program := quiesceLines Config.world) h
      obtain ⟨_, quieted⟩ := quiesceLines_eq_ok ran
      exact (quieted.rested.finish _).levelsRest
    | enterProg =>
      obtain ⟨u, ran, rfl⟩ := perform_returning_eq_next h
      obtain ⟨_, entered⟩ := enterProg_eq_ok ran
      exact entered.levelsRest
    | receiveByte =>
      obtain ⟨r, u, ran, rfl⟩ := perform_eq_next ((exec_receiveByte s).symm.trans h)
      obtain ⟨v, ran', same⟩ := bind_eq_ok ran
      cases same
      obtain ⟨_, received⟩ := receiveByte_eq_ok ran'
      exact unopened (by decide) received.settles
    | wrGuard =>
      obtain ⟨r, u, ran, rfl⟩ := perform_eq_next ((exec_wrGuard s).symm.trans h)
      obtain ⟨⟨g, v⟩, ran', same⟩ := bind_eq_ok ran
      cases same
      obtain ⟨_, _, _, _, guarded⟩ := wrGuard_eq_ok ran'
      exact unopened (by decide) guarded.settles
    | tmArm n =>
      obtain ⟨u, ran, rfl⟩ := perform_returning_eq_next ((exec_tmArm n s).symm.trans h)
      cases ran
      exact rest
    | tmDisarm =>
      obtain ⟨u, ran, rfl⟩ := perform_returning_eq_next ((exec_tmDisarm s).symm.trans h)
      cases ran
      exact rest
    | tmTimedOut =>
      obtain ⟨r, u, ran, rfl⟩ := perform_eq_next ((exec_tmTimedOut s).symm.trans h)
      cases ran
      exact rest
    | identify | readFuse | writeFuse | writeLock | writeFuseDefaults | eraseDevice =>
      rcases engineOperation_eq_next rfl h with ⟨e, rfl⟩ | ⟨r, u, rfl, ended⟩
      · exact rest
      · exact (ended.rested.finish r).levelsRest
    | _ => cases straight

/-! ### The invariant of the state between operations -/

theorem Coherent.host (side : HostSide s t) (h : Coherent s) : Coherent t := by
  obtain ⟨_, _, _, rfl⟩ := side
  exact ⟨h.idle, h.latches, h.strobes, h.power, h.attempts, h.monitor, h.known, h.entry, h.notIdle⟩

theorem Coherent.countdown (h : Coherent s) : Coherent s.countdown :=
  ⟨h.idle, h.latches, h.strobes, h.power, h.attempts, countdown_unfiredWhileRunning h.monitor, h.known, h.entry, h.notIdle⟩

theorem LatchesAgree.drives_iff (agree : LatchesAgree s) (l : PLine) (v : Level) :
    s.drives l v ↔ s.lvlOf (.protocol l) = some v := by
  refine ⟨fun h => h.2, fun h => ⟨(agree l).mpr ?_, h⟩⟩
  simp [h]

/-- Where latches and directions agree, the levels alone say that the strobes and the power are as a coherent state has them. -/
theorem Coherent.levelsRest (h : Coherent s) : LevelsRest s.session s.lvlOf := by
  obtain ⟨wr, oe, clk⟩ := h.strobes
  have drives := LatchesAgree.drives_iff h.latches
  have power := h.power
  refine ⟨fun low => ?_, fun low => ?_, fun high => ?_, ?_⟩
  · exact Bool.false_ne_true (wr _ ((drives _ _).mpr low))
  · exact Bool.false_ne_true (oe _ ((drives _ _).mpr low))
  · exact Bool.false_ne_true (clk _ ((drives _ _).mpr high)).symm
  · simpa only [h.latches _] using power

theorem LevelsRest.strobes (rest : LevelsRest s.session s.lvlOf) :
    (∀ v, s.drives .wr v → v = true) ∧ (∀ v, s.drives .oe v → v = true) ∧ (∀ v, s.drives .clk v → v = false) := by
  refine ⟨fun v h => ?_, fun v h => ?_, fun v h => ?_⟩
  · exact eq_true_of_ne_false fun low => rest.wr (low ▸ h.2)
  · exact eq_true_of_ne_false fun low => rest.oe (low ▸ h.2)
  · exact eq_false_of_ne_true fun high => rest.clk (high ▸ h.2)

theorem exec_idle (idle : s.seq = none) (h : exec i s = .next t) : t.seq = none := by
  rcases exec_eq_next h with ⟨e, rfl⟩ | ⟨r, u, -, rfl⟩
  · exact idle
  · rfl

/-- What every act keeps, every instruction keeps, where the beginning, the end and a refusal do not touch it. -/
theorem exec_keeps {P : State → Prop} (act : ∀ {s t}, Act Config.world (writtenRegisters i) s t → P s → P t)
    (begins : P (s.begin i)) (finishes : ∀ u r, P u → P (u.finish r)) (refuses : ∀ e, P (s.refuse e))
    (h : exec i s = .next t) : P t := by
  rcases exec_eq_next h with ⟨e, rfl⟩ | ⟨r, u, run, rfl⟩
  · exact refuses e
  · exact finishes u r (run.keeps act begins)

/-- An instruction that is no engine operation counts no attempts and selects no device. -/
theorem framer_registers (h : engineOperation i = false) :
    .att ∉ writtenRegisters i ∧ .engine ∉ writtenRegisters i := by
  cases i <;> cases h <;> simp [writtenRegisters]

theorem Coherent.selectionSound (h : Coherent s) : SelectionSound s := ⟨h.known, h.entry, h.notIdle⟩

theorem SelectionSound.of_eq (h : SelectionSound s) (state : t.engState = s.engState) (sel : t.sel = s.sel) :
    SelectionSound t :=
  ⟨by rw [state, sel]; exact h.known, by rw [sel]; exact h.entry, by rw [state]; exact h.notIdle⟩

/-- Every instruction keeps the count of attempts within four and the selection sound (R20, R26). -/
theorem exec_attempts_selection (most : s.att ≤ 4) (sound : SelectionSound s) (h : exec i s = .next t) :
    t.att ≤ 4 ∧ SelectionSound t := by
  cases op : engineOperation i with
  | false =>
    obtain ⟨att, engine⟩ := framer_registers op
    have kept := (exec_registers h).1
    have sameAtt : t.att = s.att := kept .att att
    obtain ⟨state, sel⟩ : t.engState = s.engState ∧ t.sel = s.sel := kept .engine engine
    exact ⟨sameAtt ▸ most, sound.of_eq state sel⟩
  | true =>
    rcases engineOperation_eq_next op h with ⟨e, rfl⟩ | ⟨r, u, rfl, ended⟩
    · exact ⟨most, sound.of_eq rfl rfl⟩
    · constructor
      · rcases ended.attempts with few | same
        · exact few
        · exact same.trans_le most
      · rcases ended.selection with ⟨state, sel⟩ | found
        · exact sound.of_eq state sel
        · exact found.of_eq rfl rfl

theorem Coherent.exec (h : Coherent s) (ran : exec i s = .next t) : Coherent t := by
  have latches : LatchesAgree t :=
    exec_keeps Act.latchesAgree h.latches (fun _ _ => id) (fun _ => h.latches) ran
  have rest := exec_levelsRest h.levelsRest ran
  obtain ⟨attempts, known, entry, notIdle⟩ := exec_attempts_selection h.attempts h.selectionSound ran
  have monitor : UnfiredWhileRunning t :=
    exec_keeps Act.unfiredWhileRunning h.monitor (fun _ _ => id) (fun _ => h.monitor) ran
  refine ⟨exec_idle h.idle ran, latches, rest.strobes, ?_, attempts, monitor, known, entry, notIdle⟩
  have power := rest.power
  simpa only [latches _] using power

/-! ### A host of engine operations -/

theorem EngineHost.tail {w : CodeWord} {rest : List CodeWord} (h : EngineHost (w :: rest)) : EngineHost rest :=
  fun x hx => h x (List.mem_cons_of_mem w hx)

/-- A next state that rests, after an instruction that leaves the host's side alone. -/
theorem Restful.of_exec (started : s.startup = .ended) (host : EngineHost s.issue) (h : exec i s = .next t)
    (idle : t.seq = none) (rested : Rested t) (stopped : t.tmRun = false) : Restful t := by
  obtain ⟨-, -, startup, issue⟩ := exec_registers h
  exact ⟨idle, startup.trans started, issue ▸ host, rested.quiesced, rested.session, stopped⟩

theorem Restful.refuse (h : Restful s) (e : RefusalReason) : Restful (s.refuse e) :=
  ⟨h.idle, h.started, h.host, h.quiesced, h.session, h.monitor⟩

theorem Restful.taken {w : CodeWord} {rest : List CodeWord} (h : Restful s) (issued : s.issue = w :: rest) :
    Restful { s with issue := rest } :=
  ⟨h.idle, h.started, (issued ▸ h.host : EngineHost (w :: rest)).tail, h.quiesced, h.session, h.monitor⟩

/-- An engine operation from rest completes or is refused, and ends at rest (R33, R119). -/
theorem Restful.engineOperation (h : Restful s) (op : Machine.engineOperation i = true) :
    ∃ t, Machine.exec i s = .next t ∧ Restful t := by
  rcases engineOperation_completes op h.session with ⟨e, answer⟩ | ⟨r, u, answer, ended⟩
  · exact ⟨_, answer, h.refuse e⟩
  · exact ⟨_, answer, .of_exec h.started h.host answer rfl
      (ended.rested.finish r) (ended.monitor h.monitor)⟩

/-- `QUIESCE` from rest ends at rest (R33, R65). -/
theorem Restful.quiesce (h : Restful s) : ∃ t, exec .quiesce s = .next t ∧ Restful t := by
  obtain ⟨u, added, ran, quieted⟩ := quiesceLines_spec Config.world (s.begin .quiesce)
  have ran' : returning .done (quiesceLines Config.world) (s.begin .quiesce) = .ok (.done, u) := by
    simp only [returning, ran]; rfl
  have answer : exec .quiesce s = .next (u.finish .done) := perform_ok ran'
  exact ⟨_, answer, .of_exec h.started h.host answer rfl
    (quieted.rested.finish .done) (quieted.passed.staysStopped h.monitor)⟩

end Sys2Proof.Machine

namespace Sys2Proof

open Machine

/-- Settles O54: what each part of the invariant rests on is kept by every act, or restored by every instruction that answers. -/
theorem stepKeepsCoherent : Obligations.StepKeepsCoherent := fun _ _ =>
  step_keeps Coherent.host (fun _ => Coherent.countdown) Coherent.exec

/-- Settles O58: from rest the next word is refused, an engine operation or `QUIESCE`, and each completes at rest. -/
theorem engineHostStaysQuiesced : Obligations.EngineHostStaysQuiesced := by
  intro s h
  rw [step_of_started h.idle h.started, countdown_of_not_running h.monitor]
  cases issued : s.issue with
  | nil => exact ⟨s, nextOperation_nil issued, h⟩
  | cons w rest =>
    have taken := h.taken issued
    cases decoded : decode w with
    | error e => exact ⟨_, nextOperation_illegal issued decoded, taken.refuse _⟩
    | ok i =>
      rw [nextOperation_decoded issued decoded]
      rcases h.host w (by simp [issued]) i decoded with op | rfl
      · exact taken.engineOperation op
      · exact taken.quiesce

end Sys2Proof
end

section
/-! PROOFS. The wires at the clock pulse of a framed byte: the sequencer's events before the pulse are the tuple and the data
bits, and the countdown's own events among them move no line (R44, R47, R51, R75). -/

namespace Sys2Proof.Machine

variable {i : Instr} {m1 m0 b1 : Level} {x : Byte} {s t : State} {a b : List Event} {e : Event}

/-! ### The countdown's events in a replay -/

theorem replayDir_sequencerEvents (d : Dir) (l : PLine) (evs : List Event) :
    replayDir d l (sequencerEvents evs) = replayDir d l evs := by
  induction evs generalizing d with
  | nil => rfl
  | cons e evs ih => cases e <;> exact ih _

theorem replayLvl_sequencerEvents (v : Latch) (l : Line) (evs : List Event) :
    replayLvl v l (sequencerEvents evs) = replayLvl v l evs := by
  induction evs generalizing v with
  | nil => rfl
  | cons e evs ih => cases e <;> exact ih _

theorem wireAt_sequencerEvents (s : State) (evs : List Event) : wireAt s (sequencerEvents evs) = wireAt s evs := by
  funext l
  cases l <;> simp only [wireAt, replayDir_sequencerEvents, replayLvl_sequencerEvents]

theorem mem_sequencerEvents {evs : List Event} (h : e ∈ evs) (own : e ≠ .tmFire) : e ∈ sequencerEvents evs :=
  List.mem_filter.mpr ⟨h, decide_eq_true own⟩

/-- A trace is cut at one of the sequencer's events into the part that performed those before it and the part that performed
those after it. -/
theorem Performed.cut (h : Performed s t (a ++ e :: b)) :
    ∃ before after, t.tr = s.tr ++ (before ++ e :: after) ∧ sequencerEvents before = a ∧ sequencerEvents after = b := by
  obtain ⟨added, trace, events⟩ := h
  obtain ⟨first, rest, rfl, performed, more⟩ := List.filter_eq_append_iff.mp events
  obtain ⟨fired, after, rfl, foreign, -, performed'⟩ := List.filter_eq_cons_iff.mp more
  have silent : sequencerEvents fired = [] := List.filter_eq_nil_iff.mpr foreign
  refine ⟨first ++ fired, after, by rw [trace, List.append_assoc], ?_, performed'⟩
  calc sequencerEvents (first ++ fired)
    _ = sequencerEvents first ++ sequencerEvents fired := List.filter_append first fired
    _ = a := by rw [silent, List.append_nil]; exact performed

/-! ### The events before and after the clock rises -/

/-- The events of a framed byte before its clock rises: the tuple, then bit `i` on `D[i]` (R72, R75). -/
def frameSetup (m1 m0 b1 : Level) (x : Byte) : List Event :=
  (tupleSel m1 m0 b1).map MicroStep.event ++ (List.finRange 8).map fun i => .drv (.d i) (bitLevel x i)

/-- The events of a framed byte after its clock has risen (R75). -/
def frameFall : List Event := [.dly .clkHi, .set (.protocol .clk) false, .dly .clkLo]

theorem frameSteps_map_event (m1 m0 b1 : Level) (x : Byte) :
    (frameSteps m1 m0 b1 x).map MicroStep.event = frameSetup m1 m0 b1 x ++ .set (.protocol .clk) true :: frameFall := rfl

theorem rise_not_mem_frameSetup : .set (.protocol .clk) true ∉ frameSetup m1 m0 b1 x := by
  simp [frameSetup, tupleSel, MicroStep.event]

theorem rise_not_mem_frameFall : .set (.protocol .clk) true ∉ frameFall := by decide

/-- `SET` keeps the directions, so the tuple's lines, outputs before, are driven at the tuple (R17, R61). -/
theorem wireAt_frameSetup_tuple (outputs : FramingOutputs s) :
    wireAt s (frameSetup m1 m0 b1 x) (.protocol .ms1) = some m1 ∧
    wireAt s (frameSetup m1 m0 b1 x) (.protocol .ms0) = some m0 ∧
    wireAt s (frameSetup m1 m0 b1 x) (.protocol .bs1) = some b1 := by
  obtain ⟨ms1, ms0, bs1, -⟩ := outputs
  exact ⟨if_pos ms1, if_pos ms0, if_pos bs1⟩

/-- `DRV` makes each data line an output at its bit, whatever the line was (R60). -/
theorem byteOnWires_frameSetup (s : State) (m1 m0 b1 : Level) (x : Byte) : ByteOnWires s (frameSetup m1 m0 b1 x) x := by
  intro i
  fin_cases i <;> rfl

/-! ### The instructions that frame a byte -/

theorem lineSteps_of_framedByte (h : framedByte i = some (m1, m0, b1, x)) :
    lineSteps i = some (frameSteps m1 m0 b1 x) := by
  cases i <;> cases h <;> rfl

/-- An instruction that frames a byte completes where the lines it `SET`s are outputs (R72 to R75). -/
theorem framedByte_completes (framed : framedByte i = some (m1, m0, b1, x)) (outputs : FramingOutputs s) :
    ∃ t, exec i s = .next t ∧ Completed (frameSteps m1 m0 b1 x) .done s t := by
  rw [exec_of_lineSteps (lineSteps_of_framedByte framed)]
  exact perform_steps i (frameSteps_plain m1 m0 b1 x) ((frameSteps_allowed m1 m0 b1 x).mpr outputs)

end Sys2Proof.Machine

namespace Sys2Proof

open Machine

/-- Settles O24: cut at the rise of the clock, the trace has before it the events that put tuple and byte on the wires, which
the countdown's events leave there. -/
theorem frameStandsAtTheClockPulse : Obligations.FrameStandsAtTheClockPulse := by
  intro i m1 m0 b1 x s framed outputs
  obtain ⟨t, ran, completed⟩ := framedByte_completes framed outputs
  obtain ⟨before, after, trace, setup, fall⟩ := (frameSteps_map_event m1 m0 b1 x ▸ completed.performed).cut
  have wires : wireAt s before = wireAt s (frameSetup m1 m0 b1 x) := by rw [← setup, wireAt_sequencerEvents]
  obtain ⟨ms1, ms0, bs1⟩ := wireAt_frameSetup_tuple (m1 := m1) (m0 := m0) (b1 := b1) (x := x) outputs
  have data := byteOnWires_frameSetup s m1 m0 b1 x
  refine ⟨t, before, after, ran, trace, fun rise => ?_, fun rise => ?_, wires ▸ ms1, wires ▸ ms0, wires ▸ bs1,
    fun i => wires ▸ data i⟩
  · exact rise_not_mem_frameSetup (setup ▸ mem_sequencerEvents rise nofun)
  · exact rise_not_mem_frameFall (fall ▸ mem_sequencerEvents rise nofun)

end Sys2Proof
end

section
/-! PROOFS. The decoder and the encoder are inverse to each other: on every format, what a word decodes to is the well-formed
instruction whose word it is, and no other word is (R50 to R58). -/

namespace Sys2Proof

variable {i j : Instr} {w : Word24} {k a b : Byte} {loc : FuseLocation}

/-! ### Operand forms: what each admits and gives -/

theorem ofCode_code (loc : FuseLocation) : FuseLocation.ofCode loc.code = some loc := by cases loc <;> rfl

theorem code_of_ofCode (h : FuseLocation.ofCode a = some loc) : a = loc.code := by
  unfold FuseLocation.ofCode at h
  split_ifs at h <;> cases h <;> assumption

theorem withoutOperand_eq_ok_iff : withoutOperand i a b = .ok j ↔ a = 0#8 ∧ b = 0#8 ∧ i = j := by
  unfold withoutOperand
  split_ifs with zero <;> simp_all

theorem withByte_eq_ok_iff {f : Byte → Instr} : withByte f a b = .ok j ↔ a = 0#8 ∧ f b = j := by
  unfold withByte
  split_ifs with zero <;> simp [zero]

theorem pairByte_of_low_bits (h : b.extractLsb' 2 6 = 0#6) : pairByte (b.getLsbD 1) (b.getLsbD 0) = b := by
  revert b; decide

theorem pairByte_of_low_bit (h : b.extractLsb' 1 7 = 0#7) : pairByte false (b.getLsbD 0) = b := by
  revert b; decide

theorem withPair_eq_ok (h : withPair a b = .ok j) :
    a = 0#8 ∧ ∃ p1 p0, b = pairByte p1 p0 ∧ Instr.bselSet p1 p0 = j := by
  unfold withPair at h
  split_ifs at h with zero reserved
  exact ⟨not_not.mp zero, _, _, (pairByte_of_low_bits (not_not.mp reserved)).symm, Except.ok.inj h⟩

theorem withSetBit_eq_ok (h : withSetBit a b = .ok j) :
    a = 0#8 ∧ ∃ u, b = pairByte false u ∧ Instr.writeFuseDefaults u = j := by
  unfold withSetBit at h
  split_ifs at h with zero reserved
  exact ⟨not_not.mp zero, _, (pairByte_of_low_bit (not_not.mp reserved)).symm, Except.ok.inj h⟩

theorem withReadLocation_eq_ok (h : withReadLocation a b = .ok j) :
    b = 0#8 ∧ ∃ loc, a = loc.code ∧ Instr.readFuse loc = j := by
  unfold withReadLocation at h
  split at h
  next => cases h
  next loc named =>
    split_ifs at h with zero
    exact ⟨zero, loc, code_of_ofCode named, Except.ok.inj h⟩

theorem withWriteLocation_eq_ok (h : withWriteLocation a b = .ok j) :
    ∃ loc, a = loc.code ∧ loc.writable = true ∧ Instr.writeFuse loc b = j := by
  unfold withWriteLocation at h
  split at h
  next => cases h
  next loc named =>
    split_ifs at h with writable
    exact ⟨loc, code_of_ofCode named, writable, Except.ok.inj h⟩

/-! ### The word a form was read from -/

/-- `i` is well formed and `c` is its word. -/
def HasWord (i : Instr) (c : CodeWord) : Prop := i.wellFormed = true ∧ encode i = c

theorem hasWord_of_fields (wf : i.wellFormed = true) (row : encode i = .opw24 (packOpw24 k a b))
    (op : (opField w).toNat = k.toNat) (ha : aField w = a) (hb : bField w = b) : HasWord i (.opw24 w) := by
  refine ⟨wf, ?_⟩
  rw [row, ← BitVec.eq_of_toNat_eq op, ← ha, ← hb, pack_fields]

theorem hasWord_of_withoutOperand (h : withoutOperand i (aField w) (bField w) = .ok j) (wf : i.wellFormed = true)
    (row : encode i = .opw24 (packOpw24 k 0#8 0#8)) (op : (opField w).toNat = k.toNat) : HasWord j (.opw24 w) := by
  obtain ⟨ha, hb, rfl⟩ := withoutOperand_eq_ok_iff.mp h
  exact hasWord_of_fields wf row op ha hb

theorem hasWord_of_withByte {f : Byte → Instr} (h : withByte f (aField w) (bField w) = .ok j)
    (wf : ∀ x, (f x).wellFormed = true) (row : ∀ x, encode (f x) = .opw24 (packOpw24 k 0#8 x))
    (op : (opField w).toNat = k.toNat) : HasWord j (.opw24 w) := by
  obtain ⟨ha, rfl⟩ := withByte_eq_ok_iff.mp h
  exact hasWord_of_fields (wf _) (row _) op ha rfl

theorem hasWord_of_decodeOpw24 (h : decodeOpw24 w = .ok i) : HasWord i (.opw24 w) := by
  unfold decodeOpw24 at h
  split at h
  next op => exact hasWord_of_withoutOperand (i := .quiesce) h rfl rfl op
  next op => exact hasWord_of_withoutOperand (i := .arm) h rfl rfl op
  next op => exact hasWord_of_withoutOperand (i := .enterProg) h rfl rfl op
  next op => exact hasWord_of_withoutOperand (i := .exitProg) h rfl rfl op
  next op => exact hasWord_of_withByte (f := .loadCommand) h (fun _ => rfl) (fun _ => rfl) op
  next op => exact hasWord_of_withByte (f := .loadAddressLow) h (fun _ => rfl) (fun _ => rfl) op
  next op => exact hasWord_of_withByte (f := .loadData) h (fun _ => rfl) (fun _ => rfl) op
  next op => exact hasWord_of_withByte (f := .transmitByte) h (fun _ => rfl) (fun _ => rfl) op
  next op => exact hasWord_of_withoutOperand (i := .receiveByte) h rfl rfl op
  next op =>
    obtain ⟨ha, p1, p0, hb, rfl⟩ := withPair_eq_ok h
    exact hasWord_of_fields rfl rfl op ha hb
  next op => exact hasWord_of_withoutOperand (i := .bselClear) h rfl rfl op
  next op => exact hasWord_of_withoutOperand (i := .bs1High) h rfl rfl op
  next op =>
    obtain rfl := Except.ok.inj h
    obtain ⟨ha, hb⟩ := bytes_deadline (aField w) (bField w)
    exact hasWord_of_fields rfl rfl op ha.symm hb.symm
  next op => exact hasWord_of_withoutOperand (i := .tmDisarm) h rfl rfl op
  next op => exact hasWord_of_withoutOperand (i := .tmTimedOut) h rfl rfl op
  next op => exact hasWord_of_withoutOperand (i := .wrGuard) h rfl rfl op
  next op => exact hasWord_of_withoutOperand (i := .identify) h rfl rfl op
  next op =>
    obtain ⟨hb, loc, ha, rfl⟩ := withReadLocation_eq_ok h
    exact hasWord_of_fields rfl rfl op ha hb
  next op =>
    obtain ⟨loc, ha, writable, rfl⟩ := withWriteLocation_eq_ok h
    exact hasWord_of_fields writable rfl op ha rfl
  next op => exact hasWord_of_withByte (f := .writeLock) h (fun _ => rfl) (fun _ => rfl) op
  next op =>
    obtain ⟨ha, u, hb, rfl⟩ := withSetBit_eq_ok h
    exact hasWord_of_fields rfl rfl op ha hb
  next op => exact hasWord_of_withoutOperand (i := .eraseDevice) h rfl rfl op
  next => cases h

/-! ### The other formats -/

theorem hasWord_of_decodeFrame11 {v : BitVec 11} (h : decodeFrame11 v = .ok i) : HasWord i (.frame11 v) := by
  have frame : ∀ t : BitVec 3, (v.extractLsb' 8 3).toNat = t.toNat → (t ++ v.extractLsb' 0 8 : BitVec 11) = v :=
    fun t tuple => BitVec.eq_of_toNat_eq tuple ▸ BitVec.extractLsb'_append_extractLsb'
  unfold decodeFrame11 at h
  split at h
  next tuple => cases h; exact ⟨rfl, congrArg _ (frame 0b100#3 tuple)⟩
  next tuple => cases h; exact ⟨rfl, congrArg _ (frame 0b000#3 tuple)⟩
  next tuple => cases h; exact ⟨rfl, congrArg _ (frame 0b010#3 tuple)⟩
  next => cases h

theorem hasWord_of_decodeBselRead {v : BitVec 2} (h : decodeBselRead v = .ok i) : HasWord i (.bselRead v) := by
  unfold decodeBselRead at h
  split at h
  next pair => cases h; exact ⟨rfl, congrArg _ (BitVec.eq_of_toNat_eq (x := 0b00#2) pair.symm)⟩
  next pair => cases h; exact ⟨rfl, congrArg _ (BitVec.eq_of_toNat_eq (x := 0b11#2) pair.symm)⟩
  next pair => cases h; exact ⟨rfl, congrArg _ (BitVec.eq_of_toNat_eq (x := 0b01#2) pair.symm)⟩
  next pair => cases h; exact ⟨rfl, congrArg _ (BitVec.eq_of_toNat_eq (x := 0b10#2) pair.symm)⟩
  next => cases h

theorem hasWord_of_decodeBselWriteFuse {v : BitVec 2} (h : decodeBselWriteFuse v = .ok i) :
    HasWord i (.bselWriteFuse v) := by
  unfold decodeBselWriteFuse at h
  split at h
  next pair => cases h; exact ⟨rfl, congrArg _ (BitVec.eq_of_toNat_eq (x := 0b00#2) pair.symm)⟩
  next pair => cases h; exact ⟨rfl, congrArg _ (BitVec.eq_of_toNat_eq (x := 0b10#2) pair.symm)⟩
  next pair => cases h; exact ⟨rfl, congrArg _ (BitVec.eq_of_toNat_eq (x := 0b01#2) pair.symm)⟩
  next => cases h

theorem pair_of_high_bit {v : BitVec 2} (high : v.getLsbD 1 = true) :
    (1#1 ++ BitVec.ofBool (v.getLsbD 0) : BitVec 2) = v := by
  revert v; decide

theorem hasWord_of_decodeBselWriteLock {v : BitVec 2} (h : decodeBselWriteLock v = .ok i) :
    HasWord i (.bselWriteLock v) := by
  unfold decodeBselWriteLock at h
  split_ifs at h with high
  cases h
  exact ⟨rfl, congrArg _ (pair_of_high_bit high)⟩

theorem hasWord_of_decodeCmd8 {v : Byte} (h : decodeCmd8 v = .ok i) : HasWord i (.cmd8 v) := by
  unfold decodeCmd8 at h
  split_ifs at h <;> cases h <;> subst v <;> exact ⟨rfl, rfl⟩

/-! ### Both directions -/

theorem hasWord_of_decode {c : CodeWord} (h : decode c = .ok i) : HasWord i c := by
  cases c with
  | opw24 w => exact hasWord_of_decodeOpw24 h
  | frame11 v => exact hasWord_of_decodeFrame11 h
  | bselRead v => exact hasWord_of_decodeBselRead h
  | bselWriteFuse v => exact hasWord_of_decodeBselWriteFuse h
  | bselWriteLock v => exact hasWord_of_decodeBselWriteLock h
  | cmd8 v => exact hasWord_of_decodeCmd8 h

theorem decode_encode (wf : i.wellFormed = true) : decode (encode i) = .ok i := by
  obtain ⟨chipErase, writeFuse, writeLock, readSignature, readFuse⟩ := decode_configured_command
  cases i with
  | quiesce | arm | enterProg | exitProg | receiveByte | bselClear | bs1High | tmDisarm | tmTimedOut | wrGuard | identify
  | eraseDevice => rfl
  | loadCommand x | loadAddressLow x | loadData x | transmitByte x | writeLock x =>
    simp [encode, decode, decodeOpw24, withByte]
  | bselSet p1 p0 => cases p1 <;> cases p0 <;> rfl
  | tmArm n => simp [encode, decode, decodeOpw24, deadline_bytes]
  | readFuse loc => cases loc <;> rfl
  | writeFuse loc x =>
    have writable : loc.writable = true := wf
    simp [encode, decode, decodeOpw24, withWriteLocation, ofCode_code, writable]
  | writeFuseDefaults u => cases u <;> rfl
  | frameCommand d | frameAddressLow d | frameData d => simp [encode, decode, decodeFrame11, frame_fields]
  | bselRdLow | bselRdHigh | bselRdExtended | bselRdLock | bselWrLow | bselWrHigh | bselWrExtended => rfl
  | bselWrLock u => cases u <;> rfl
  | cmdChipErase => exact chipErase
  | cmdWriteFuse => exact writeFuse
  | cmdWriteLock => exact writeLock
  | cmdReadSignature => exact readSignature
  | cmdReadFuse => exact readFuse

end Sys2Proof

namespace Sys2Proof

/-- Settles O2: each row's word carries its operands in fields of their own, and the command bytes are distinct. -/
theorem decodeOfEncode : Obligations.DecodeOfEncode := fun _ wf => decode_encode wf

/-- Settles O3: the decoder reads every bit of a word, as an operand or as a bit that must be zero. -/
theorem encodeOfDecode : Obligations.EncodeOfDecode := fun _ _ decoded => hasWord_of_decode decoded

end Sys2Proof
end

section
/-! PROOFS. The rows of the operation table: each has an operation byte of its own, and a word with that byte is legal exactly
when its operand bytes are what the row fixes, the location Lock of `WRITE_FUSE` apart (R56, R58). -/

namespace Sys2Proof

variable {i j : Instr} {w v : Word24} {k n m a b : Byte} {name : String} {r : OpRow}

/-! ### Rows by their operation byte -/

theorem opField_and (w v : Word24) : opField (w &&& v) = opField w &&& opField v := BitVec.extractLsb'_and

/-- Every row fixes the whole operation byte. -/
theorem opField_of_covers (row : r ∈ opw24Rows) (covers : r.covers w = true) : opField r.bits = opField w := by
  have whole : ∀ r ∈ opw24Rows, opField r.mask = BitVec.allOnes 8 := by decide
  have bits : w &&& r.mask = r.bits := beq_iff_eq.mp covers
  rw [← bits, opField_and, whole r row, BitVec.and_allOnes]

/-- The operation bytes of the rows are pairwise distinct. -/
theorem opw24Rows_ops_nodup : (opw24Rows.map fun r => opField r.bits).Nodup := by decide

/-- `w` is in the table, and is no `WRITE_FUSE` of Lock (R58 (c)). -/
def LegalWord (w : Word24) : Prop :=
  opw24Rows.any (fun r => r.covers w) = true ∧ ¬(opField w = 0x32#8 ∧ aField w = 3#8)

/-- Only the row with the word's operation byte can cover it, and does so by the operand bytes. -/
theorem inTable_iff_of_row (row : ⟨name, packOpw24 k 0#8 0#8, packOpw24 0xFF#8 n m⟩ ∈ opw24Rows) (op : opField w = k) :
    opw24Rows.any (fun r => r.covers w) = true ↔ aField w &&& n = 0#8 ∧ bField w &&& m = 0#8 := by
  have covers : OpRow.covers ⟨name, packOpw24 k 0#8 0#8, packOpw24 0xFF#8 n m⟩ w =
      decide (aField w &&& n = 0#8 ∧ bField w &&& m = 0#8) := by
    have whole : k &&& 0xFF#8 = k := BitVec.and_allOnes
    rw [← pack_fields w, covers_pack, op]
    simp [whole]
  rw [List.any_eq_true]
  constructor
  · rintro ⟨r, mem, covered⟩
    have same := List.inj_on_of_nodup_map opw24Rows_ops_nodup mem row
      (by rw [opField_of_covers mem covered, op, opField_pack])
    subst same
    simpa [covers] using covered
  · intro operands
    exact ⟨_, row, by simpa [covers] using operands⟩

/-- A row of the table that is not the row of `WRITE_FUSE`. -/
abbrev OrdinaryRow (name : String) (k n m : Byte) : Prop :=
  ⟨name, packOpw24 k 0#8 0#8, packOpw24 0xFF#8 n m⟩ ∈ opw24Rows ∧ k ≠ 0x32#8

theorem legalWord_iff_of_row (row : OrdinaryRow name k n m) (op : (opField w).toNat = k.toNat) :
    LegalWord w ↔ aField w &&& n = 0#8 ∧ bField w &&& m = 0#8 := by
  have op' : opField w = k := BitVec.eq_of_toNat_eq op
  rw [LegalWord, inTable_iff_of_row row.1 op', op']
  exact and_iff_left fun lock => row.2 lock.1

theorem not_legalWord_of_op (other : (opField w).toNat ∉ opw24Rows.map fun r => (opField r.bits).toNat) : ¬LegalWord w := by
  rintro ⟨table, -⟩
  obtain ⟨r, mem, covers⟩ := List.any_eq_true.mp table
  exact other (List.mem_map.mpr ⟨r, mem, congrArg _ (opField_of_covers mem covers)⟩)

/-! ### Operand forms in the terms of the rows -/

theorem and_whole (x : Byte) : x &&& 0xFF#8 = x := BitVec.and_allOnes

theorem legal_withoutOperand (row : OrdinaryRow name k 0xFF#8 0xFF#8) (op : (opField w).toNat = k.toNat) :
    (∃ j, withoutOperand i (aField w) (bField w) = .ok j) ↔ LegalWord w := by
  simp [legalWord_iff_of_row row op, withoutOperand_eq_ok_iff, and_whole]

theorem legal_withByte {f : Byte → Instr} (row : OrdinaryRow name k 0xFF#8 0#8) (op : (opField w).toNat = k.toNat) :
    (∃ j, withByte f (aField w) (bField w) = .ok j) ↔ LegalWord w := by
  simp [legalWord_iff_of_row row op, withByte_eq_ok_iff, and_whole]

theorem exists_withPair_iff : (∃ j, withPair a b = .ok j) ↔ a = 0#8 ∧ b &&& 0xFC#8 = 0#8 := by
  have reserved : b.extractLsb' 2 6 = 0#6 ↔ b &&& 0xFC#8 = 0#8 := by revert b; decide
  unfold withPair
  split_ifs <;> simp_all

theorem exists_withSetBit_iff : (∃ j, withSetBit a b = .ok j) ↔ a = 0#8 ∧ b &&& 0xFE#8 = 0#8 := by
  have reserved : b.extractLsb' 1 7 = 0#7 ↔ b &&& 0xFE#8 = 0#8 := by revert b; decide
  unfold withSetBit
  split_ifs <;> simp_all

theorem exists_withReadLocation_iff : (∃ j, withReadLocation a b = .ok j) ↔ a &&& 0xFC#8 = 0#8 ∧ b = 0#8 := by
  have named : (FuseLocation.ofCode a).isSome = true ↔ a &&& 0xFC#8 = 0#8 := by revert a; decide
  unfold withReadLocation
  rw [← named]
  cases FuseLocation.ofCode a with
  | none => simp
  | some loc => split_ifs with zero <;> simp [zero]

theorem exists_withWriteLocation_iff : (∃ j, withWriteLocation a b = .ok j) ↔ a &&& 0xFC#8 = 0#8 ∧ a ≠ 3#8 := by
  have named : (FuseLocation.ofCode a).any FuseLocation.writable = true ↔ a &&& 0xFC#8 = 0#8 ∧ a ≠ 3#8 := by
    revert a; decide
  unfold withWriteLocation
  rw [← named]
  cases FuseLocation.ofCode a with
  | none => simp
  | some loc => cases writable : loc.writable <;> simp [writable]

theorem opw24Rows_ops : opw24Rows.map (fun r => (opField r.bits).toNat) = [0x01, 0x02, 0x10, 0x11, 0x12, 0x13, 0x14, 0x15,
    0x16, 0x17, 0x18, 0x19, 0x20, 0x21, 0x22, 0x28, 0x30, 0x31, 0x32, 0x33, 0x34, 0x35] := by decide

theorem legal_decodeOpw24_iff : (∃ j, decodeOpw24 w = .ok j) ↔ LegalWord w := by
  unfold decodeOpw24
  split
  next op => exact legal_withoutOperand (name := "QUIESCE") (k := 0x01#8) (by decide) op
  next op => exact legal_withoutOperand (name := "ARM") (k := 0x02#8) (by decide) op
  next op => exact legal_withoutOperand (name := "ENTER_PROG") (k := 0x10#8) (by decide) op
  next op => exact legal_withoutOperand (name := "EXIT_PROG") (k := 0x11#8) (by decide) op
  next op => exact legal_withByte (name := "LOAD_COMMAND") (k := 0x12#8) (by decide) op
  next op => exact legal_withByte (name := "LOAD_ADDRESS_LOW") (k := 0x13#8) (by decide) op
  next op => exact legal_withByte (name := "LOAD_DATA") (k := 0x14#8) (by decide) op
  next op => exact legal_withByte (name := "TRANSMIT_BYTE") (k := 0x15#8) (by decide) op
  next op => exact legal_withoutOperand (name := "RECEIVE_BYTE") (k := 0x16#8) (by decide) op
  next op =>
    rw [exists_withPair_iff,
      legalWord_iff_of_row (name := "BSEL_SET") (k := 0x17#8) (n := 0xFF#8) (m := 0xFC#8) (by decide) op, and_whole]
  next op => exact legal_withoutOperand (name := "BSEL_CLEAR") (k := 0x18#8) (by decide) op
  next op => exact legal_withoutOperand (name := "BS1_HIGH") (k := 0x19#8) (by decide) op
  next op =>
    rw [legalWord_iff_of_row (name := "TM_ARM") (k := 0x20#8) (n := 0#8) (m := 0#8) (by decide) op, BitVec.and_zero,
      BitVec.and_zero]
    exact iff_of_true ⟨_, rfl⟩ ⟨rfl, rfl⟩
  next op => exact legal_withoutOperand (name := "TM_DISARM") (k := 0x21#8) (by decide) op
  next op => exact legal_withoutOperand (name := "TM_TIMED_OUT") (k := 0x22#8) (by decide) op
  next op => exact legal_withoutOperand (name := "WR_GUARD") (k := 0x28#8) (by decide) op
  next op => exact legal_withoutOperand (name := "IDENTIFY") (k := 0x30#8) (by decide) op
  next op =>
    rw [exists_withReadLocation_iff,
      legalWord_iff_of_row (name := "READ_FUSE") (k := 0x31#8) (n := 0xFC#8) (m := 0xFF#8) (by decide) op, and_whole]
  next op =>
    have op' : opField w = 0x32#8 := BitVec.eq_of_toNat_eq op
    rw [exists_withWriteLocation_iff, LegalWord,
      inTable_iff_of_row (name := "WRITE_FUSE") (n := 0xFC#8) (m := 0#8) (by decide) op', BitVec.and_zero]
    simp [op']
  next op => exact legal_withByte (name := "WRITE_LOCK") (k := 0x33#8) (by decide) op
  next op =>
    rw [exists_withSetBit_iff,
      legalWord_iff_of_row (name := "WRITE_FUSE_DEFAULTS") (k := 0x34#8) (n := 0xFF#8) (m := 0xFE#8) (by decide) op,
      and_whole]
  next op => exact legal_withoutOperand (name := "ERASE_DEVICE") (k := 0x35#8) (by decide) op
  next =>
    refine iff_of_false nofun (not_legalWord_of_op ?_)
    simp only [opw24Rows_ops, List.mem_cons, List.not_mem_nil, or_false, not_or]
    and_intros <;> assumption

end Sys2Proof

namespace Sys2Proof

/-- Settles O4: the row of a word's operation byte fixes of the operand bytes what the decoder asks of them. -/
theorem legalOperationWords : Obligations.LegalOperationWords := fun _ => legal_decodeOpw24_iff

/-- Settles O5: a row that covers a word has the word's operation byte, and no two rows have the same. -/
theorem rowsAreDisjoint : Obligations.RowsAreDisjoint := by
  intro w
  calc (opw24Rows.filter fun r => r.covers w).length
    _ = opw24Rows.countP fun r => r.covers w := List.countP_eq_length_filter.symm
    _ ≤ opw24Rows.countP fun r => opField r.bits == opField w :=
      List.countP_mono_left fun r row covers => beq_iff_eq.mpr (opField_of_covers row covers)
    _ = (opw24Rows.map fun r => opField r.bits).count (opField w) := by rw [List.count, List.countP_map]; rfl
    _ ≤ 1 := List.nodup_iff_count_le_one.mp opw24Rows_ops_nodup _

end Sys2Proof
end

section
/-! PROOFS. Words of the spec, words numbered as the opcode table numbers them, and illegal words: what the decoder and the step
make of each (R50 to R58, R105, R120). -/

namespace Sys2Proof.Machine

/-- A table number that decodes stands for a word that decodes. -/
theorem tableWord_of_decodeTableWord {nbits w : Nat} {i : Instr} (h : decodeTableWord nbits w = some i) :
    ∃ c, tableWord nbits w = some c ∧ decode c = .ok i := by
  rw [decodeTableWord_eq] at h
  obtain ⟨c, word, decoded⟩ := Option.bind_eq_some_iff.mp h
  refine ⟨c, word, ?_⟩
  cases answer : decode c with
  | ok j => rw [answer] at decoded; exact congrArg _ (Option.some.inj decoded)
  | error e => rw [answer] at decoded; cases decoded

theorem withFetchWord_issue {nbits w : Nat} {c : CodeWord} (s : State) (word : tableWord nbits w = some c) :
    (s.withFetchWord nbits w).issue = [c] := by
  simp only [State.withFetchWord, word, Option.getD_some]

end Sys2Proof.Machine

namespace Sys2Proof

open Machine

/-- Settles O1: each word is evaluated, but the configured byte, which decodes to its row whatever it is. -/
theorem wordsOfTheSpecDecode : Obligations.WordsOfTheSpecDecode := by
  obtain ⟨-, -, writeLock, -, -⟩ := decode_configured_command
  exact ⟨rfl, rfl, rfl, rfl, rfl, rfl, rfl, rfl, rfl, rfl, rfl, rfl, writeLock⟩

/-- Settles O7: the number's word is the one issued, and the step performs what it decodes to. -/
theorem stepRunsTheTableWord : Obligations.StepRunsTheTableWord := by
  intro s nbits w i numbered
  obtain ⟨c, word, decoded⟩ := tableWord_of_decodeTableWord numbered
  exact stepRunsTheDecodedInstruction _ c [] i rfl rfl (withFetchWord_issue s word) decoded

/-- Settles O8: the next operation on a word that does not decode is the refusal. -/
theorem illegalWordIsRefused : Obligations.IllegalWordIsRefused := fun s _ _ _ idle started issued illegal =>
  (step_of_started idle started).trans (nextOperation_illegal (s := s.countdown) issued illegal)

/-- Settles O39: the write table has no pair for Lock, and that is asked before the gate. -/
theorem writeFuseLockIsIllegal : Obligations.WriteFuseLockIsIllegal := exec_writeFuse_lock

end Sys2Proof
end

section
/-! PROOFS. The lines after an operation, read off the events it performed, and the rows of `FRAME11`, `BSEL2` and `CMD8`: what
they put on the wires, what they leave, and where they fault (R28, R51 to R54, R61, R77, R79). -/

namespace Sys2Proof.Machine

variable {i : Instr} {ms : List MicroStep} {s t : State} {evs : List Event} {ls : List Line} {l : PLine}
  {m1 m0 b1 p1 p0 v : Level} {x : Byte}

/-! ### The lines after the events of an operation -/

/-- The line whose direction or level an event changes, if it changes one (R28). -/
def Event.line : Event → Option Line
  | .drv l _ => some (.protocol l)
  | .set l _ => some l
  | .rel l => some (.protocol l)
  | _ => none

/-- The events of `evs` that change line `k`. -/
def onLine (k : Line) (evs : List Event) : List Event := evs.filter fun e => e.line = some k

theorem onLine_append (k : Line) (a b : List Event) : onLine k (a ++ b) = onLine k a ++ onLine k b := List.filter_append ..

/-- The other events leave the line as it is. -/
theorem replayLvl_onLine (w : Latch) (k : Line) (evs : List Event) : replayLvl w k (onLine k evs) = replayLvl w k evs := by
  unfold replayLvl onLine
  rw [List.foldl_filter]
  congr 1
  funext v e
  cases e <;> simp [Event.line] <;> tauto

theorem replayDir_onLine (d : Dir) (l : PLine) (evs : List Event) :
    replayDir d l (onLine (.protocol l) evs) = replayDir d l evs := by
  unfold replayDir onLine
  rw [List.foldl_filter]
  congr 1
  funext v e
  cases e <;> simp [Event.line] <;> tauto

/-- What an instruction that performed `evs` made of the lines is what `evs` make of them (R14, R15, R28). -/
theorem Performed.lines (performed : Performed s t evs) (ran : exec i s = .next t) :
    (∀ l, t.dirOf l = replayDir (s.dirOf l) l evs) ∧ ∀ l, t.lvlOf l = replayLvl (s.lvlOf l) l evs := by
  obtain ⟨added, trace, rfl⟩ := performed
  obtain ⟨added', trace', dir, lvl, -⟩ := exec_grows ran
  obtain rfl := List.append_cancel_left (trace.symm.trans trace')
  exact ⟨fun l => (dir l).trans (replayDir_sequencerEvents _ l added).symm,
    fun l => (lvl l).trans (replayLvl_sequencerEvents _ l added).symm⟩

theorem Performed.wire (performed : Performed s t evs) (ran : exec i s = .next t) : t.wire = wireAt s evs := by
  obtain ⟨dir, lvl⟩ := performed.lines ran
  funext l
  cases l <;> simp only [State.wire, wireAt, dir, lvl]

theorem Performed.linesKept (performed : Performed s t evs) (ran : exec i s = .next t)
    (lines : ∀ e ∈ evs, ∀ l, e.line = some l → l ∈ ls) : LinesKeptBut ls s t := by
  obtain ⟨dir, lvl⟩ := performed.lines ran
  have untouched : ∀ l, l ∉ ls → onLine l evs = [] := fun l other =>
    List.filter_eq_nil_iff.mpr fun e mem touched => other (lines e mem l (of_decide_eq_true touched))
  refine ⟨fun l other => ?_, fun l other => ?_⟩
  · rw [lvl, ← replayLvl_onLine, untouched l other]; rfl
  · rw [dir, ← replayDir_onLine, untouched _ other]; rfl

theorem drives_iff_wire : s.drives l v ↔ s.wire (.protocol l) = some v := by
  by_cases out : s.dirOf l = .output <;> simp [State.drives, State.wire, out]

/-! ### Where a straight line faults -/

/-- The protocol lines a straight line `SET`s. -/
def setLines (ms : List MicroStep) : List PLine :=
  ms.filterMap fun | .set (.protocol l) _ => some l | _ => none

theorem mem_setLines : l ∈ setLines ms ↔ ∃ v, .set (.protocol l) v ∈ ms := by
  rw [setLines, List.mem_filterMap]
  constructor
  · rintro ⟨m, mem, line⟩
    split at line
    next k v => exact ⟨v, Option.some.inj line ▸ mem⟩
    next => cases line
  · rintro ⟨v, mem⟩
    exact ⟨_, mem, rfl⟩

/-- What blocks a straight line that releases nothing is a `SET` of its own, on a line that was no output to begin with (R61). -/
theorem firstBlocked_eq_some (held : ∀ k, .rel k ∉ ms) {f : PLine → Dir} (h : firstBlocked ms f = some l) :
    l ∈ setLines ms ∧ f l ≠ .output := by
  induction ms generalizing f with
  | nil => cases h
  | cons m ms ih =>
    have later : firstBlocked ms (m.dirAfter f) = some l →
        l ∈ setLines (m :: ms) ∧ m.dirAfter f l ≠ .output := fun h => by
      obtain ⟨set, blocked⟩ := ih (fun k mem => held k (List.mem_cons_of_mem _ mem)) h
      obtain ⟨v, mem⟩ := mem_setLines.mp set
      exact ⟨mem_setLines.mpr ⟨v, List.mem_cons_of_mem _ mem⟩, blocked⟩
    cases m with
    | set k v =>
      cases k with
      | protocol k =>
        simp only [firstBlocked] at h
        split_ifs at h with out
        · exact later h
        · cases h
          exact ⟨mem_setLines.mpr ⟨v, List.mem_cons_self⟩, out⟩
      | vccEn | vppEn => exact later h
    | drv k v =>
      obtain ⟨set, blocked⟩ := later h
      refine ⟨set, fun out => blocked ?_⟩
      simp [MicroStep.dirAfter, out]
    | rel k => exact absurd List.mem_cons_self (held k)
    | dly | tmArm | tmDisarm => exact later h

theorem allAllowed_of_firstBlocked {f : PLine → Dir} (h : firstBlocked ms f = none) : allAllowed ms f := by
  induction ms generalizing f with
  | nil => trivial
  | cons m ms ih =>
    cases m with
    | set k v =>
      cases k with
      | protocol k =>
        simp only [firstBlocked] at h
        split_ifs at h with out
        exact ⟨out, ih h⟩
      | vccEn | vppEn => exact ⟨trivial, ih h⟩
    | drv | rel | dly | tmArm | tmDisarm => exact ⟨trivial, ih h⟩

/-- An instruction that is a straight line faults where a line it `SET`s is no output (R61, R82, R124). -/
theorem faultsAt_of_lineSteps {needed : List PLine} (straight : lineSteps i = some ms)
    (sets : setLines ms ⊆ needed)
    (needs : allAllowed ms s.dirOf → ∀ l ∈ needed, s.dirOf l = .output) : FaultsAt needed i s := by
  rintro ⟨k, mem, other⟩
  have line := lineSteps_lineProgram straight
  cases first : firstBlocked ms s.dirOf with
  | none => exact absurd (needs (allAllowed_of_firstBlocked first) k mem) other
  | some l =>
    obtain ⟨set, blocked⟩ := firstBlocked_eq_some line.holds first
    exact ⟨l, sets set, blocked, exec_of_lineSteps straight s ▸ perform_blocked i line.plain first⟩

/-- An instruction that is a straight line completes where each of its micro-steps is allowed when it comes (R61). -/
theorem completes_of_lineSteps (straight : lineSteps i = some ms) (allowed : allAllowed ms s.dirOf) :
    ∃ t, exec i s = .next t ∧ Completed ms .done s t :=
  exec_of_lineSteps straight s ▸ perform_steps i (lineSteps_lineProgram straight).plain allowed

/-! ### A framed byte -/

theorem byte_of_bits (x : Byte) :
    (BitVec.ofBool (x.getLsbD 7) ++ BitVec.ofBool (x.getLsbD 6) ++ BitVec.ofBool (x.getLsbD 5) ++
      BitVec.ofBool (x.getLsbD 4) ++ BitVec.ofBool (x.getLsbD 3) ++ BitVec.ofBool (x.getLsbD 2) ++
      BitVec.ofBool (x.getLsbD 1) ++ BitVec.ofBool (x.getLsbD 0) : BitVec 8) = x := by
  revert x; decide

theorem drivenByte_of_wires (h : ∀ i : Fin 8, s.wire (.protocol (.d i)) = some (x.getLsbD i.val)) :
    s.drivenByte = some x := by
  simp only [State.drivenByte, h]
  exact congrArg some (byte_of_bits x)

theorem frame_of_wires (ms1 : s.wire (.protocol .ms1) = some m1) (ms0 : s.wire (.protocol .ms0) = some m0)
    (bs1 : s.wire (.protocol .bs1) = some b1) (data : ∀ i : Fin 8, s.wire (.protocol (.d i)) = some (x.getLsbD i.val)) :
    s.frame = some (BitVec.ofBool m1 ++ BitVec.ofBool m0 ++ BitVec.ofBool b1 ++ x : BitVec 11) := by
  simp only [State.frame, ms1, ms0, bs1, drivenByte_of_wires data]
  rfl

theorem frameSteps_lines : ∀ e ∈ (frameSteps m1 m0 b1 x).map MicroStep.event, ∀ l, e.line = some l → l ∈ frameLines := by
  have touched : ((frameSteps m1 m0 b1 x).map MicroStep.event).filterMap Event.line ⊆ frameLines := by
    show ([_, _, _, _, _, _, _, _, _, _, _, _, _] : List Line) ⊆ frameLines
    decide
  exact fun e mem l line => touched (List.mem_filterMap.mpr ⟨e, mem, line⟩)

theorem framesByte_of_framedByte (framed : framedByte i = some (m1, m0, b1, x)) : FramesByte i m1 m0 b1 x := by
  intro s
  constructor
  · have sets : setLines (frameSteps m1 m0 b1 x) = [.ms1, .ms0, .bs1, .clk, .clk] := rfl
    refine faultsAt_of_lineSteps (lineSteps_of_framedByte framed) (sets ▸ by decide) fun allowed => ?_
    simpa using (frameSteps_allowed m1 m0 b1 x).mp allowed
  · intro outputs
    obtain ⟨t, ran, completed⟩ := framedByte_completes framed outputs
    have performed := completed.performed
    have wire := performed.wire ran
    obtain ⟨ms1, ms0, bs1, clk⟩ := outputs
    refine ⟨t, _, ran, completed.result, performed, frameSteps_events m1 m0 b1 x, ?_, ?_,
      performed.linesKept ran frameSteps_lines, completed.flags⟩
    · refine frame_of_wires ?_ ?_ ?_ fun j => ?_ <;> rw [wire]
      · exact if_pos ms1
      · exact if_pos ms0
      · exact if_pos bs1
      · fin_cases j <;> rfl
    · exact drives_iff_wire.mpr (wire ▸ if_pos clk)

/-! ### The byte-select lines -/

theorem selectsPair_of_lineSteps (straight : lineSteps i = some (bselSetSteps p1 p0)) : SelectsPair i p1 p0 := by
  intro s
  constructor
  · refine faultsAt_of_lineSteps straight (fun _ => id) fun allowed => ?_
    obtain ⟨bs1, bs0, -⟩ := allowed
    have outputs : s.dirOf .bs1 = .output ∧ s.dirOf .bs0 = .output := ⟨bs1, bs0⟩
    simpa using outputs
  · intro bs1 bs0
    obtain ⟨t, ran, completed⟩ := completes_of_lineSteps straight (s := s) ⟨bs1, bs0, trivial⟩
    have performed := completed.performed
    have wire := performed.wire ran
    refine ⟨t, ran, completed.result, performed, ?_, performed.linesKept ran ?_, completed.flags⟩
    · have high : t.wire (.protocol .bs1) = some p1 := wire ▸ if_pos bs1
      have low : t.wire (.protocol .bs0) = some p0 := wire ▸ if_pos bs0
      simp only [State.byteSelect, high, low]
      rfl
    · simp [bselSetSteps, MicroStep.event, Event.line, pairLines]

theorem raisesBs1_of_lineSteps (straight : lineSteps i = some bs1HighSteps) : RaisesBs1 i := by
  intro s
  constructor
  · refine faultsAt_of_lineSteps straight (fun _ => id) fun allowed => ?_
    obtain ⟨bs1, -⟩ := allowed
    have output : s.dirOf .bs1 = .output := bs1
    simpa using output
  · intro bs1
    obtain ⟨t, ran, completed⟩ := completes_of_lineSteps straight (s := s) ⟨bs1, trivial⟩
    have performed := completed.performed
    have wire := performed.wire ran
    refine ⟨t, ran, completed.result, performed, drives_iff_wire.mpr (wire ▸ if_pos bs1), performed.linesKept ran ?_,
      completed.flags⟩
    simp [bs1HighSteps, MicroStep.event, Event.line]

end Sys2Proof.Machine

namespace Sys2Proof

open Machine

/-- Settles O23: each of the eight rows frames its byte, as every instruction that frames one does. -/
theorem frameAndCommandRows : Obligations.FrameAndCommandRows :=
  ⟨fun _ => ⟨framesByte_of_framedByte rfl, framesByte_of_framedByte rfl, framesByte_of_framedByte rfl⟩,
    framesByte_of_framedByte rfl, framesByte_of_framedByte rfl, framesByte_of_framedByte rfl, framesByte_of_framedByte rfl,
    framesByte_of_framedByte rfl⟩

/-- Settles O30: each row performs the byte-select step of its pair, and the lock row raises `BS[1]` alone. -/
theorem byteSelectRows : Obligations.ByteSelectRows :=
  ⟨selectsPair_of_lineSteps rfl, selectsPair_of_lineSteps rfl, selectsPair_of_lineSteps rfl, selectsPair_of_lineSteps rfl,
    selectsPair_of_lineSteps rfl, selectsPair_of_lineSteps rfl, selectsPair_of_lineSteps rfl,
    fun _ => raisesBs1_of_lineSteps rfl⟩

end Sys2Proof
end

section
/-! PROOFS. The read and the writes of a location, as operations: what the read program and the attempts leave, the gate open
and no session active (R107, R111, R112, R114). -/

namespace Sys2Proof.Machine

variable {i : Instr} {cmd value : Byte} {loc : FuseLocation} {s : State}

/-- `READ_FUSE` in `DeviceKnown` without a session completes with the byte the read program leaves in `RX` (R111). -/
theorem readFuse_completes (loc : FuseLocation) (known : s.engState = .deviceKnown) (free : s.session = false) :
    ∃ t added, exec (.readFuse loc) s = .next (t.finish (.byte t.rx)) ∧
      ReadBack Config.params loc (s.begin (.readFuse loc)) t added := by
  obtain ⟨t, added, ran, read⟩ := readRaw_spec Config.world loc (s := s.begin (.readFuse loc)) free
  have ran' : readProgram loc (s.begin (.readFuse loc)) = .ok (.byte t.rx, t) := by simp only [readProgram, ran]; rfl
  exact ⟨t, added, (gated_of_known known).trans (perform_ok ran'), read⟩

/-- A fuse or lock write in `DeviceKnown` without a session completes with the read-back its attempts leave in `RB`
(R112, R114). -/
theorem singleWrite_completes (write : singleWrite i = some (cmd, loc, value)) (known : s.engState = .deviceKnown)
    (free : s.session = false) :
    ∃ t before last added, exec i s = .next (t.finish (.byte t.rb)) ∧
      Wrote Config.params cmd loc value { s.begin i with att := 0 } t before last added ∧
      WritePolicy value (before ++ [last]) := by
  obtain ⟨t, before, last, added, ran, wrote, policy⟩ :=
    writeLocation_spec Config.world cmd loc value (s := s.begin i) free
  have ran' : writeProgram cmd loc value (s.begin i) = .ok (.byte t.rb, t) := by simp only [writeProgram, ran]; rfl
  refine ⟨t, before, last, added, ?_, wrote, policy⟩
  rw [exec_singleWrite write, gated_of_known known, perform_ok ran']

end Sys2Proof.Machine

namespace Sys2Proof

open Machine

/-- Settles O37: the location's word is that of `READ_FUSE`, whose program enters, reads with the read table's pair and quiesces. -/
theorem readFuseRule : Obligations.ReadFuseRule := by
  refine fun loc => ⟨decodeOfEncode (.readFuse loc) rfl, fun s known free => ?_⟩
  obtain ⟨t, added, ran, read⟩ := readFuse_completes loc known free
  have kept := read.kept
  exact ⟨_, _, t.rx, ran, rfl, ⟨added, read.passed.trace, rfl⟩, read.events, read.rested.quiesced,
    kept.session.trans free.symm, kept.engState, kept.sel, read.passed.onlyFires⟩

/-- Settles O38: the attempts' loop ends within its four attempts, and its last attempt decides what it leaves. -/
theorem writeRule : Obligations.WriteRule := by
  intro i cmd loc value s write known free
  obtain ⟨t, before, last, added, ran, wrote, policy⟩ := singleWrite_completes write known free
  have tried := wrote.tried
  refine ⟨_, added, before, last, ran, congrArg _ wrote.rb, wrote.trace, wrote.events, policy, ?_, wrote.rb, ?_,
    tried.stopped, tried.deadline, tried.rested.quiesced, tried.rested.session, tried.kept.engState, tried.kept.sel⟩
  · exact wrote.att.trans (Nat.zero_add _)
  · rw [tried.result]
    exact (guardResult_eq_timedOut _).symm

end Sys2Proof
end

section
/-! PROOFS. The wires at the commit pulse of a write: an attempt has one pulse, and the events before it, whatever stood before
them and in whatever order within their groups, put selection, tuple, value and supplies on the lines (R53, R112, R114, R151). -/

namespace Sys2Proof.Machine

variable {i : Instr} {cmd value x : Byte} {loc : FuseLocation} {m1 m0 b1 : Level} {s : State} {l : Line}
  {a b evs pre added before after : List Event} {polls : List Level} {p : Config.Params}

/-! ### Groups without an order -/

/-- The wire of a line depends on the events that change it alone. -/
theorem wireAt_congr (same : onLine l a = onLine l b) : wireAt s (pre ++ a) l = wireAt s (pre ++ b) l := by
  have lvl : ∀ w, replayLvl w l a = replayLvl w l b := fun w => by
    rw [← replayLvl_onLine, same, replayLvl_onLine]
  cases l with
  | protocol l =>
    have dir : ∀ d, replayDir d l a = replayDir d l b := fun d => by rw [← replayDir_onLine, same, replayDir_onLine]
    simp only [wireAt, replayDir_append, replayLvl_append, dir, lvl]
  | vccEn | vppEn => simp only [wireAt, replayLvl_append, lvl]

/-- In a group that changes no line twice the order makes no difference to any line. -/
theorem onLine_eq_of_perm (perm : a.Perm b) (once : (b.map Event.line).Nodup) : onLine l a = onLine l b := by
  have most : (onLine l b).length ≤ 1 := by
    calc (onLine l b).length
      _ = (b.map Event.line).count (some l) := by
        rw [onLine, ← List.countP_eq_length_filter, List.count, List.countP_map]
        exact List.countP_congr fun e _ => by simp
      _ ≤ 1 := List.nodup_iff_count_le_one.mp once _
  have perm' : (onLine l a).Perm (onLine l b) := perm.filter _
  match h : onLine l b with
  | [] => exact List.perm_nil.mp (h ▸ perm')
  | [e] => exact List.perm_singleton.mp (h ▸ perm')
  | _ :: _ :: _ => simp [h] at most

theorem onLine_sequencerEvents (l : Line) (evs : List Event) : onLine l (sequencerEvents evs) = onLine l evs := by
  have own : ∀ e : Event, (decide (e.line = some l) && decide (e ≠ .tmFire)) = decide (e.line = some l) := fun e => by
    cases e <;> simp [Event.line]
  simp only [onLine, sequencerEvents, List.filter_filter, own]

theorem EnterEvents.onLine (h : EnterEvents evs) :
    onLine l evs = onLine l ((armSteps ++ powerUpSteps).map MicroStep.event) := by
  obtain ⟨armed, perm, rfl⟩ := h
  rw [List.map_append, onLine_append, onLine_append, onLine_eq_of_perm perm (by decide)]
  rfl

theorem TransmitEvents.onLine (h : TransmitEvents x evs) :
    onLine l evs = onLine l ((transmitSteps x).map MicroStep.event) := by
  obtain ⟨data, perm, rfl⟩ := h
  have once : (((List.finRange 8).map fun i => Event.drv (.d i) (x.getLsbD i.val)).map Event.line).Nodup := by
    rw [List.map_map]
    show ((List.finRange 8).map fun i => some (Line.protocol (.d i))).Nodup
    decide
  rw [onLine_append, onLine_eq_of_perm perm once, ← onLine_append]
  rfl

theorem FrameEvents.onLine (h : FrameEvents m1 m0 b1 x evs) :
    onLine l evs = onLine l ((frameSteps m1 m0 b1 x).map MicroStep.event) := by
  obtain ⟨tuple, byte, rfl, transmit, perm⟩ := h
  have once : (([.set (.protocol .ms1) m1, .set (.protocol .ms0) m0, .set (.protocol .bs1) b1] : List Event).map
      Event.line).Nodup := by
    show ([some (.protocol .ms1), some (.protocol .ms0), some (.protocol .bs1)] : List (Option Line)).Nodup
    decide
  rw [frameSteps, List.map_append, onLine_append, onLine_append, onLine_eq_of_perm perm once, transmit.onLine]
  rfl

/-! ### Before the pulse of an attempt -/

/-- The events of an attempt of a write before its commit pulse, each group in the model's order (R112, R114). -/
def writeSetup (cmd value : Byte) (loc : FuseLocation) : List Event :=
  [.dly .preWrite] ++ (armSteps ++ powerUpSteps).map MicroStep.event ++
    (frameSteps true false false cmd).map MicroStep.event ++ (frameSteps false true false value).map MicroStep.event ++
    writeSelectEvents loc ++ [.tmArm 200#16, .set (.protocol .wr) false]

/-- The wires as a commit pulse needs them: selection, data tuple, supplies, value (R53, R151). -/
def SelectionStands (loc : FuseLocation) (value : Byte) (wire : Line → Latch) : Prop :=
  wire (.protocol .bs1) = some (decide (loc = .high ∨ loc = .lock)) ∧
  wire (.protocol .bs0) = some (decide (loc = .extended)) ∧
  wire (.protocol .ms1) = some false ∧ wire (.protocol .ms0) = some true ∧
  wire .vccEn = some true ∧ wire .vppEn = some true ∧
  ∀ i : Fin 8, wire (.protocol (.d i)) = some (value.getLsbD i.val)

/-- The setup determines each of these lines: it drives them all, so that nothing before it matters. -/
theorem selectionStands_writeSetup : SelectionStands loc value (wireAt s (pre ++ writeSetup cmd value loc)) := by
  refine ⟨?_, ?_, ?_, ?_, ?_, ?_, fun i => ?_⟩ <;> simp only [wireAt, replayDir_append, replayLvl_append]
  case refine_7 => fin_cases i <;> cases loc <;> rfl
  all_goals cases loc <;> rfl

/-- An attempt is its setup, its one pulse, and events without another (R93, R112). -/
theorem WriteAttemptEvents.split (h : WriteAttemptEvents p cmd loc value polls x evs) :
    ∃ setup rest, evs = setup ++ .set (.protocol .wr) true :: rest ∧
      ∀ l, onLine l setup = onLine l (writeSetup cmd value loc) := by
  obtain ⟨enter, command, data, guard, exit, back, hEnter, hCommand, hData, hGuard, -, -, rfl⟩ := h
  refine ⟨[.dly .preWrite] ++ enter ++ command ++ data ++ writeSelectEvents loc ++
      [.tmArm 200#16, .set (.protocol .wr) false],
    .dly .wrSettle :: polls.map (.smp .rdy) ++ [.tmDisarm] ++ pairEvents false false ++ exit ++ back, ?_, fun l => ?_⟩
  · rw [hGuard]
    simp
  · simp only [writeSetup, onLine_append, hEnter.onLine, hCommand.onLine, hData.onLine]

theorem not_pulse_of_commitPulses (one : commitPulses (a ++ .set (.protocol .wr) true :: b) = 1) :
    .set (.protocol .wr) true ∉ a ∧ .set (.protocol .wr) true ∉ b := by
  rw [commitPulses, List.count_append, List.count_cons_self] at one
  exact ⟨List.count_eq_zero.mp (by omega), List.count_eq_zero.mp (by omega)⟩

/-- At the pulse of an attempt the selection stands, whatever happened before the attempt. -/
theorem selectionStands_of_attempt
    (attempt : WriteAttemptEvents p cmd loc value polls x (sequencerEvents (before ++ .set (.protocol .wr) true :: after))) :
    SelectionStands loc value (wireAt s (pre ++ before)) := by
  obtain ⟨setup, rest, cut, canonical⟩ := attempt.split
  obtain ⟨fresh, last⟩ := not_pulse_of_commitPulses (cut ▸ attempt.commitPulses)
  have cut' : setup ++ .set (.protocol .wr) true :: rest =
      sequencerEvents before ++ .set (.protocol .wr) true :: sequencerEvents after := by
    rw [← cut, sequencerEvents, List.filter_append, List.filter_cons_of_pos (by decide)]
  obtain ⟨rfl, -, -⟩ := (List.append_cons_inj_of_notMem fresh last).mp cut'
  have wires : wireAt s (pre ++ before) = wireAt s (pre ++ writeSetup cmd value loc) :=
    funext fun l => wireAt_congr ((onLine_sequencerEvents l before).symm.trans (canonical l))
  exact wires ▸ selectionStands_writeSetup

/-- A pulse among the attempts is one attempt's, and the attempts before that one come before it. -/
theorem selectionStands_of_attempts {attempts : List Attempt}
    (h : WriteAttemptsEvents p cmd loc value attempts added) (pulse : added = before ++ .set (.protocol .wr) true :: after) :
    SelectionStands loc value (wireAt s (pre ++ before)) := by
  induction h generalizing pre before with
  | nil => simp at pulse
  | cons a rest mine more one fit decided others ih =>
    rcases List.append_eq_append_iff.mp pulse with ⟨c, rfl, later⟩ | ⟨c, earlier, tail⟩
    · rw [← List.append_assoc]
      exact ih later
    · cases c with
      | nil =>
        rw [List.append_nil] at earlier
        subst earlier
        have := ih (pre := pre ++ mine) (before := []) tail.symm
        rwa [List.append_nil] at this
      | cons e c =>
        obtain ⟨rfl, -⟩ := List.cons.inj tail
        exact selectionStands_of_attempt (earlier ▸ one)

end Sys2Proof.Machine

namespace Sys2Proof

open Machine

/-- Settles O46: there are as many pulses as attempts, at least one; and each is its attempt's, whose events before it put
selection, tuple, value and supplies on the lines. -/
theorem selectionStandsAtTheCommitPulse : Obligations.SelectionStandsAtTheCommitPulse := by
  intro i cmd loc value s write known free
  obtain ⟨t, before, last, added, ran, wrote, -⟩ := singleWrite_completes write known free
  have pulses : commitPulses added = (before ++ [last]).length := wrote.events.commitPulses
  have one : 0 < commitPulses added := by simp [pulses]
  exact ⟨_, added, ran, wrote.trace, List.count_pos_iff.mp one,
    fun _ _ pulse => selectionStands_of_attempts (pre := []) wrote.events pulse⟩

end Sys2Proof
end

section
/-! PROOFS. The five line primitives: what each makes of its own line, that it leaves every other line alone, and where it
faults (R60 to R63). -/

namespace Sys2Proof.Machine

variable {s : State} {l : PLine} {k : Line}

theorem did_performed {e : Event} (own : e ≠ .tmFire) (s : State) : Performed s (s.did e) [e] :=
  (did_passed own s).performed.imp fun _ ⟨trace, events⟩ => ⟨trace, by simpa [own] using events⟩

/-- A point of the countdown is no event of the sequencer (R28, R47). -/
theorem countdown_performed (s : State) : Performed s s.countdown [] :=
  ⟨_, (countdown_passed s).trace, by split <;> simp⟩

/-- A micro-step's one event, after the countdown's point (R47). -/
theorem performed_afterPoint {c : State} {e : Event} (own : e ≠ .tmFire) (trace : c.tr = s.countdown.tr) :
    Performed s (c.did e) [e] := by
  have point : Performed s c [] := (countdown_performed s).imp fun _ ⟨grown, silent⟩ => ⟨trace.trans grown, silent⟩
  exact point.trans (did_performed own c)

theorem canSet_iff : s.canSet k = true ↔ ∀ p, k = .protocol p → s.dirOf p = .output := by
  cases k <;> simp [State.canSet]

theorem microStep_set_of_canSet (W : World) (v : Level) (allowed : s.canSet k = true) :
    microStep W (.set k v) s = .ok ((s.countdown.level k (some v)).did (.set k v)) :=
  if_pos allowed

theorem microStep_set_of_not_output (W : World) (v : Level) (other : s.dirOf l ≠ .output) :
    microStep W (.set (.protocol l) v) s = .error (.lineDirection (.protocol l) s.countdown) :=
  if_neg (by simpa [State.canSet] using other)

theorem sample_of_not_input (W : World) (other : s.dirOf l ≠ .input) :
    sample W l s = .error (.lineDirection (.protocol l) s.countdown) :=
  if_neg other

theorem level_lvlOf_of_ne {j : Line} (v : Latch) (s : State) (other : j ≠ k) : (s.level k v).lvlOf j = s.lvlOf j :=
  (State.level_lvlOf k v s j).trans (if_neg other.symm)

theorem ne_of_protocol_not_mem {j : PLine} (other : .protocol j ∉ [Line.protocol l]) : l ≠ j :=
  fun same => other (same ▸ List.mem_cons_self)

theorem drive_linesKept (l : PLine) (v : Level) (s : State) : LinesKeptBut [.protocol l] s (s.drive l v) := by
  refine ⟨fun k other => ?_, fun k other => ?_⟩
  · exact level_lvlOf_of_ne _ s (List.ne_of_not_mem_cons other)
  · exact (State.drive_dirOf l v s k).trans (if_neg (ne_of_protocol_not_mem other))

theorem release_linesKept (l : PLine) (s : State) : LinesKeptBut [.protocol l] s (s.release l) := by
  refine ⟨fun k other => ?_, fun k other => ?_⟩
  · exact level_lvlOf_of_ne _ s (List.ne_of_not_mem_cons other)
  · exact (State.release_dirOf l s k).trans (if_neg (ne_of_protocol_not_mem other))

end Sys2Proof.Machine

namespace Sys2Proof

open Machine

/-- Settles O13: where the line can be set, its level latch alone is written; a protocol line that is no output is the
fault's. -/
theorem setRule : Obligations.SetRule := by
  refine fun W l v s => ⟨fun outputs => ?_, fun p line other => ?_⟩
  · refine ⟨_, microStep_set_of_canSet W v (canSet_iff.mpr outputs), ?_, fun k ne => ?_, rfl, performed_afterPoint nofun rfl⟩
    · exact (State.level_lvlOf l (some v) s l).trans (if_pos rfl)
    · exact level_lvlOf_of_ne (some v) s ne
  · subst line
    exact ⟨_, microStep_set_of_not_output W v other, rfl, rfl, countdown_performed s⟩

/-- Settles O14: neither primitive has a precondition, and each writes the direction and the level of its line. -/
theorem drvAndRelRule : Obligations.DrvAndRelRule := by
  refine fun W l s => ⟨fun v => ?_, ?_⟩
  · refine ⟨_, rfl, ?_, ?_, drive_linesKept l v s, performed_afterPoint nofun rfl⟩
    · exact (State.drive_dirOf l v s l).trans (if_pos rfl)
    · exact (State.drive_lvlOf l v s (.protocol l)).trans (if_pos rfl)
  · refine ⟨_, rfl, ?_, ?_, release_linesKept l s, performed_afterPoint nofun rfl⟩
    · exact (State.release_dirOf l s l).trans (if_pos rfl)
    · exact (State.release_lvlOf l s (.protocol l)).trans (if_pos rfl)

/-- Settles O15: the history asked about is the trace after the countdown's point. -/
theorem smpRule : Obligations.SmpRule := fun W _ s =>
  ⟨fun input => ⟨_, s.countdown.tr, sample_ok input, rfl, performed_afterPoint nofun rfl, rfl, rfl⟩,
    fun other => ⟨_, sample_of_not_input W other, countdown_performed s⟩⟩

end Sys2Proof
end

section
/-! PROOFS. The frame of the lines: every instruction moves no line but those its rule names; and the SignalController's two
operations, which go through in every state (R61, R65, R66, R70, R72 to R80, R93). -/

namespace Sys2Proof.Machine

variable {i : Instr} {ms : List MicroStep} {s t u : State} {evs added : List Event} {ls : List Line} {p1 p0 : Level}

/-! ### The lines an instruction moves -/

theorem mem_allLines (l : Line) : l ∈ allLines := by
  have protocol : ∀ p : PLine, .protocol p ∈ allLines := by decide
  cases l with
  | protocol p => exact protocol p
  | vccEn | vppEn => decide

theorem linesKeptBut_allLines (s t : State) : LinesKeptBut allLines s t :=
  ⟨fun _ other => absurd (mem_allLines _) other, fun _ other => absurd (mem_allLines _) other⟩

/-- The lines that some events change (R28). -/
def movedLines (evs : List Event) : List Line := evs.filterMap Event.line

theorem Performed.linesKept_of_subset (performed : Performed s t evs) (ran : exec i s = .next t)
    (moved : movedLines evs ⊆ ls) : LinesKeptBut ls s t :=
  performed.linesKept ran fun e mem _ line => moved (List.mem_filterMap.mpr ⟨e, mem, line⟩)

theorem movedLines_frameSteps (m1 m0 b1 : Level) (x : Byte) :
    movedLines ((frameSteps m1 m0 b1 x).map MicroStep.event) ⊆ frameLines := fun l mem =>
  let ⟨e, happened, line⟩ := List.mem_filterMap.mp mem
  frameSteps_lines e happened l line

theorem movedLines_transmitSteps (x : Byte) :
    movedLines ((transmitSteps x).map MicroStep.event) =
      dataLines.map .protocol ++ ([.protocol .clk, .protocol .clk] : List Line) := rfl

/-- A straight line moves the lines its instruction's rule names. -/
theorem movedLines_of_lineSteps (straight : lineSteps i = some ms) :
    movedLines (ms.map MicroStep.event) ⊆ writtenLines i := by
  cases i with
  | arm => cases straight; decide
  | transmitByte x =>
    cases straight
    rw [movedLines_transmitSteps]
    show _ ⊆ dataLines.map Line.protocol ++ [Line.protocol .clk]
    decide
  | loadCommand | loadAddressLow | loadData | frameCommand | frameAddressLow | frameData | cmdChipErase | cmdWriteFuse
    | cmdWriteLock | cmdReadSignature | cmdReadFuse =>
    cases straight
    exact movedLines_frameSteps ..
  | bselSet | bselClear | bselRdLow | bselRdHigh | bselRdExtended | bselRdLock | bselWrLow | bselWrHigh | bselWrExtended
    | bs1High | bselWrLock =>
    cases straight
    exact fun _ => id
  | _ => cases straight

/-- `RECEIVE_BYTE` moves the data lines, which it releases, and `OE` (R76). -/
theorem Received.linesKept (received : Received s t added) :
    LinesKeptBut (dataLines.map .protocol ++ ([.protocol .oe] : List Line)) s t := by
  refine ⟨fun l other => ?_, fun l other => ?_⟩
  · obtain ⟨data, oe⟩ := not_or.mp (List.mem_append.not.mp other)
    rw [received.lvl, if_neg (List.ne_of_not_mem_cons oe), if_neg data]
  · have data : l ∉ dataLines := fun mem => other (List.mem_append_left _ (List.mem_map_of_mem mem))
    rw [received.dir, if_neg data]

/-- `WR_GUARD` moves the write strobe alone (R93). -/
theorem Guarded.linesKept {ready : Level} {g : GuardResult} {polls : List Level} {early late : List Event}
    (guarded : Guarded ready s t g polls early late) : LinesKeptBut [.protocol .wr] s t :=
  ⟨fun l other => (guarded.lvl l).trans (if_neg (List.ne_of_not_mem_cons other)), fun l _ => congrFun guarded.dir l⟩

/-- Every instruction that answers a next state moves no line but those its rule names. -/
theorem exec_linesKept (h : exec i s = .next t) : LinesKeptBut (writtenLines i) s t := by
  cases straight : lineSteps i with
  | some ms =>
    obtain ⟨u, ran, rfl⟩ := perform_returning_eq_next ((exec_of_lineSteps straight s).symm.trans h)
    obtain ⟨added, passed, events⟩ := (runSteps_ran (lineSteps_lineProgram straight).plain ran).passed
    have performed : Performed s (u.finish .done) (ms.map MicroStep.event) := ⟨added, passed.trace, events⟩
    exact performed.linesKept_of_subset h (movedLines_of_lineSteps straight)
  | none =>
    cases i with
    | enterProg =>
      obtain ⟨u, ran, rfl⟩ := perform_returning_eq_next (program := enterProg Config.world) h
      obtain ⟨added, entered⟩ := enterProg_eq_ok ran
      have performed : Performed s (u.finish .done) _ := ⟨added, entered.passed.trace, entered.events⟩
      exact performed.linesKept_of_subset h (by decide)
    | receiveByte =>
      obtain ⟨r, u, ran, rfl⟩ := perform_eq_next ((exec_receiveByte s).symm.trans h)
      obtain ⟨v, ran', same⟩ := bind_eq_ok ran
      cases same
      obtain ⟨_, received⟩ := receiveByte_eq_ok ran'
      exact received.linesKept
    | wrGuard =>
      obtain ⟨r, u, ran, rfl⟩ := perform_eq_next ((exec_wrGuard s).symm.trans h)
      obtain ⟨⟨g, v⟩, ran', same⟩ := bind_eq_ok ran
      cases same
      obtain ⟨_, _, _, _, guarded⟩ := wrGuard_eq_ok ran'
      exact guarded.linesKept
    | tmArm n =>
      obtain ⟨u, ran, rfl⟩ := perform_returning_eq_next ((exec_tmArm n s).symm.trans h)
      cases ran
      exact ⟨fun _ _ => rfl, fun _ _ => rfl⟩
    | tmDisarm =>
      obtain ⟨u, ran, rfl⟩ := perform_returning_eq_next ((exec_tmDisarm s).symm.trans h)
      cases ran
      exact ⟨fun _ _ => rfl, fun _ _ => rfl⟩
    | tmTimedOut =>
      obtain ⟨r, u, ran, rfl⟩ := perform_eq_next ((exec_tmTimedOut s).symm.trans h)
      cases ran
      exact ⟨fun _ _ => rfl, fun _ _ => rfl⟩
    | quiesce | exitProg | identify | readFuse | writeFuse | writeLock | writeFuseDefaults | eraseDevice =>
      exact linesKeptBut_allLines s t
    | _ => cases straight

/-! ### The SignalController -/

/-- An operation that quiesces completes in every state (R65, R67, R71). -/
theorem perform_quiesceLines (i : Instr) (s : State) :
    ∃ t added, perform i (returning .done (quiesceLines Config.world)) s = .next (t.finish .done) ∧
      Quieted (s.begin i) t added := by
  obtain ⟨t, added, ran, quieted⟩ := quiesceLines_spec Config.world (s.begin i)
  exact ⟨t, added, perform_ok (by simp only [returning, ran]; rfl), quieted⟩

theorem armed_of_armSteps {f : PLine → Dir} {g : Line → Latch} (dir : t.dirOf = dirsAfter armSteps f)
    (lvl : t.lvlOf = lvlsAfter armSteps g) : Armed t := by
  unfold Armed State.drives
  rw [dir, lvl]
  exact ⟨⟨rfl, rfl⟩, ⟨rfl, rfl⟩, ⟨rfl, rfl⟩, ⟨rfl, rfl⟩, ⟨rfl, rfl⟩, ⟨rfl, rfl⟩, ⟨rfl, rfl⟩, ⟨rfl, rfl⟩⟩

theorem armSteps_events : ArmEvents (armSteps.map MicroStep.event) := .refl _

end Sys2Proof.Machine

namespace Sys2Proof

open Machine

/-- Settles O50: a straight line moves the lines of its events, a reception and a guard those they write, and an operation
that opens or closes a session may move every line. -/
theorem unwrittenLinesKeep : Obligations.UnwrittenLinesKeep := fun _ _ _ => exec_linesKept

/-- Settles O18: the program quiesces whatever the state, and its canonical order is one of the rule's. -/
theorem quiesceRule : Obligations.QuiesceRule := by
  refine ⟨rfl, fun s => ?_⟩
  obtain ⟨t, added, ran, quieted⟩ := perform_quiesceLines .quiesce s
  have kept := quieted.kept
  exact ⟨_, _, ran, rfl, ⟨added, quieted.passed.trace, quieted.events⟩, quiesceSteps_events, quieted.quiesced,
    quieted.lvl, kept.session, kept.engState, kept.sel, quieted.passed.onlyFires⟩

/-- Settles O20: `ARM` is a straight line of drives, none of which has a precondition. -/
theorem armRule : Obligations.ArmRule := by
  refine ⟨rfl, fun s => ?_⟩
  have allowed : allAllowed armSteps s.dirOf := by simp [armSteps, allAllowed, MicroStep.allowed]
  obtain ⟨t, ran, completed⟩ := completes_of_lineSteps (i := .arm) rfl allowed
  exact ⟨t, _, ran, completed.result, completed.performed, armSteps_events, armed_of_armSteps completed.dir completed.lvl,
    exec_linesKept ran, completed.flags⟩

end Sys2Proof
end

section
/-! PROOFS. The framer's operations: a session opened and closed, a byte loaded, transmitted and received, and the byte-select
steps; what each leaves on the lines and where it faults (R70 to R80, R82). -/

namespace Sys2Proof.Machine

variable {i : Instr} {s : State} {x : Byte}

/-! ### Opening a session -/

/-- `ENTER_PROG` completes without a session (R70). -/
theorem enterProg_completes (free : s.session = false) :
    ∃ t added, exec .enterProg s = .next (t.finish .done) ∧ Entered (s.begin .enterProg) t added := by
  obtain ⟨t, added, ran, entered⟩ := enterProg_spec Config.world (s := s.begin .enterProg) free
  exact ⟨t, added, perform_ok (by simp only [returning, ran]; rfl), entered⟩

/-- The busy/ready line apart, `ENTER_PROG` leaves the control lines at the levels of its `ARM` (R66, R70). -/
theorem Entered.drives {t : State} {added : List Event} (entered : Entered s t added) :
    t.drives .wr true ∧ t.drives .oe true ∧ t.drives .ms1 false ∧ t.drives .ms0 false ∧
    t.drives .bs1 false ∧ t.drives .bs0 false ∧ t.drives .clk false := by
  unfold State.drives
  rw [entered.dir, entered.lvl]
  exact ⟨⟨rfl, rfl⟩, ⟨rfl, rfl⟩, ⟨rfl, rfl⟩, ⟨rfl, rfl⟩, ⟨rfl, rfl⟩, ⟨rfl, rfl⟩, ⟨rfl, rfl⟩⟩

/-- `ENTER_PROG` in a session is a model fault before any event (R70, R145). -/
theorem exec_enterProg_in_session (active : s.session = true) :
    exec .enterProg s = .fault (.sessionActive (s.begin .enterProg)) := by
  have stopped := enterProg_in_session Config.world (s := s.begin .enterProg) active
  exact perform_error (by simp only [returning, stopped]; rfl)

/-! ### Transmitting a byte -/

theorem wireAt_transmitSteps_data (s : State) (x : Byte) (j : Fin 8) :
    wireAt s ((transmitSteps x).map MicroStep.event) (.protocol (.d j)) = some (x.getLsbD j.val) := by
  fin_cases j <;> rfl

theorem transmitByte_faultsAt (x : Byte) (s : State) : FaultsAt [.clk] (.transmitByte x) s := by
  have sets : setLines (transmitSteps x) = [.clk, .clk] := rfl
  refine faultsAt_of_lineSteps (ms := transmitSteps x) rfl (sets ▸ by decide) fun allowed => ?_
  simpa using (transmitSteps_allowed x).mp allowed

theorem transmitByte_completes (x : Byte) (clk : s.dirOf .clk = .output) :
    ∃ t, exec (.transmitByte x) s = .next t ∧ Completed (transmitSteps x) .done s t :=
  completes_of_lineSteps rfl ((transmitSteps_allowed x).mpr clk)

/-! ### Receiving a byte -/

/-- `RECEIVE_BYTE` completes where `OE` is an output, with the byte it leaves in `RX` (R76). -/
theorem receiveByte_completes (oe : s.dirOf .oe = .output) :
    ∃ t added, exec .receiveByte s = .next (t.finish (.byte t.rx)) ∧ Received (s.begin .receiveByte) t added := by
  obtain ⟨t, added, ran, received⟩ := receiveByte_spec Config.world (s := s.begin .receiveByte) oe
  refine ⟨t, added, (exec_receiveByte s).trans (perform_ok ?_), received⟩
  simp only [receiveProgram, ran]
  rfl

/-- What `RECEIVE_BYTE` does first is to lower `OE` (R61, R76). -/
theorem receiveByte_faultsAt (s : State) : FaultsAt [.oe] .receiveByte s := by
  rintro ⟨l, mem, other⟩
  obtain rfl := List.mem_singleton.mp mem
  have stopped := microStep_set_of_not_output Config.world (s := s.begin .receiveByte) false other
  refine ⟨.oe, mem, other, (s.begin .receiveByte).countdown, (exec_receiveByte s).trans (perform_error ?_)⟩
  simp only [receiveProgram, receiveByte, stopped]
  rfl

theorem Received.data {t : State} {added : List Event} (received : Received s t added) :
    ∀ l ∈ dataLines, t.dirOf l = .input ∧ t.lvlOf (.protocol l) = none := by
  intro l data
  have notOe : Line.protocol l ≠ .protocol .oe := by
    rintro ⟨⟩
    exact absurd data (by decide)
  exact ⟨(received.dir l).trans (if_pos data),
    (received.lvl _).trans ((if_neg notOe).trans (if_pos (List.mem_map_of_mem data)))⟩

theorem Received.oe {t : State} {added : List Event} (received : Received s t added) (output : s.dirOf .oe = .output) :
    t.drives .oe true :=
  ⟨(received.dir .oe).trans ((if_neg (by decide)).trans output), (received.lvl _).trans (if_pos rfl)⟩

theorem Received.flags {t : State} {added : List Event} (received : Received s t added) : FlagsKept s t :=
  have kept := received.kept
  ⟨kept.session, kept.engState, kept.sel, received.passed.onlyFires⟩

end Sys2Proof.Machine

namespace Sys2Proof

open Machine

/-- Settles O19: its program is that of `QUIESCE`, which asks nothing of the state. -/
theorem exitProgRule : Obligations.ExitProgRule := by
  refine ⟨rfl, fun s => ?_⟩
  obtain ⟨t, added, ran, quieted⟩ := perform_quiesceLines .exitProg s
  have kept := quieted.kept
  exact ⟨_, _, ran, rfl, ⟨added, quieted.passed.trace, quieted.events⟩, quiesceSteps_events, quieted.quiesced,
    quieted.lvl, kept.session, kept.engState, kept.sel, quieted.passed.onlyFires⟩

/-- Settles O21: the program is a straight line of drives, sets of the supplies and a release, behind a check of the session. -/
theorem enterProgRule : Obligations.EnterProgRule := by
  refine ⟨rfl, fun s free => ?_, fun s active => ⟨_, exec_enterProg_in_session active, rfl, rfl, rfl⟩⟩
  obtain ⟨t, added, ran, entered⟩ := enterProg_completes free
  obtain ⟨wr, oe, ms1, ms0, bs1, bs0, clk⟩ := entered.drives
  have kept := entered.kept
  exact ⟨_, _, ran, rfl, ⟨added, entered.passed.trace, entered.events⟩, enterSteps_events, entered.inSession,
    wr, oe, ms1, ms0, bs1, bs0, clk, exec_linesKept ran, kept.engState, kept.sel, entered.passed.onlyFires⟩

/-- Settles O22: each load operation's word carries its byte, and the operation frames it with its tuple. -/
theorem loadOperationsRule : Obligations.LoadOperationsRule := fun x =>
  ⟨⟨decodeOfEncode (.loadCommand x) rfl, framesByte_of_framedByte rfl⟩,
    ⟨decodeOfEncode (.loadAddressLow x) rfl, framesByte_of_framedByte rfl⟩,
    ⟨decodeOfEncode (.loadData x) rfl, framesByte_of_framedByte rfl⟩⟩

/-- Settles O25: the wires after the operation are what its events make of them. -/
theorem transmitByteRule : Obligations.TransmitByteRule := by
  refine fun x => ⟨decodeOfEncode (.transmitByte x) rfl, fun s => ⟨transmitByte_faultsAt x s, fun clk => ?_⟩⟩
  obtain ⟨t, ran, completed⟩ := transmitByte_completes x clk
  have performed := completed.performed
  have wire := performed.wire ran
  exact ⟨t, _, ran, completed.result, performed, transmitSteps_events x,
    drivenByte_of_wires fun j => wire ▸ wireAt_transmitSteps_data s x j, drives_iff_wire.mpr (wire ▸ if_pos clk),
    exec_linesKept ran, completed.flags⟩

/-- Settles O26: the reception's program releases and samples each line in turn, and `RX` is the byte of the samples. -/
theorem receiveByteRule : Obligations.ReceiveByteRule := by
  refine ⟨rfl, fun s => ⟨receiveByte_faultsAt s, fun oe => ?_⟩⟩
  obtain ⟨t, added, ran, received⟩ := receiveByte_completes oe
  exact ⟨_, _, t.rx, ran, rfl, rfl, ⟨added, received.passed.trace, rfl⟩, received.events, received.data, received.oe oe,
    exec_linesKept ran, received.flags⟩

/-- Settles O27: the word carries the pair in its last two bits, and the operation is the byte-select step of the pair. -/
theorem bselSetRule : Obligations.BselSetRule := fun p1 p0 =>
  ⟨by cases p1 <;> cases p0 <;> rfl, selectsPair_of_lineSteps rfl⟩

/-- Settles O28: it is the byte-select step of the pair (0, 0). -/
theorem bselClearRule : Obligations.BselClearRule := ⟨rfl, selectsPair_of_lineSteps rfl⟩

/-- Settles O29: it is the one `SET` of `BS[1]`. -/
theorem bs1HighRule : Obligations.Bs1HighRule := ⟨rfl, raisesBs1_of_lineSteps rfl⟩

end Sys2Proof
end

section
/-! PROOFS. The engine's operations in a session: the entry selected and the gate open, each runs its program, which stops where
it would open a session of its own and has by then moved no line (R70, R105, R110, R124). -/

namespace Sys2Proof.Machine

variable {α β : Type} {W : World} {i : Instr} {program : Program} {s : State} {o : Except Fault α}

/-! ### Programs that stop at a session with the lines as they were -/

/-- A program begun in `s` stopped at an active session and left the lines as they were in `s` (R70, R124). -/
def StopsUntouched (s : State) (o : Except Fault α) : Prop :=
  ∃ left, o = .error (.sessionActive left) ∧ left.dirOf = s.dirOf ∧ left.lvlOf = s.lvlOf

theorem StopsUntouched.bind (h : StopsUntouched s o) (k : α → Except Fault β) : StopsUntouched s (o >>= k) := by
  obtain ⟨left, rfl, lines⟩ := h
  exact ⟨left, rfl, lines⟩

theorem enterProg_stops (active : s.session = true) : StopsUntouched s (enterProg W s) :=
  ⟨s, enterProg_in_session W active, rfl, rfl⟩

theorem identify_stops (active : s.session = true) : StopsUntouched s (identify W s) := (enterProg_stops active).bind _

theorem readRaw_stops (loc : FuseLocation) (active : s.session = true) : StopsUntouched s (readRaw W loc s) :=
  (enterProg_stops active).bind _

theorem eraseAttempt_stops (active : s.session = true) : StopsUntouched s (eraseAttempt W s) :=
  (enterProg_stops active).bind _

/-- The wait before an attempt moves no line, and then the attempt opens its session (R112). -/
theorem writeAttempt_stops (cmd : Byte) (loc : FuseLocation) (value : Byte) (active : s.session = true) :
    StopsUntouched s (writeAttempt W cmd loc value s) := by
  have waited : runSteps W [.dly .preWrite] s = .ok (s.countdown.did (.dly .preWrite)) := rfl
  have stops : StopsUntouched s (enterProg W (s.countdown.did (.dly .preWrite))) := enterProg_stops active
  unfold writeAttempt
  rw [waited]
  exact stops.bind _

theorem writeLocation_stops (cmd : Byte) (loc : FuseLocation) (value : Byte) (active : s.session = true) :
    StopsUntouched s (writeLocation W cmd loc value s) :=
  (writeAttempt_stops (s := { s with att := 1 }) cmd loc value active).bind _

theorem readProgram_stops (loc : FuseLocation) (active : s.session = true) : StopsUntouched s (readProgram loc s) :=
  (readRaw_stops loc active).bind _

theorem writeProgram_stops (cmd : Byte) (loc : FuseLocation) (value : Byte) (active : s.session = true) :
    StopsUntouched s (writeProgram cmd loc value s) :=
  (writeLocation_stops cmd loc value active).bind _

theorem defaultsProgram_stops (set : Config.FuseSet) (active : s.session = true) :
    StopsUntouched s (defaultsProgram set s) :=
  ((writeLocation_stops _ .low set.low active).bind _).bind _

theorem eraseProgram_stops (active : s.session = true) : StopsUntouched s (eraseProgram s) :=
  ((eraseAttempt_stops (s := { s with att := 1 }) active).bind _).bind _

/-! ### The operations -/

/-- What `EngineOperationInASessionFaults` asks of an answer from `s`. -/
def FaultsUntouched (s : State) (o : Host.Outcome State Fault Refusal) : Prop :=
  ∃ left, o = .fault (.sessionActive left) ∧ left.dirOf = s.dirOf ∧ left.lvlOf = s.lvlOf

theorem perform_faultsUntouched (h : StopsUntouched (s.begin i) (program (s.begin i))) :
    FaultsUntouched s (perform i program s) := by
  obtain ⟨left, stopped, lines⟩ := h
  exact ⟨left, perform_error stopped, lines⟩

theorem gated_faultsUntouched (known : s.engState = .deviceKnown)
    (h : StopsUntouched (s.begin i) (program (s.begin i))) : FaultsUntouched s (gated i program s) :=
  gated_of_known known ▸ perform_faultsUntouched h

end Sys2Proof.Machine

namespace Sys2Proof

open Machine

/-- Settles O44: the gate is open and an entry selected, so the operation's program is begun, and it stops as it opens its
session. -/
theorem engineOperationInASessionFaults : Obligations.EngineOperationInASessionFaults := by
  intro i s op wf active known selected
  show FaultsUntouched s (exec i s)
  cases i with
  | identify => exact perform_faultsUntouched (identify_stops active)
  | readFuse loc => exact gated_faultsUntouched known (readProgram_stops loc active)
  | writeFuse loc value =>
    cases loc with
    | lock => cases wf
    | low => exact gated_faultsUntouched known (writeProgram_stops _ .low value active)
    | high => exact gated_faultsUntouched known (writeProgram_stops _ .high value active)
    | extended => exact gated_faultsUntouched known (writeProgram_stops _ .extended value active)
  | writeLock value => exact gated_faultsUntouched known (writeProgram_stops _ .lock value active)
  | writeFuseDefaults b =>
    obtain ⟨d, entry⟩ := Option.isSome_iff_exists.mp selected
    rw [exec_writeFuseDefaults_of_selected b entry]
    exact gated_faultsUntouched known (defaultsProgram_stops (defaultSet d b) active)
  | eraseDevice => exact gated_faultsUntouched known (eraseProgram_stops active)
  | _ => cases op

end Sys2Proof
end

section
/-! PROOFS. The TimeoutMonitor: a point of the countdown, the countdown that is not postponed for ever, and the monitor's three
operations, which complete in every state (R90 to R92, R94, R96). -/

namespace Sys2Proof.Machine

variable {s : State}

/-! ### The countdown -/

/-- A point at which the countdown does not fire writes the free delay alone (R94; log 6). -/
theorem countdown_of_not_fires (quiet : s.fires = false) : s.countdown = { s with fireIn := s.countdown.fireIn } := by
  simp [State.countdown, quiet]

/-- Between `s` and `t` the countdown fired, once, and nothing else happened (R94). -/
structure FiredOnce (s t : State) : Prop where
  flag : t.tmFlag = true
  stopped : t.tmRun = false
  trace : t.tr = s.tr ++ [.tmFire]

theorem countdown_firedOnce (fires : s.fires = true) : FiredOnce s s.countdown := by
  rw [countdown_eq_tmFire fires]
  exact ⟨rfl, rfl, rfl⟩

/-- A running countdown fires at the point after those its free delay counts (R96; log 6). -/
theorem countdown_iterate_firedOnce {n : Nat} (running : s.tmRun = true) (delay : s.fireIn = n) :
    FiredOnce s (State.countdown^[n + 1] s) := by
  induction n generalizing s with
  | zero => exact countdown_firedOnce (by simp [State.fires, running, delay])
  | succ n ih =>
    have quiet : s.fires = false := by simp [State.fires, delay]
    obtain ⟨flag, stopped, trace⟩ := ih (s := s.countdown) (by simp [running, quiet]) (by simp [running, delay])
    exact ⟨flag, stopped, trace.trans (by simp [quiet])⟩

/-! ### `TM_ARM` and `TM_DISARM` -/

/-- The state after `TM_ARM(n)`, the point before it included (R90). -/
def State.afterArm (W : World) (n : BitVec 16) (s : State) : State := (s.countdown.did (.tmArm n)).armTimer W n

/-- The state after `TM_DISARM`, the point before it included (R91). -/
def State.afterDisarm (s : State) : State := s.countdown.disarmTimer.did .tmDisarm

theorem exec_tmArm_eq_next (n : BitVec 16) (s : State) :
    exec (.tmArm n) s = .next (((s.begin (.tmArm n)).afterArm Config.world n).finish .done) :=
  (exec_tmArm n s).trans (perform_ok rfl)

theorem exec_tmDisarm_eq_next (s : State) : exec .tmDisarm s = .next ((s.begin .tmDisarm).afterDisarm.finish .done) :=
  (exec_tmDisarm s).trans (perform_ok rfl)

theorem afterArm_performed (W : World) (n : BitVec 16) (s : State) : Performed s (s.afterArm W n) [.tmArm n] :=
  performed_afterPoint (e := .tmArm n) nofun rfl

/-- Before its event `TM_ARM` adds to the trace at most a firing of the countdown it restarts (R90, R94). -/
theorem afterArm_trace (W : World) (n : BitVec 16) (s : State) : ∃ early,
    (s.afterArm W n).tr = s.tr ++ (early ++ [.tmArm n]) ∧ (early = [] ∨ early = [.tmFire]) := by
  cases fires : s.fires with
  | false => exact ⟨[], by simp [State.afterArm, fires], .inl rfl⟩
  | true => exact ⟨[.tmFire], by simp [State.afterArm, fires], .inr rfl⟩

/-- A disarm leaves the flag, which the countdown's point before it can have set (R91, R94). -/
theorem afterDisarm_cases (s : State) : ∃ added, s.afterDisarm.tr = s.tr ++ (added ++ [.tmDisarm]) ∧
    ((added = [] ∧ s.afterDisarm.tmFlag = s.tmFlag) ∨
      (added = [.tmFire] ∧ s.tmRun = true ∧ s.afterDisarm.tmFlag = true)) := by
  cases fires : s.fires with
  | false => exact ⟨[], by simp [State.afterDisarm, fires], .inl ⟨rfl, by simp [State.afterDisarm, fires]⟩⟩
  | true =>
    have running : s.tmRun = true := (Bool.and_eq_true_iff.mp fires).1
    exact ⟨[.tmFire], by simp [State.afterDisarm, fires], .inr ⟨rfl, running, by simp [State.afterDisarm, fires]⟩⟩

/-- The word of `TM_ARM(n)` is its operation byte before the deadline (R56, R57 (a)). -/
theorem encode_tmArm (n : BitVec 16) : encode (.tmArm n) = .opw24 (0x20#8 ++ n) := by
  conv_rhs => rw [← deadline_bytes n]
  exact congrArg CodeWord.opw24 BitVec.append_assoc

end Sys2Proof.Machine

namespace Sys2Proof

open Machine

/-- Settles O16: a point that fires is `TM_FIRE`, and one that does not writes the free delay alone. -/
theorem countdownRule : Obligations.CountdownRule := by
  intro s
  cases fires : s.fires with
  | false => exact .inl (countdown_of_not_fires fires)
  | true =>
    refine .inr ⟨(Bool.and_eq_true_iff.mp fires).1, ?_⟩
    rw [countdown_eq_tmFire fires]
    rfl

/-- Settles O17: each point counts the free delay down, and at 0 the countdown fires. -/
theorem countdownFires : Obligations.CountdownFires := fun s running =>
  have fired := countdown_iterate_firedOnce running rfl
  ⟨s.fireIn + 1, fired.flag, fired.stopped, fired.trace⟩

/-- Settles O31: `TM_ARM` asks nothing of the state, and its bits are those of a fresh countdown. -/
theorem tmArmRule : Obligations.TmArmRule := by
  refine fun n => ⟨encode_tmArm n ▸ decodeOfEncode (.tmArm n) rfl, fun s => ?_⟩
  have ran := exec_tmArm_eq_next n s
  exact ⟨_, ran, rfl, afterArm_performed Config.world n (s.begin (.tmArm n)), rfl, rfl, rfl, exec_linesKept ran, rfl, rfl,
    rfl⟩

/-- Settles O32: `TM_DISARM` asks nothing of the state, and only the countdown's point before it can have set the flag. -/
theorem tmDisarmRule : Obligations.TmDisarmRule := by
  refine ⟨rfl, fun s => ?_⟩
  have ran := exec_tmDisarm_eq_next s
  obtain ⟨added, trace, flag⟩ := afterDisarm_cases (s.begin .tmDisarm)
  exact ⟨_, added, ran, rfl, trace, flag, rfl, rfl, exec_linesKept ran, rfl, rfl, rfl⟩

/-- Settles O33: its program reads the flag and has no micro-step. -/
theorem tmTimedOutRule : Obligations.TmTimedOutRule :=
  ⟨rfl, fun s => (exec_tmTimedOut s).trans (perform_ok (t := s.begin .tmTimedOut) rfl)⟩

end Sys2Proof
end

section
/-! PROOFS. `WR_GUARD`: where it goes through and what it then leaves, where it faults, and the timed refinement (R61, R63, R93,
R95, R97 to R99). -/

namespace Sys2Proof.Machine

variable {W : World} {s t u : State} {g : GuardResult} {polls : List Level} {early during : List Event} {r v : Level}

/-! ### The polls -/

/-- The state after the last poll and its `TM_DISARM` (R93, R95). -/
def State.afterLastPoll (r : Level) (s : State) : State := (s.countdown.polled r).disarmTimer.did .tmDisarm

/-- A poll is the loop's last, or the flag was not set in it and the loop goes on (R93). -/
theorem pollLoop_cases (W : World) (n : Nat) (s : State) :
    (∃ r, (pollLoop W n s).2 = s.afterLastPoll r) ∨
      ∃ m r, n = m + 1 ∧ s.countdown.tmFlag = false ∧ pollLoop W n s = pollLoop W m (s.countdown.polled r) := by
  cases n with
  | zero =>
    refine .inl ⟨W.answer s.countdown.tr .rdy, ?_⟩
    unfold pollLoop
    simp only
    split <;> rfl
  | succ m =>
    by_cases last : (s.countdown.tmFlag || W.answer s.countdown.tr .rdy == W.params.rdyReadyLevel) = true
    · exact .inl ⟨_, by unfold pollLoop; simp only [last, if_true]; rfl⟩
    · obtain ⟨unset, unready⟩ := Bool.or_eq_false_iff.mp (Bool.eq_false_of_not_eq_true last)
      exact .inr ⟨m, _, rfl, unset, pollLoop_more W m s unset (ne_of_beq_false unready)⟩

/-- After a firing no poll of `RDY` follows. -/
def NoPollAfterFire (evs : List Event) : Prop := evs.Pairwise fun e f => e = .tmFire → ∀ v, f ≠ .smp .rdy v

/-- What a poll loop begun in `s` adds to the trace, ending in `t`: no poll follows a firing but the last, and the last is
the only one if the flag was set before the loop (R93, R95). -/
def PolledInOrder (s t : State) : Prop :=
  ∃ before r, t.tr = s.tr ++ (before ++ [.smp .rdy r, .tmDisarm]) ∧ NoPollAfterFire before ∧
    (s.tmFlag = true → ∀ v, .smp .rdy v ∉ before)

theorem afterLastPoll_polledInOrder (r : Level) (s : State) : PolledInOrder s (s.afterLastPoll r) := by
  cases fires : s.fires with
  | false => exact ⟨[], r, by simp [State.afterLastPoll, State.polled, fires], .nil, nofun⟩
  | true =>
    exact ⟨[.tmFire], r, by simp [State.afterLastPoll, State.polled, fires], List.pairwise_singleton _ _, by simp⟩

/-- A poll that leaves the flag unset may precede others. -/
theorem PolledInOrder.afterPoll (h : PolledInOrder (s.countdown.polled r) t) (unset : s.countdown.tmFlag = false) :
    PolledInOrder s t := by
  obtain ⟨flag, quiet⟩ : s.tmFlag = false ∧ s.fires = false := by simpa using unset
  obtain ⟨before, last, trace, silent, -⟩ := h
  refine ⟨.smp .rdy r :: before, last, ?_, List.pairwise_cons.mpr ⟨nofun, silent⟩, fun set => by simp [flag] at set⟩
  simpa [State.polled, quiet] using trace

theorem pollLoop_polledInOrder (W : World) (n : Nat) (s : State) : PolledInOrder s (pollLoop W n s).2 := by
  induction n generalizing s with
  | zero =>
    rcases pollLoop_cases W 0 s with ⟨r, last⟩ | ⟨m, r, ⟨⟩, -⟩
    exact last ▸ afterLastPoll_polledInOrder r s
  | succ n ih =>
    rcases pollLoop_cases W (n + 1) s with ⟨r, last⟩ | ⟨m, r, ⟨⟩, unset, more⟩
    · exact last ▸ afterLastPoll_polledInOrder r s
    · exact more ▸ (ih (s.countdown.polled r)).afterPoll unset

/-! ### The commit pulse -/

/-- The micro-steps of a guard between its `TM_ARM` and its polls (R93). -/
def pulseSteps : List MicroStep := [.set (.protocol .wr) false, .set (.protocol .wr) true, .dly .wrSettle]

theorem runSteps_commitSteps (W : World) (s : State) :
    runSteps W commitSteps s = runSteps W pulseSteps (s.afterArm W 200#16) := rfl

theorem pulseSteps_plain : ∀ m ∈ pulseSteps, m.plain = true := by decide

theorem runSteps_pulseSteps (W : World) (wr : s.dirOf .wr = .output) : ∃ u, runSteps W pulseSteps s = .ok u :=
  runSteps_ok pulseSteps_plain ⟨wr, wr, trivial, trivial⟩

/-- A guard after its commit pulse samples `RDY` in its polls (R63, R93). -/
theorem wrGuard_of_pulsed (pulsed : runSteps W pulseSteps (s.afterArm W 200#16) = .ok u) :
    wrGuard W s = if s.dirOf .rdy = .input then .ok (pollLoop W u.fireIn u)
      else .error (.lineDirection (.protocol .rdy) u.countdown) := by
  have dir : u.dirOf = s.dirOf := (runSteps_ran pulseSteps_plain pulsed).dir
  simp only [wrGuard, runSteps_commitSteps, pulsed, bind, Except.bind, dir]
  rfl

theorem wrGuard_of_wr_not_output (W : World) (other : s.dirOf .wr ≠ .output) :
    wrGuard W s = .error (.lineDirection (.protocol .wr) (s.afterArm W 200#16).countdown) := by
  have stopped := microStep_set_of_not_output W (s := s.afterArm W 200#16) false other
  simp only [wrGuard, runSteps_commitSteps, pulseSteps, runSteps, stopped, bind, Except.bind]

/-- The commit pulse polls nothing, and a firing in it is seen by the first poll (R93, R95). -/
theorem PolledInOrder.afterPulse (h : PolledInOrder u t) (pulsed : Ran pulseSteps s u) :
    ∃ during r, t.tr = s.tr ++ (during ++ [.smp .rdy r, .tmDisarm]) ∧ NoPollAfterFire during := by
  obtain ⟨before, r, trace, silent, first⟩ := h
  obtain ⟨pulse, passed, events⟩ := pulsed.passed
  have unpolled : ∀ v, Event.smp .rdy v ∉ pulse := fun v polled => by
    have mem : Event.smp .rdy v ∈ pulse.filter own := List.mem_filter.mpr ⟨polled, rfl⟩
    rw [events] at mem
    exact absurd mem (by simp [pulseSteps, MicroStep.event])
  refine ⟨pulse ++ before, r, by rw [trace, passed.trace, List.append_assoc, List.append_assoc],
    List.pairwise_append.mpr ⟨?_, silent, ?_⟩⟩
  · exact List.pairwise_of_forall_mem_list fun _ _ f mem _ v poll => unpolled v (poll ▸ mem)
  · rintro _ fired _ mem rfl v rfl
    rcases passed.aged with ⟨unfired, -⟩ | ⟨-, -, flag, -⟩
    · exact unfired fired
    · exact first flag v mem

/-! ### The guard -/

/-- What a completed guard does between `s` and `t` with the countdown's part told apart: at most one firing before its
`TM_ARM`, and after the arm the events `during`, the last poll and the disarm (R93, R95). -/
structure GuardRan (W : World) (s t : State) (g : GuardResult) (polls : List Level) (early during : List Event) (r : Level) :
    Prop where
  guarded : Guarded W.params.rdyReadyLevel s t g polls early (during ++ [.smp .rdy r, .tmDisarm])
  once : early = [] ∨ early = [.tmFire]
  silent : NoPollAfterFire during

/-- The first event of the sequencer cuts a trace in one way. -/
theorem cut_at_first_own_unique {a b c d : List Event} {e : Event} (first : a.filter own = []) (first' : c.filter own = [])
    (sequencer : own e = true) (same : a ++ e :: b = c ++ e :: d) : a = c ∧ b = d := by
  have cut : ∀ {x y : List Event}, x.filter own = [] → (x ++ e :: y).dropWhile (fun k => !own k) = e :: y := by
    intro x y silent
    rw [List.dropWhile_append_of_pos (by simpa [List.filter_eq_nil_iff] using silent),
      List.dropWhile_cons_of_neg (by simp [sequencer])]
  have rest : e :: b = e :: d := (cut first).symm.trans ((congrArg _ same).trans (cut first'))
  exact ⟨List.append_cancel_right (rest ▸ same), (List.cons.inj rest).2⟩

/-- A guard goes through where `WR` is an output and `RDY` an input (R93). -/
theorem wrGuard_completes (W : World) (wr : s.dirOf .wr = .output) (rdy : s.dirOf .rdy = .input) :
    ∃ g t polls early during r, wrGuard W s = .ok (g, t) ∧ GuardRan W s t g polls early during r := by
  obtain ⟨u, pulsed⟩ := runSteps_pulseSteps W (s := s.afterArm W 200#16) wr
  obtain ⟨g, t, polls, early, late, ran, guarded⟩ := wrGuard_spec W wr rdy
  have polled : pollLoop W u.fireIn u = (g, t) :=
    Except.ok.inj (((wrGuard_of_pulsed pulsed).trans (if_pos rdy)).symm.trans ran)
  have inOrder : PolledInOrder u t := by simpa only [polled] using pollLoop_polledInOrder W u.fireIn u
  obtain ⟨during, r, trace, silent⟩ := inOrder.afterPulse (runSteps_ran pulseSteps_plain pulsed)
  obtain ⟨point, armed, once⟩ := afterArm_trace W 200#16 s
  have same : early ++ .tmArm 200#16 :: late = point ++ .tmArm 200#16 :: (during ++ [.smp .rdy r, .tmDisarm]) :=
    List.append_cancel_left (guarded.trace.symm.trans (trace.trans (by simp [armed])))
  obtain ⟨rfl, rfl⟩ := cut_at_first_own_unique guarded.before (by rcases once with rfl | rfl <;> rfl) rfl same
  exact ⟨g, t, polls, early, during, r, ran, guarded, once, silent⟩

theorem wrGuard_of_rdy_not_input (W : World) (wr : s.dirOf .wr = .output) (other : s.dirOf .rdy ≠ .input) :
    ∃ u, Ran pulseSteps (s.afterArm W 200#16) u ∧
      wrGuard W s = .error (.lineDirection (.protocol .rdy) u.countdown) := by
  obtain ⟨u, pulsed⟩ := runSteps_pulseSteps W (s := s.afterArm W 200#16) wr
  exact ⟨u, runSteps_ran pulseSteps_plain pulsed, (wrGuard_of_pulsed pulsed).trans (if_neg other)⟩

/-- A guard that went through had `WR` an output and `RDY` an input (R61, R63). -/
theorem wrGuard_ran (ran : wrGuard W s = .ok (g, t)) : ∃ polls early during r, GuardRan W s t g polls early during r := by
  by_cases wr : s.dirOf .wr = .output
  · by_cases rdy : s.dirOf .rdy = .input
    · obtain ⟨_, _, polls, early, during, r, ran', guard⟩ := wrGuard_completes W wr rdy
      cases ran.symm.trans ran'
      exact ⟨polls, early, during, r, guard⟩
    · obtain ⟨_, -, stopped⟩ := wrGuard_of_rdy_not_input W wr rdy
      cases ran.symm.trans stopped
  · cases ran.symm.trans (wrGuard_of_wr_not_output W wr)

theorem GuardRan.fires_iff (h : GuardRan W s t g polls early during r) : g = .timedOut ↔ Event.tmFire ∈ during := by
  simp [h.guarded.timedOut_iff, h.guarded.flag]

/-- The sequencer's events between the arm and the last poll: the commit pulse and the polls before the last, none of which
read ready (R93). -/
theorem GuardRan.during_events (h : GuardRan W s t g polls early during r) :
    ∃ before : List Level, during.filter own = pulseSteps.map MicroStep.event ++ before.map (.smp .rdy) ∧
      (∀ v ∈ before, v ≠ W.params.rdyReadyLevel) ∧ (g = .ready → r = W.params.rdyReadyLevel) := by
  obtain ⟨before, last, rfl, unready, answered⟩ := h.guarded.fit
  have events := h.guarded.events
  rw [GuardEvents, List.filter_append, h.guarded.before] at events
  have cut : during.filter own ++ [.smp .rdy r, .tmDisarm] =
      (pulseSteps.map MicroStep.event ++ before.map (.smp .rdy)) ++ [.smp .rdy last, .tmDisarm] := by
    simpa [own, pulseSteps, MicroStep.event] using events
  obtain ⟨same, tail⟩ := List.append_inj' cut rfl
  obtain rfl : r = last := by simpa using tail
  exact ⟨before, same, unready, answered⟩

/-- Whether the monitor has no part in an event. -/
def Event.plain : Event → Bool
  | .tmArm _ => false
  | .tmDisarm => false
  | .tmFire => false
  | _ => true

theorem GuardRan.during_plain (h : GuardRan W s t g polls early during r) :
    ∀ e ∈ during, e ≠ .tmFire → e.plain = true := by
  obtain ⟨before, events, -⟩ := h.during_events
  intro e mem sequencer
  have mem : e ∈ during.filter own := List.mem_filter.mpr ⟨mem, decide_eq_true sequencer⟩
  rw [events, List.mem_append, List.mem_map, List.mem_map] at mem
  rcases mem with ⟨m, pulse, rfl⟩ | ⟨v, -, rfl⟩
  · exact (by decide : ∀ m ∈ pulseSteps, m.event.plain = true) m pulse
  · rfl

theorem GuardRan.during_unready (h : GuardRan W s t g polls early during r) (polled : .smp .rdy v ∈ during) :
    v ≠ W.params.rdyReadyLevel := by
  obtain ⟨before, events, unready, -⟩ := h.during_events
  have mem : Event.smp .rdy v ∈ during.filter own := List.mem_filter.mpr ⟨polled, rfl⟩
  rw [events] at mem
  exact unready v (by simpa [pulseSteps, MicroStep.event] using mem)

/-! ### The timed refinement -/

/-- From any place in a run the rest of it fires on time. -/
theorem FiresOnTime.suffix {armed : Option Nat} {polled : Bool} {before rest : Stamped}
    (onTime : FiresOnTime armed polled (before ++ rest)) : ∃ armed polled, FiresOnTime armed polled rest := by
  induction before generalizing armed polled with
  | nil => exact ⟨armed, polled, onTime⟩
  | cons e before ih =>
    obtain ⟨stamp, event⟩ := e
    cases event <;> exact ih onTime.2

/-- While the countdown runs, every event the monitor has no part in comes before the deadline (R97). -/
theorem FiresOnTime.beforeDue {due : Nat} {polled : Bool} {calm rest : Stamped}
    (onTime : FiresOnTime (some due) polled (calm ++ rest)) (plain : ∀ e ∈ calm, e.2.plain = true) :
    (∀ e ∈ calm, e.1 < due) ∧ ∃ polled, FiresOnTime (some due) polled rest := by
  induction calm generalizing polled with
  | nil => exact ⟨nofun, polled, onTime⟩
  | cons e calm ih =>
    obtain ⟨first, others⟩ := List.forall_mem_cons.mp plain
    have step : e.1 < due ∧ ∃ polled, FiresOnTime (some due) polled (calm ++ rest) := by
      obtain ⟨stamp, event⟩ := e
      cases event with
      | tmArm | tmDisarm | tmFire => cases first
      | _ => exact ⟨onTime.1 due rfl, _, onTime.2⟩
    obtain ⟨inTime, polled, onTime⟩ := step
    exact (ih onTime others).imp_left fun rest => List.forall_mem_cons.mpr ⟨inTime, rest⟩

/-- The deadline divides the polls of a stamped guard: the countdown fires before the last poll exactly when that comes at
the deadline or later, and the polls before it come sooner (R97). -/
theorem poll_stamps {due polledAt disarmedAt : Nat} {r : Level} {during : Stamped}
    (onTime : FiresOnTime (some due) false (during ++ [(polledAt, .smp .rdy r), (disarmedAt, .tmDisarm)]))
    (ordered : ∀ e ∈ during, e.1 ≤ polledAt) (plain : ∀ e ∈ during.map Prod.snd, e ≠ .tmFire → e.plain = true)
    (silent : NoPollAfterFire (during.map Prod.snd)) :
    (.tmFire ∈ during.map Prod.snd ↔ due ≤ polledAt) ∧ ∀ e ∈ during, ∀ v, e.2 = .smp .rdy v → e.1 < due := by
  have calm : ∀ part : Stamped, part ⊆ during → .tmFire ∉ part.map Prod.snd → ∀ e ∈ part, e.2.plain = true :=
    fun part sub unfired e mem => plain e.2 (List.mem_map_of_mem (sub mem)) fun fire =>
      unfired (fire ▸ List.mem_map_of_mem mem)
  by_cases fired : Event.tmFire ∈ during.map Prod.snd
  · obtain ⟨a, b, split, unfired⟩ := List.eq_append_cons_of_mem fired
    obtain ⟨before, rest, rfl, rfl, cut⟩ := List.map_eq_append_iff.mp split
    obtain ⟨⟨firedAt, _⟩, after, rfl, rfl, rfl⟩ := List.map_eq_cons_iff.mp cut
    rw [List.append_assoc] at onTime
    obtain ⟨sooner, _, ⟨_, ⟨⟩, elapsed⟩, -⟩ := onTime.beforeDue (calm before (List.subset_append_left ..) unfired)
    obtain ⟨-, silenced, -⟩ := List.pairwise_append.mp (split ▸ silent)
    have firedByThen : firedAt ≤ polledAt := ordered (firedAt, .tmFire) (by simp)
    refine ⟨iff_of_true fired (elapsed.trans firedByThen), fun e mem v poll => ?_⟩
    rcases List.mem_append.mp mem with early | late
    · exact sooner e early
    rcases List.mem_cons.mp late with rfl | later
    · cases poll
    · exact absurd poll ((List.pairwise_cons.mp silenced).1 e.2 (List.mem_map_of_mem later) rfl v)
  · obtain ⟨sooner, _, inTime, -⟩ := onTime.beforeDue (calm during (List.Subset.refl _) fired)
    exact ⟨iff_of_false fired (Nat.not_le.mpr (inTime due rfl)), fun e mem _ _ => sooner e mem⟩

/-- A stamped guard is cut as its trace is. -/
theorem exists_stamped_cut {stamped : Stamped} {pre mid : List Event} {a b c : Event}
    (events : stamped.map Prod.snd = pre ++ a :: (mid ++ [b, c])) :
    ∃ (before during : Stamped) (x y z : Nat), stamped = before ++ (x, a) :: (during ++ [(y, b), (z, c)]) ∧
      before.map Prod.snd = pre ∧ during.map Prod.snd = mid := by
  obtain ⟨before, _, rfl, start, fromArm⟩ := List.map_eq_append_iff.mp events
  obtain ⟨⟨x, _⟩, _, rfl, rfl, afterArm⟩ := List.map_eq_cons_iff.mp fromArm
  obtain ⟨during, _, rfl, between, fromPoll⟩ := List.map_eq_append_iff.mp afterArm
  obtain ⟨⟨y, _⟩, _, rfl, rfl, afterPoll⟩ := List.map_eq_cons_iff.mp fromPoll
  obtain ⟨⟨z, _⟩, _, rfl, rfl, afterDisarm⟩ := List.map_eq_cons_iff.mp afterPoll
  cases List.map_eq_nil_iff.mp afterDisarm
  exact ⟨before, during, x, y, z, rfl, start, between⟩

end Sys2Proof.Machine

namespace Sys2Proof

open Machine

/-- Settles O34: the guard completes where its pulse and its polls may go through, and otherwise faults at the first that may
not; its flag is set exactly when the countdown fired between the arm and the last poll. -/
theorem wrGuardRule : Obligations.WrGuardRule := by
  refine ⟨rfl, fun s => ⟨fun wr rdy => ?_, fun other => ?_, fun wr other => ?_⟩⟩
  · obtain ⟨g, t, polls, early, during, r, ran, guard⟩ := wrGuard_completes Config.world (s := s.begin .wrGuard) wr rdy
    have ran' : exec .wrGuard s = .next (t.finish (.guard g)) :=
      (exec_wrGuard s).trans (perform_ok (by simp only [guardProgram, ran]; rfl))
    have guarded := guard.guarded
    have kept := guarded.kept
    exact ⟨_, g, polls, _, early, during, r, ran', rfl, ⟨_, guarded.trace, rfl⟩, guarded.events, guarded.trace,
      guard.once, guarded.fit, guard.fires_iff, guarded.timedOut_iff, guarded.stopped, guarded.deadline,
      ⟨(congrFun guarded.dir .wr).trans wr, (guarded.lvl _).trans (if_pos rfl)⟩, exec_linesKept ran', kept.session,
      kept.engState, kept.sel⟩
  · have stopped := wrGuard_of_wr_not_output Config.world (s := s.begin .wrGuard) other
    have point := countdown_passed ((s.begin .wrGuard).afterArm Config.world 200#16)
    refine ⟨_, (exec_wrGuard s).trans (perform_error (by simp only [guardProgram, stopped]; rfl)), ?_, rfl, ?_⟩
    · exact (afterArm_performed Config.world 200#16 (s.begin .wrGuard)).trans (countdown_performed _)
    · exact (point.armed (.inr rfl)).symm
  · obtain ⟨u, pulsed, stopped⟩ := wrGuard_of_rdy_not_input Config.world (s := s.begin .wrGuard) wr other
    refine ⟨_, (exec_wrGuard s).trans (perform_error (by simp only [guardProgram, stopped]; rfl)), ?_⟩
    obtain ⟨added, passed, events⟩ := pulsed.passed
    exact ((afterArm_performed Config.world 200#16 (s.begin .wrGuard)).trans ⟨added, passed.trace, events⟩).trans
      (countdown_performed u)

/-- Settles O35: while the countdown runs everything comes before its deadline, it fires at the deadline or later, and then the
next poll is the last. -/
theorem timedGuard : Obligations.TimedGuard := by
  intro W s t g stamped ran events run
  obtain ⟨polls, early, during, r, guard⟩ := wrGuard_ran ran
  obtain ⟨_, -, -, answered⟩ := guard.during_events
  have trace : t.tr = (s.tr ++ early) ++ .tmArm 200#16 :: (during ++ [.smp .rdy r, .tmDisarm]) := by
    rw [guard.guarded.trace, List.append_assoc]
  obtain ⟨before, during, armedAt, polledAt, disarmedAt, rfl, start, rfl⟩ := exists_stamped_cut (events.trans trace)
  obtain ⟨_, onTime⟩ := run.fires
  obtain ⟨_, _, -, onTime⟩ := onTime.suffix
  obtain ⟨-, fromArm, -⟩ := List.pairwise_append.mp (List.pairwise_map.mp run.ordered)
  obtain ⟨-, -, ordered⟩ := List.pairwise_append.mp (List.pairwise_cons.mp fromArm).2
  obtain ⟨deadline, sooner⟩ := poll_stamps onTime (fun e mem => ordered e mem (polledAt, .smp .rdy r) (by simp))
    guard.during_plain guard.silent
  refine ⟨before, during, armedAt, polledAt, disarmedAt, r, rfl, ?_, guard.fires_iff.trans deadline, answered,
    fun e mem v poll => ⟨sooner e mem v poll, guard.during_unready (poll ▸ List.mem_map_of_mem mem)⟩⟩
  rcases guard.once with rfl | rfl
  · exact .inl (start.trans (List.append_nil _))
  · exact .inr start

end Sys2Proof
end

section
/-! PROOFS. The two operations of several writes or erasures: the default sets and the erase, the gate open and no session
active (R115, R116). -/

namespace Sys2Proof.Machine

variable {s : State}

/-- The bytes of the set that `u` selects, in the order they are written (R115). -/
theorem defaultWrites_defaultSet (d : Config.DeviceDescriptor) (u : Bool) : defaultWrites (defaultSet d u) =
    if u then [(.low, d.bootloaderFuse.low), (.high, d.bootloaderFuse.high), (.extended, d.bootloaderFuse.extended)]
    else [(.low, d.defaultFuse.low), (.high, d.defaultFuse.high), (.extended, d.defaultFuse.extended)] := by
  cases u <;> rfl

/-- `ERASE_DEVICE` in `DeviceKnown` without a session completes with its last guard's result (R116). -/
theorem eraseDevice_completes (known : s.engState = .deviceKnown) (free : s.session = false) :
    ∃ t before last added, exec .eraseDevice s = .next (t.finish (.guard last.guard)) ∧
      Erased Config.params { s.begin .eraseDevice with att := 0 } t before last added := by
  obtain ⟨_, t, before, last, added, ran, rfl, erased⟩ :=
    eraseLoop_spec Config.world 3 .timedOut (s := { s.begin .eraseDevice with att := 0 }) free rfl
  have ran' : eraseProgram (s.begin .eraseDevice) = .ok (.guard last.guard, t) := by
    simp only [eraseProgram, Config.attemptMax, ran]; rfl
  exact ⟨t, before, last, added, (gated_of_known known).trans (perform_ok ran'), erased⟩

theorem Tried.flag_iff {t : State} {g : GuardResult} (tried : Tried s t g) : t.tmFlag = true ↔ g = .timedOut := by
  rw [tried.result]
  exact (guardResult_eq_timedOut _).symm

end Sys2Proof.Machine

namespace Sys2Proof

open Machine

/-- Settles O41: the writes of the selected set end at the first that failed, and the last one's last attempt decides what is
left. -/
theorem writeFuseDefaultsRule : Obligations.WriteFuseDefaultsRule := by
  refine fun u => ⟨by cases u <;> rfl, fun s d known selected free => ?_⟩
  obtain ⟨_, t, writes, added, last, ran, run, rfl, tried, atEnd, rb, trace, -⟩ := writeDefaults_spec Config.world
    (defaultWrites (defaultSet d u)) (List.cons_ne_nil _ _) (s := s.begin (.writeFuseDefaults u)) free
  have ran' : defaultsProgram (defaultSet d u) (s.begin (.writeFuseDefaults u)) =
      .ok (.defaults (statusOfWrites writes), t) := by
    simp only [defaultsProgram, ran]; rfl
  have kept := tried.kept
  refine ⟨t.finish (.defaults (statusOfWrites writes)), added, writes, ?_, rfl, trace,
    defaultWrites_defaultSet d u ▸ run, fun w isLast => ?_, tried.stopped, tried.rested.quiesced, tried.rested.session,
    kept.engState, kept.sel⟩
  · rw [exec_writeFuseDefaults_of_selected u selected, gated_of_known known, perform_ok ran']
  · obtain rfl : w.2.2 = last := by simpa [isLast] using atEnd
    exact ⟨tried.flag_iff, rb⟩

/-- Settles O42: the attempts' loop ends within its four attempts, and its last attempt decides what it leaves. -/
theorem eraseDeviceRule : Obligations.EraseDeviceRule := by
  refine ⟨rfl, fun s known free => ?_⟩
  obtain ⟨t, before, last, added, ran, erased⟩ := eraseDevice_completes known free
  have tried := erased.tried
  exact ⟨_, added, before, last, ran, rfl, erased.trace, erased.events, erased.policy rfl, erased.att.trans (Nat.zero_add _),
    tried.flag_iff, tried.stopped, tried.rested.quiesced, tried.rested.session, tried.kept.engState, tried.kept.sel⟩

end Sys2Proof
end

section
/-! PROOFS. The engine's operations whatever the operation: what a completed one leaves, what `IDENTIFY` finds, the status of a
write, and the gate of the other five (R106, R110, R113, R119, R121 to R124, R128). -/

namespace Sys2Proof.Machine

open Config (DeviceDescriptor)

variable {W : World} {i : Instr} {cmd value b : Byte} {loc : FuseLocation} {f : Bool} {s t : State}
  {registry : List DeviceDescriptor} {signature : Word24} {b0 b1 b2 : Byte} {added : List Event}

/-! ### Identification -/

theorem signature_ne_of_lookup_eq_none (h : lookup registry signature = none) :
    ∀ d ∈ registry, d.signature ≠ signature := by
  rintro d entry rfl
  obtain ⟨e, found⟩ := exists_lookup_of_mem entry
  cases h.symm.trans found

/-- The signature's reads are those of the addresses 0, 1, 2, each a load and a reception (R110). -/
theorem Identified.identifyEvents (h : Identified W s t b0 b1 b2 added) :
    IdentifyEvents W.params b0 b1 b2 (sequencerEvents added) := by
  obtain ⟨enter, command, _, exit, enters, commands, reads, exits, events⟩ := h.events
  obtain _ | ⟨_, _, _, _, load0, read0, _, l0, r0, reads⟩ := reads
  obtain _ | ⟨_, _, _, _, load1, read1, _, l1, r1, reads⟩ := reads
  obtain _ | ⟨_, _, _, _, load2, read2, _, l2, r2, reads⟩ := reads
  obtain _ | _ := reads
  refine ⟨enter, command, load0, read0, load1, read1, load2, read2, exit, enters, commands, l0, r0, l1, r1, l2, r2, exits,
    events.trans ?_⟩
  simp only [List.append_assoc, List.nil_append]

/-- `IDENTIFY` without a session completes with the signature and the entry it leaves in `ACC` and `SEL` (R106, R110). -/
theorem identify_completes (free : s.session = false) :
    ∃ t b0 b1 b2 added, exec .identify s = .next (t.finish (.identified t.acc t.sel)) ∧
      Identified Config.world (s.begin .identify) t b0 b1 b2 added := by
  obtain ⟨t, b0, b1, b2, added, ran, found⟩ := identify_spec Config.world (s := s.begin .identify) free
  exact ⟨t, b0, b1, b2, added, perform_ok ran, found⟩

theorem exec_identify_in_session (active : s.session = true) :
    exec .identify s = .fault (.sessionActive (s.begin .identify)) :=
  perform_error (identify_in_session Config.world (s := s.begin .identify) active)

/-! ### The status of a write -/

/-- The host reads the status of a write that returned a byte (R113, R120). -/
theorem reportedFailure_of_singleWrite (write : singleWrite i = some (cmd, loc, value)) (result : t.result = .byte b) :
    reportedFailure i t = (writeStatus value b t.tmFlag).failure := by
  unfold singleWrite at write
  split at write <;> cases write <;> simp only [reportedFailure, result]

/-- The timeout comes first, then the mismatch (R113, R123). -/
theorem writeStatus_failure_iff :
    ((writeStatus value b f).failure = some .writeTimeout ↔ f = true) ∧
    ((writeStatus value b f).failure = some .verifyMismatch ↔ f = false ∧ b ≠ value) ∧
    ((writeStatus value b f).failure = none ↔ f = false ∧ b = value) := by
  cases f with
  | true => simp [writeStatus, WriteStatus.failure]
  | false => by_cases same : b = value <;> simp [writeStatus, WriteStatus.failure, same]

/-- Attempts that ended without a timeout and without a match are all four (R112, R123). -/
theorem Wrote.att_eq_four {p : Config.Params} {before : List Attempt} {last : Attempt}
    (wrote : Wrote p cmd loc value s t before last added) (inTime : t.tmFlag = false) (differs : t.rb ≠ value) :
    t.att = 4 := by
  rcases wrote.ended with timedOut | took | four
  · exact absurd (wrote.tried.flag_iff.mpr timedOut) (by simp [inTime])
  · exact absurd (wrote.rb.trans took) differs
  · exact four

/-! ### The gate -/

/-- Outside `DeviceKnown` the five operations are refused, whether an entry is selected or not (R106, R121). -/
theorem exec_of_not_known (op : engineOperation i = true) (other : i ≠ .identify) (wf : i.wellFormed = true)
    (unknown : s.engState ≠ .deviceKnown) : exec i s = .next (s.refuse .unknownDevice) := by
  cases i with
  | identify => exact absurd rfl other
  | writeFuse loc value =>
    cases loc with
    | lock => cases wf
    | low | high | extended => exact gated_of_not_known unknown
  | writeFuseDefaults u =>
    cases selected : s.sel with
    | none => exact exec_writeFuseDefaults_of_none u selected
    | some d => exact (exec_writeFuseDefaults_of_selected u selected).trans (gated_of_not_known unknown)
  | readFuse | writeLock | eraseDevice => exact gated_of_not_known unknown
  | _ => cases op

/-- An instruction completes with a result that is no refusal. -/
def Accepted (i : Instr) (s : State) : Prop := ∃ t, exec i s = .next t ∧ ∀ e, t.result ≠ .refused e

theorem identify_accepted (free : s.session = false) : Accepted .identify s := by
  obtain ⟨t, _, _, _, _, ran, -⟩ := identify_completes free
  exact ⟨_, ran, nofun⟩

theorem singleWrite_accepted (write : singleWrite i = some (cmd, loc, value)) (known : s.engState = .deviceKnown)
    (free : s.session = false) : Accepted i s := by
  obtain ⟨t, _, _, _, ran, -⟩ := singleWrite_completes write known free
  exact ⟨_, ran, nofun⟩

theorem writeFuseDefaults_accepted (u : Bool) (known : s.engState = .deviceKnown) (selected : s.sel.isSome = true)
    (free : s.session = false) : Accepted (.writeFuseDefaults u) s := by
  obtain ⟨d, entry⟩ := Option.isSome_iff_exists.mp selected
  obtain ⟨-, rule⟩ := writeFuseDefaultsRule u
  obtain ⟨t, _, _, ran, result, -⟩ := rule s d known entry free
  exact ⟨t, ran, fun e => result ▸ nofun⟩

/-- In `DeviceKnown`, an entry selected and no session active, the gated operations run to their results (R106). -/
theorem accepted_of_known (op : engineOperation i = true) (wf : i.wellFormed = true)
    (known : s.engState = .deviceKnown) (selected : s.sel.isSome = true) (free : s.session = false) : Accepted i s := by
  cases i with
  | identify => exact identify_accepted free
  | readFuse loc =>
    obtain ⟨t, _, ran, -⟩ := readFuse_completes loc known free
    exact ⟨_, ran, nofun⟩
  | writeFuse loc value =>
    cases loc with
    | lock => cases wf
    | low | high | extended => exact singleWrite_accepted rfl known free
  | writeLock value => exact singleWrite_accepted rfl known free
  | writeFuseDefaults u => exact writeFuseDefaults_accepted u known selected free
  | eraseDevice =>
    obtain ⟨t, _, _, _, ran, -⟩ := eraseDevice_completes known free
    exact ⟨_, ran, nofun⟩
  | _ => cases op

end Sys2Proof.Machine

namespace Sys2Proof

open Machine

/-- Settles O45: every engine operation performs a program that completes without a session and rests the lines, or is refused. -/
theorem engineOperationsEndQuiesced : Obligations.EngineOperationsEndQuiesced := by
  intro i s op free stopped
  rcases engineOperation_completes op free with ⟨e, answer⟩ | ⟨r, t, answer, ended⟩
  · exact ⟨s.refuse e, answer, .inl ⟨e, rfl⟩⟩
  · have rested := ended.rested.finish r
    exact ⟨t.finish r, answer, .inr ⟨rested.quiesced, rested.session, ended.monitor stopped, rfl⟩⟩

/-- Settles O36: the program enters, reads at three addresses and quiesces, and the lookup of what `ACC` holds then decides `SEL`
and `ENG.STATE`; in a session it stops at the entry. -/
theorem identifyRule : Obligations.IdentifyRule := by
  refine ⟨rfl, fun s active => ⟨_, exec_identify_in_session active, rfl⟩, fun s free => ?_⟩
  obtain ⟨t, b0, b1, b2, added, ran, found⟩ := identify_completes free
  refine ⟨_, _, b0, b1, b2, ran, rfl, found.acc, ⟨added, found.passed.trace, rfl⟩, found.identifyEvents,
    fun d selected => ?_, fun unknown => ?_, found.engState, found.rested.quiesced, found.rested.session,
    found.passed.onlyFires⟩
  · exact (lookupIsExact t.acc d).mp (found.sel.symm.trans selected)
  · exact signature_ne_of_lookup_eq_none (found.sel.symm.trans unknown)

/-- Settles O40: the write returns `RB`, so its status is that of `RB` and the flag; and it ends short of four attempts only by a
timeout or a match. -/
theorem statusOfAWrite : Obligations.StatusOfAWrite := by
  intro i cmd loc value s write known free
  obtain ⟨t, before, last, added, ran, wrote, -⟩ := singleWrite_completes write known free
  have status : reportedFailure i (t.finish (.byte t.rb)) = (writeStatus value t.rb t.tmFlag).failure :=
    reportedFailure_of_singleWrite write rfl
  have returned : (t.finish (.byte t.rb)).result = .byte value ↔ t.rb = value := by simp
  obtain ⟨timeout, mismatch, success⟩ := writeStatus_failure_iff (value := value) (b := t.rb) (f := t.tmFlag)
  refine ⟨_, ran, ?_⟩
  rw [status, ne_eq, returned]
  refine ⟨timeout, mismatch, success, fun reported => ?_⟩
  obtain ⟨inTime, differs⟩ := mismatch.mp reported
  exact wrote.att_eq_four inTime differs

/-- Settles O43: outside `DeviceKnown` the gate refuses, inside it the operation's program runs to a result of its own, and
`IDENTIFY` has no gate. -/
theorem gateRule : Obligations.GateRule :=
  ⟨fun _ _ op other wf => ⟨exec_of_not_known op other wf, accepted_of_known op wf⟩, fun _ => identify_accepted⟩

end Sys2Proof
end

section
/-! PROOFS. The power order (R135, R153): every micro-step but the one that raises the elevated voltage keeps it whatever the
state, the session's opening keeps it because the logic supply is set just before, and programs are made of these. -/

namespace Sys2Proof.Machine

variable {W : World} {α β : Type} {p : α → State} {q : β → State} {i : Instr} {s t : State} {ms : List MicroStep}
  {tr evs added : List Event} {e : Event}

/-! ### Traces -/

theorem SupplyFirst.concat (h : SupplyFirst tr) (powered : e = .set .vppEn true → replayLvl none .vccEn tr = some true) :
    SupplyFirst (tr ++ [e]) := by
  intro before after cut
  rcases List.eq_nil_or_concat' after with rfl | ⟨earlier, last, rfl⟩
  · obtain ⟨rfl, raised⟩ := List.append_inj' cut rfl
    exact powered (List.cons.inj raised).1
  · rw [← List.cons_append, ← List.append_assoc] at cut
    exact h before earlier (List.append_inj' cut rfl).1

/-- Events that do not raise the elevated voltage keep the order. -/
theorem SupplyFirst.append (h : SupplyFirst tr) (calm : .set .vppEn true ∉ evs) : SupplyFirst (tr ++ evs) := by
  induction evs generalizing tr with
  | nil => rwa [List.append_nil]
  | cons e evs ih =>
    obtain ⟨other, calm⟩ := List.ne_and_not_mem_of_not_mem_cons calm
    rw [List.append_cons]
    exact ih (h.concat fun raised => absurd raised.symm other) calm

theorem not_mem_of_sequencerEvents (calm : e ∉ sequencerEvents added) (own : e ≠ .tmFire) : e ∉ added :=
  fun mem => calm (mem_sequencerEvents mem own)

theorem Performed.supplyFirst (performed : Performed s t evs) (calm : .set .vppEn true ∉ evs) (h : SupplyFirst s.tr) :
    SupplyFirst t.tr := by
  obtain ⟨added, trace, rfl⟩ := performed
  exact trace ▸ h.append (not_mem_of_sequencerEvents calm nofun)

/-- The elevated voltage raised after events that end with the logic supply on, and not among the others (R135, R153). -/
theorem Performed.supplyFirst_of_raised {a b : List Event} (performed : Performed s t (a ++ .set .vppEn true :: b))
    (calm : .set .vppEn true ∉ a) (powered : ∀ v, replayLvl v .vccEn a = some true) (calm' : .set .vppEn true ∉ b)
    (h : SupplyFirst s.tr) : SupplyFirst t.tr := by
  obtain ⟨before, after, trace, rfl, rfl⟩ := performed.cut
  have on : replayLvl none .vccEn (s.tr ++ before) = some true := by
    rw [replayLvl_append, ← replayLvl_sequencerEvents, powered]
  have raised : SupplyFirst (s.tr ++ before ++ [.set .vppEn true]) :=
    (h.append (not_mem_of_sequencerEvents calm nofun)).concat fun _ => on
  rw [trace, ← List.append_assoc, List.append_cons]
  exact raised.append (not_mem_of_sequencerEvents calm' nofun)

theorem Entered.supplyFirst (entered : Entered s t added) : SupplyFirst s.tr → SupplyFirst t.tr :=
  have performed : Performed s t (armSteps.map MicroStep.event ++ [.set .vccEn true, .dly .enter1] ++
      .set .vppEn true :: [.dly .enter2, .rel .rdy, .dly .enter3]) := ⟨added, entered.passed.trace, entered.events⟩
  performed.supplyFirst_of_raised (by decide) (fun _ => rfl) (by decide)

theorem Quieted.supplyFirst (quieted : Quieted s t added) : SupplyFirst s.tr → SupplyFirst t.tr :=
  Performed.supplyFirst ⟨added, quieted.passed.trace, quieted.events⟩ (by decide)

theorem ReceiveEvents.raise_not_mem {x : Byte} (h : ReceiveEvents x evs) : .set .vppEn true ∉ evs := by
  rw [ReceiveEvents] at h
  simp [h, sampleEvents]

theorem Received.supplyFirst (received : Received s t added) : SupplyFirst s.tr → SupplyFirst t.tr :=
  Performed.supplyFirst ⟨added, received.passed.trace, rfl⟩ received.events.raise_not_mem

theorem GuardEvents.raise_not_mem {polls : List Level} (h : GuardEvents polls evs) : .set .vppEn true ∉ evs := by
  rw [GuardEvents] at h
  simp [h]

theorem Guarded.supplyFirst {ready : Level} {g : GuardResult} {polls : List Level} {early late : List Event}
    (guarded : Guarded ready s t g polls early late) : SupplyFirst s.tr → SupplyFirst t.tr :=
  Performed.supplyFirst ⟨_, guarded.trace, rfl⟩ guarded.events.raise_not_mem

/-! ### Programs -/

/-- A program that goes through from `s` keeps the power order. -/
def InOrder (p : α → State) (s : State) (o : Except Fault α) : Prop :=
  ∀ a, o = .ok a → SupplyFirst s.tr → SupplyFirst (p a).tr

theorem InOrder.pure {a : α} (trace : (p a).tr = s.tr) : InOrder p s (.ok a) := fun _ same h =>
  Except.ok.inj same ▸ trace ▸ h

theorem InOrder.bind {o : Except Fault α} {k : α → Except Fault β} (first : InOrder p s o)
    (next : ∀ a, InOrder q (p a) (k a)) : InOrder q s (o >>= k) := fun b ran =>
  have ⟨a, ran, ran'⟩ := bind_eq_ok ran
  next a b ran' ∘ first a ran

theorem InOrder.returning {r : OpResult} {program : State → Except Fault State} (h : InOrder id s (program s)) :
    InOrder Prod.snd s (Machine.returning r program s) :=
  h.bind fun _ => .pure rfl

theorem microStep_performed {m : MicroStep} (ran : microStep W m s = .ok t) : Performed s t [m.event] := by
  cases m with
  | set l v =>
    simp only [microStep] at ran
    split at ran
    · exact Except.ok.inj ran ▸ performed_afterPoint nofun rfl
    · cases ran
  | drv | rel | dly | tmArm | tmDisarm => exact Except.ok.inj ran ▸ performed_afterPoint nofun rfl

/-- Micro-steps none of which raises the elevated voltage. -/
theorem inOrder_runSteps (calm : .set .vppEn true ∉ ms.map MicroStep.event) (s : State) :
    InOrder id s (runSteps W ms s) := by
  induction ms generalizing s with
  | nil => exact .pure rfl
  | cons m ms ih =>
    obtain ⟨other, calm⟩ := List.ne_and_not_mem_of_not_mem_cons calm
    have first : InOrder id s (microStep W m s) := fun _ ran =>
      (microStep_performed ran).supplyFirst (mt List.mem_singleton.mp other)
    exact first.bind (ih calm)

theorem LineProgram.raise_not_mem (h : LineProgram ms) : .set .vppEn true ∉ ms.map MicroStep.event := by
  cases h with
  | arm | bs1High => decide
  | frame | transmit | select => simp [frameSteps, tupleSel, transmitSteps, bselSetSteps, MicroStep.event]

theorem inOrder_lineProgram (h : LineProgram ms) (s : State) : InOrder id s (runSteps W ms s) :=
  inOrder_runSteps h.raise_not_mem s

theorem writeSelectSteps_lineProgram (loc : FuseLocation) : LineProgram (writeSelectSteps loc) := by
  cases loc with
  | lock => exact .bs1High
  | low | high | extended => exact .select _ _

theorem inOrder_quiesceLines (s : State) : InOrder id s (quiesceLines W s) := fun _ ran =>
  have ⟨_, quieted⟩ := quiesceLines_eq_ok ran
  quieted.supplyFirst

theorem inOrder_enterProg (s : State) : InOrder id s (enterProg W s) := fun _ ran =>
  have ⟨_, entered⟩ := enterProg_eq_ok ran
  entered.supplyFirst

theorem inOrder_receiveByte (s : State) : InOrder id s (receiveByte W s) := fun _ ran =>
  have ⟨_, received⟩ := receiveByte_eq_ok ran
  received.supplyFirst

theorem inOrder_wrGuard (s : State) : InOrder Prod.snd s (wrGuard W s) := fun _ ran =>
  have ⟨_, _, _, _, guarded⟩ := wrGuard_eq_ok ran
  guarded.supplyFirst

/-! ### The engine's programs -/

theorem inOrder_readSignature (as : List Byte) (s : State) : InOrder id s (readSignature W as s) := by
  induction as generalizing s with
  | nil => exact .pure rfl
  | cons a as ih =>
    exact (inOrder_lineProgram (.frame false false false a) s).bind fun u => (inOrder_receiveByte u).bind fun v =>
      ih { v with acc := foldSignature v.acc v.rx }

theorem inOrder_identify (s : State) : InOrder Prod.snd s (identify W s) :=
  (inOrder_enterProg s).bind fun u => (inOrder_lineProgram (.frame true false false _) u).bind fun v =>
    (inOrder_readSignature [0#8, 1#8, 2#8] { v with acc := 0#24 }).bind fun w =>
      (inOrder_quiesceLines w).bind fun _ => .pure rfl

theorem inOrder_readRaw (loc : FuseLocation) (s : State) : InOrder id s (readRaw W loc s) :=
  (inOrder_enterProg s).bind fun u => (inOrder_lineProgram (.frame true false false _) u).bind fun v =>
    (inOrder_lineProgram (.select _ _) v).bind fun w => (inOrder_receiveByte w).bind fun x => inOrder_quiesceLines x

theorem inOrder_writeAttempt (cmd : Byte) (loc : FuseLocation) (value : Byte) (s : State) :
    InOrder Prod.snd s (writeAttempt W cmd loc value s) := by
  refine (inOrder_runSteps (by decide) s).bind fun a => ?_
  refine (inOrder_enterProg a).bind fun b => ?_
  refine (inOrder_lineProgram (.frame true false false cmd) b).bind fun c => ?_
  refine (inOrder_lineProgram (.frame false true false value) c).bind fun d => ?_
  refine (inOrder_lineProgram (writeSelectSteps_lineProgram loc) d).bind fun e => ?_
  refine (inOrder_wrGuard e).bind fun ⟨_, f⟩ => ?_
  refine (inOrder_lineProgram (.select false false) f).bind fun g => ?_
  refine (inOrder_quiesceLines g).bind fun h => ?_
  exact (inOrder_readRaw loc h).bind fun _ => .pure rfl

theorem inOrder_writeLocation (cmd : Byte) (loc : FuseLocation) (value : Byte) (s : State) :
    InOrder id s (writeLocation W cmd loc value s) := by
  have loop : ∀ n s, InOrder id s (writeLoop W cmd loc value n s) := by
    intro n
    induction n with
    | zero => exact fun _ => .pure rfl
    | succ n ih =>
      refine fun s => (inOrder_writeAttempt cmd loc value { s with att := s.att + 1 }).bind fun ⟨g, u⟩ => ?_
      simp only
      split
      · exact .pure rfl
      · exact ih u
  exact loop Config.attemptMax { s with att := 0 }

theorem inOrder_writeDefaults (l : List (FuseLocation × Byte)) (s : State) :
    InOrder Prod.snd s (writeDefaults W l s) := by
  induction l generalizing s with
  | nil => exact .pure rfl
  | cons w l ih =>
    refine (inOrder_writeLocation W.params.cmdWriteFuse w.1 w.2 s).bind fun u => ?_
    simp only [id]
    split
    · exact .pure rfl
    · split
      · exact .pure rfl
      · exact ih u

theorem inOrder_eraseAttempt (s : State) : InOrder Prod.snd s (eraseAttempt W s) :=
  (inOrder_enterProg s).bind fun a => (inOrder_lineProgram (.frame true false false _) a).bind fun b =>
    (inOrder_wrGuard b).bind fun ⟨_, c⟩ => (inOrder_quiesceLines c).bind fun _ => .pure rfl

theorem inOrder_eraseLoop (n : Nat) (g : GuardResult) (s : State) : InOrder Prod.snd s (eraseLoop W n g s) := by
  induction n generalizing g s with
  | zero => exact .pure rfl
  | succ n ih =>
    refine (inOrder_eraseAttempt { s with att := s.att + 1 }).bind fun ⟨g, u⟩ => ?_
    simp only
    split
    · exact .pure rfl
    · exact ih g u

/-! ### Instructions -/

/-- A program that keeps the power order, wherever it begins. -/
abbrev PowersInOrder (program : Program) : Prop := ∀ u, InOrder Prod.snd u (program u)

theorem powersInOrder_writeProgram (cmd : Byte) (loc : FuseLocation) (value : Byte) :
    PowersInOrder (writeProgram cmd loc value) := fun u =>
  (inOrder_writeLocation cmd loc value u).bind fun _ => .pure rfl

/-- Every instruction is refused, or performs a program that keeps the power order. -/
theorem exec_powersInOrder (i : Instr) (s : State) : Answers PowersInOrder i s (exec i s) := by
  cases straight : lineSteps i with
  | some ms =>
    exact .performed _ (exec_of_lineSteps straight s) fun u =>
      (inOrder_lineProgram (lineSteps_lineProgram straight) u).returning
  | none =>
    cases i with
    | quiesce | exitProg => exact .performed (returning .done (quiesceLines Config.world)) rfl fun u =>
        (inOrder_quiesceLines u).returning
    | enterProg => exact .performed _ rfl fun u => (inOrder_enterProg u).returning
    | receiveByte => exact .performed _ (exec_receiveByte s) fun u => (inOrder_receiveByte u).bind fun _ => .pure rfl
    | tmArm n =>
      exact .performed _ (exec_tmArm n s) fun u => (inOrder_runSteps (by simp [MicroStep.event]) u).returning
    | tmDisarm => exact .performed _ (exec_tmDisarm s) fun u => (inOrder_runSteps (by decide) u).returning
    | tmTimedOut => exact .performed _ (exec_tmTimedOut s) fun _ => .pure rfl
    | wrGuard => exact .performed _ (exec_wrGuard s) fun u => (inOrder_wrGuard u).bind fun _ => .pure rfl
    | identify => exact .performed _ rfl inOrder_identify
    | readFuse loc =>
      exact .gated (program := readProgram loc) fun u => (inOrder_readRaw loc u).bind fun _ => .pure rfl
    | writeFuse loc value =>
      cases loc with
      | lock => exact .refused _ (exec_writeFuse_lock value s)
      | low => exact .gated (powersInOrder_writeProgram _ .low value)
      | high => exact .gated (powersInOrder_writeProgram _ .high value)
      | extended => exact .gated (powersInOrder_writeProgram _ .extended value)
    | writeLock value => exact .gated (powersInOrder_writeProgram _ .lock value)
    | writeFuseDefaults b =>
      cases selected : s.sel with
      | none => exact .refused _ (exec_writeFuseDefaults_of_none b selected)
      | some d =>
        exact exec_writeFuseDefaults_of_selected b selected ▸ .gated fun u =>
          (inOrder_writeDefaults _ u).bind fun _ => .pure rfl
    | eraseDevice =>
      exact .gated (program := eraseProgram) fun u =>
        (inOrder_eraseLoop Config.attemptMax .timedOut { u with att := 0 }).bind fun _ => .pure rfl
    | _ => cases straight

theorem exec_supplyFirst (first : SupplyFirst s.tr) (h : exec i s = .next t) : SupplyFirst t.tr := by
  rcases exec_powersInOrder i s with ⟨e, answer⟩ | ⟨program, answer, inOrder⟩
  · cases h.symm.trans answer
    exact first
  · obtain ⟨r, u, ran, rfl⟩ := perform_eq_next (answer.symm.trans h)
    exact inOrder (s.begin i) (r, u) ran first

theorem HostSide.supplyFirst (side : HostSide s t) (h : SupplyFirst s.tr) : SupplyFirst t.tr := by
  obtain ⟨_, _, _, rfl⟩ := side
  exact h

end Sys2Proof.Machine

namespace Sys2Proof

open Machine

/-- Settles O56: no program raises the elevated voltage but in opening a session, just after it has set the logic supply. -/
theorem stepKeepsPowerOrder : Obligations.StepKeepsPowerOrder := fun _ _ =>
  step_keeps (P := fun s => SupplyFirst s.tr) HostSide.supplyFirst
    (fun s => (countdown_performed s).supplyFirst List.not_mem_nil) exec_supplyFirst

end Sys2Proof
end

section
/-! PROOFS. The startup program, position by position: with no countdown running each step is what the position says, and the rules
of `QUIESCE` and `IDENTIFY` say the rest (R65, R110, R140 to R142). -/

namespace Sys2Proof.Machine

variable {i : Instr} {s t : State}

/-! ### The step of a position -/

theorem step_of_idle (idle : s.seq = none) : step s = betweenOperations s.countdown := by
  simp only [step, idle]

theorem step_of_stopped (idle : s.seq = none) (stopped : s.tmRun = false) : step s = betweenOperations s :=
  (step_of_idle idle).trans (congrArg betweenOperations (countdown_of_not_running stopped))

theorem betweenOperations_thisMode (first : s.startup = .sampleModeInput) (mode : s.modeInput = true) :
    betweenOperations s = .next { s with startup := .quiesce } := by
  simp only [betweenOperations, first, mode, if_true]

theorem betweenOperations_otherMode (first : s.startup = .sampleModeInput) (mode : s.modeInput = false) :
    betweenOperations s = .refused .otherModeSelected := by
  simp [betweenOperations, first, mode]

theorem betweenOperations_quiesce (second : s.startup = .quiesce) :
    betweenOperations s = startupOperation .quiesce .identify s := by
  simp only [betweenOperations, second]

theorem betweenOperations_identify (third : s.startup = .identify) :
    betweenOperations s = startupOperation .identify .ended s := by
  simp only [betweenOperations, third]

theorem startupOperation_of_exec (next : Startup) (ran : exec i s = .next t) :
    startupOperation i next s = .next { t with startup := next } := by
  simp only [startupOperation, ran]

/-! ### What the two operations leave -/

/-- A countdown that does not run keeps the flag and stays stopped (R94). -/
theorem MonitorOnlyFires.of_stopped (monitor : MonitorOnlyFires s t) (stopped : s.tmRun = false) :
    t.tmFlag = s.tmFlag ∧ t.tmRun = false := by
  obtain ⟨-, ⟨flag, run⟩ | ⟨running, -⟩⟩ := monitor
  · exact ⟨flag, run.trans stopped⟩
  · exact absurd running (by simp [stopped])

/-- Between operations, no session active and the countdown stopped with the flag `flag`. -/
structure AtRest (flag : Bool) (s : State) : Prop where
  idle : s.seq = none
  session : s.session = false
  stopped : s.tmRun = false
  tmFlag : s.tmFlag = flag

/-- The lookup's outcome decides between the two states an identification can end in (R110). -/
theorem identified_engState (found : s.engState = if s.sel.isSome then .deviceKnown else .deviceUnknown) :
    (s.engState = .deviceKnown ∨ s.engState = .deviceUnknown) ∧ (s.engState = .deviceKnown ↔ s.sel.isSome = true) := by
  cases selected : s.sel.isSome <;> simp [found, selected]

/-- The second step of the startup program: `QUIESCE`, which completes in every state (R65, R142). -/
theorem step_startup_quiesce (idle : s.seq = none) (stopped : s.tmRun = false) (second : s.startup = .quiesce) :
    ∃ t exit, step s = .next t ∧ t.startup = .identify ∧ Performed s t exit ∧ QuiesceEvents exit ∧ Quiesced t ∧
      AtRest s.tmFlag t := by
  obtain ⟨-, quiesce⟩ := quiesceRule
  obtain ⟨t, exit, ran, -, performed, exits, quiesced, -, session, -, -, monitor⟩ := quiesce s
  have idle' : t.seq = none := exec_idle idle ran
  obtain ⟨flag, stopped'⟩ := monitor.of_stopped stopped
  have stepped : step s = .next { t with startup := .identify } := by
    rw [step_of_stopped idle stopped, betweenOperations_quiesce second, startupOperation_of_exec _ ran]
  exact ⟨_, exit, stepped, rfl, performed, exits, quiesced, idle', session, stopped', flag⟩

/-- The third step of the startup program: `IDENTIFY`, which completes because no session is active (R110, R142). -/
theorem step_startup_identify {flag : Bool} (rest : AtRest flag s) (third : s.startup = .identify) :
    ∃ t identify b0 b1 b2, step s = .next t ∧ t.startup = .ended ∧ Performed s t identify ∧
      IdentifyEvents Config.params b0 b1 b2 identify ∧ Quiesced t ∧ AtRest flag t ∧
      (t.engState = if t.sel.isSome then .deviceKnown else .deviceUnknown) := by
  obtain ⟨-, -, identify⟩ := identifyRule
  obtain ⟨t, reads, b0, b1, b2, ran, -, -, performed, identifies, -, -, found, quiesced, session, monitor⟩ :=
    identify s rest.session
  have idle : t.seq = none := exec_idle rest.idle ran
  obtain ⟨kept, stopped⟩ := monitor.of_stopped rest.stopped
  have stepped : step s = .next { t with startup := .ended } := by
    rw [step_of_stopped rest.idle rest.stopped, betweenOperations_identify third, startupOperation_of_exec _ ran]
  exact ⟨_, reads, b0, b1, b2, stepped, rfl, performed, identifies, quiesced,
    ⟨idle, session, stopped, kept.trans rest.tmFlag⟩, found⟩

end Sys2Proof.Machine

namespace Sys2Proof

open Machine

/-- Settles O9: `QUIESCE` completes in every state and leaves no session, so `IDENTIFY` completes after it; the stopped countdown
stays stopped through both. -/
theorem startupProgram : Obligations.StartupProgram := by
  intro s idle first mode stopped
  have sampled : step s = .next { s with startup := .quiesce } :=
    (step_of_stopped idle stopped).trans (betweenOperations_thisMode first mode)
  obtain ⟨b, exit, secured, third, performed, exits, quiesced, rest⟩ :=
    step_startup_quiesce (s := { s with startup := .quiesce }) idle stopped rfl
  obtain ⟨c, reads, b0, b1, b2, identified, ended, performed', identifies, quiesced', rest', found⟩ :=
    step_startup_identify rest third
  exact ⟨_, b, c, exit, reads, b0, b1, b2, sampled, secured, identified, rfl, performed, exits, quiesced, performed',
    identifies, quiesced', ended, rest'.idle, rest'.session, rest'.stopped, rest'.tmFlag, identified_engState found⟩

/-- Settles O10: the mode input is sampled before anything is performed, and the point of the countdown does not touch it. -/
theorem otherModeIsStuck : Obligations.OtherModeIsStuck := fun _ idle first mode =>
  (step_of_idle idle).trans (betweenOperations_otherMode first mode)

end Sys2Proof
end
